-- ==== Sys2Proof/Word.lean ====
section
/-! DEFINITION. The word and byte types of the CRCU (00_scope.md R7, R9, R10).

Every value field is an unsigned 64-bit value (R7), and there is no signed arithmetic (R9).
The operators of R10 are `BitVec`'s own: `<<<` is `(a * 2^k) mod 2^64`, `>>>` is `floor (a / 2^k)`,
`^^^` and `&&&` are bitwise, `<` and `≤` compare the unsigned values. -/

namespace Sys2Proof

/-- The width of every value field (00_scope.md R7). -/
abbrev Word := BitVec 64

/-- One byte: an input data byte, a result byte, or one lane of the host bus. -/
abbrev Byte := BitVec 8

/-- `zext_64(b)` for a byte (00_scope.md R9). -/
abbrev Byte.toWord (b : Byte) : Word := b.setWidth 64

end Sys2Proof
end

