-- ==== Sys2Proof/Syntax.lean ====
section
/-! DEFINITION. The commands of the CRCU, one constructor per row of the opcode table
(30_encoding.md R72, R73). -/

namespace Sys2Proof

/-- The CRCU's six commands (30_encoding.md R72). `c` is the context index W[23:16], a number with no
scaling; `b` is the data byte W[7:0], used as bits (R73). A context index that the encoding cannot
hold is excluded by `Instr.wellFormed` (log 10). -/
inductive Instr where
  /-- NOP, 42_control.md R150. -/
  | nop
  /-- CFG_COMMIT, 40_config_table.md R100. -/
  | cfgCommit
  /-- ERR_CLR, 42_control.md R151. -/
  | errClr
  /-- CTX_START c, 41_fold_engine.md R120. -/
  | ctxStart (c : Nat)
  /-- CTX_FOLD c, b, 41_fold_engine.md R124. -/
  | ctxFold (c : Nat) (b : Byte)
  /-- CTX_FINAL c, 41_fold_engine.md R137. -/
  | ctxFinal (c : Nat)
  deriving DecidableEq, Repr

/-- The opcode table's mnemonic of a command (30_encoding.md R72). -/
def Instr.mnemonic : Instr → String
  | .nop => "NOP"
  | .cfgCommit => "CFG_COMMIT"
  | .errClr => "ERR_CLR"
  | .ctxStart _ => "CTX_START"
  | .ctxFold _ _ => "CTX_FOLD"
  | .ctxFinal _ => "CTX_FINAL"

end Sys2Proof
end

