-- ==== Sys2Proof/WellFormed.lean ====
section
/-! DEFINITION. Which commands have an encoding (30_encoding.md R70, R78). -/

namespace Sys2Proof

/-- The largest context index a command word can hold: the CTX field is 8 bits (30_encoding.md R70),
and an assembler rejects an operand outside 0 to 255 (R78). It is not N_CTX: a larger index than the
machine has contexts "is *not* illegal" (R75). -/
abbrev maxCtxOperand : Nat := 255

/-- A command is well formed when its context operand fits the CTX field; the data byte always fits
IMM8 by its type (30_encoding.md R70, R73). -/
def Instr.wellFormed : Instr → Bool
  | .nop => true
  | .cfgCommit => true
  | .errClr => true
  | .ctxStart c => decide (c ≤ maxCtxOperand)
  | .ctxFold c _ => decide (c ≤ maxCtxOperand)
  | .ctxFinal c => decide (c ≤ maxCtxOperand)

end Sys2Proof
end

