-- ==== Sys2Proof/Decode.lean ====
section
/-! DEFINITION. Decoding a command word, total and rejecting by name, and encoding a command
(30_encoding.md R70 to R77).

`decode` is the function Decode of R76, `encode` is written from the format of R70 and the opcode map
of R72, and `opcodeRows` is the match and mask list of R77. The three are written apart from one
another, so that each can be held against the others. -/

namespace Sys2Proof

/-! ## The fields of a command word (R70) -/

/-- HI, W[63:32]. -/
def hiField (w : Word) : BitVec 32 := w.extractLsb' 32 32

/-- OPC, W[31:24]. -/
def opcField (w : Word) : Byte := w.extractLsb' 24 8

/-- CTX, W[23:16]. -/
def ctxField (w : Word) : Byte := w.extractLsb' 16 8

/-- RSV, W[15:8]. -/
def rsvField (w : Word) : Byte := w.extractLsb' 8 8

/-- IMM8, W[7:0]. -/
def immField (w : Word) : Byte := w.extractLsb' 0 8

/-! ## Decoding (R76) -/

/-- Why a word is illegal: the three causes of 30_encoding.md R75, the must-be-zero fields named one
by one. The CRCU reports all of them as ILLEGAL_CMD and keeps none apart (log 11). -/
inductive IllegalReason where
  /-- W[63:32] is not 0. -/
  | hiNonzero
  /-- W[15:8] is not 0. -/
  | rsvNonzero
  /-- W[23:16] is not 0 in a command without a context operand. -/
  | ctxNonzero
  /-- W[7:0] is not 0 in a command without a data byte. -/
  | immNonzero
  /-- OPC is not one of the six opcodes. -/
  | reservedOpcode
  deriving DecidableEq, Repr

/-- The one outcome of decoding a word (30_encoding.md R76). -/
inductive Decoded where
  /-- The word is illegal (R75). -/
  | illegal (why : IllegalReason)
  /-- The word selects this command. -/
  | command (i : Instr)
  deriving DecidableEq, Repr

/-- The outcome of a command without operands: CTX and IMM8 must be 0 (R74). -/
def decodeNoOperand (w : Word) (i : Instr) : Decoded :=
  if ctxField w ≠ 0 then .illegal .ctxNonzero
  else if immField w ≠ 0 then .illegal .immNonzero
  else .command i

/-- The outcome of a command whose one operand is the context: IMM8 must be 0 (R74). -/
def decodeCtxOperand (w : Word) (i : Nat → Instr) : Decoded :=
  if immField w ≠ 0 then .illegal .immNonzero
  else .command (i (ctxField w).toNat)

/-- Decode(W) of 30_encoding.md R76. -/
def decode (w : Word) : Decoded :=
  if hiField w ≠ 0 then .illegal .hiNonzero
  else if rsvField w ≠ 0 then .illegal .rsvNonzero
  else if opcField w = 0x00 then decodeNoOperand w .nop
  else if opcField w = 0x01 then decodeNoOperand w .cfgCommit
  else if opcField w = 0x02 then decodeNoOperand w .errClr
  else if opcField w = 0x10 then decodeCtxOperand w .ctxStart
  else if opcField w = 0x11 then .command (.ctxFold (ctxField w).toNat (immField w))
  else if opcField w = 0x12 then decodeCtxOperand w .ctxFinal
  else .illegal .reservedOpcode

/-! ## Encoding (R70, R72) -/

/-- The word with these fields, HI and RSV being 0 (30_encoding.md R70, R74). -/
def wordOfFields (opc ctx imm : Byte) : Word :=
  (0#32 ++ opc ++ ctx ++ 0#8 ++ imm : BitVec (32 + 8 + 8 + 8 + 8))

/-- The word of a command (30_encoding.md R70, R72, R80); of a well-formed one, its own word. -/
def encode : Instr → Word
  | .nop => wordOfFields 0x00 0 0
  | .cfgCommit => wordOfFields 0x01 0 0
  | .errClr => wordOfFields 0x02 0 0
  | .ctxStart c => wordOfFields 0x10 (BitVec.ofNat 8 c) 0
  | .ctxFold c b => wordOfFields 0x11 (BitVec.ofNat 8 c) b
  | .ctxFinal c => wordOfFields 0x12 (BitVec.ofNat 8 c) 0

/-! ## Match and mask (R77) -/

/-- One row of 30_encoding.md R77. -/
structure OpcodeRow where
  mnemonic : String
  pattern : Word
  mask : Word
  deriving DecidableEq, Repr

/-- W selects a row exactly when `(W & mask) = match` (R77). -/
def OpcodeRow.selects (r : OpcodeRow) (w : Word) : Bool := w &&& r.mask == r.pattern

/-- The six rows of 30_encoding.md R77. -/
def opcodeRows : List OpcodeRow :=
  [ ⟨"NOP",        0x0000000000000000, 0xFFFFFFFFFFFFFFFF⟩,
    ⟨"CFG_COMMIT", 0x0000000001000000, 0xFFFFFFFFFFFFFFFF⟩,
    ⟨"ERR_CLR",    0x0000000002000000, 0xFFFFFFFFFFFFFFFF⟩,
    ⟨"CTX_START",  0x0000000010000000, 0xFFFFFFFFFF00FFFF⟩,
    ⟨"CTX_FOLD",   0x0000000011000000, 0xFFFFFFFFFF00FF00⟩,
    ⟨"CTX_FINAL",  0x0000000012000000, 0xFFFFFFFFFF00FFFF⟩ ]

/-! ## The host's reading of the decoder -/

/-- The command word of a table row's number: the low `nbits` bits of `w`, every higher bit 0. A
command is one 64-bit value written to CMD (30_encoding.md R70, R71), so bit 0 of the table is bit 0
of the word. -/
def tableWord (nbits w : Nat) : Word := BitVec.ofNat 64 (w % 2 ^ nbits)

/-- The command this decoder reads from a table row's number, none where the word is illegal or does
not fit the one command length of 64 bits (R71). -/
def decodeTableWord (nbits w : Nat) : Option Instr :=
  if w % 2 ^ nbits < 2 ^ 64 then
    match decode (tableWord nbits w) with
    | .command i => some i
    | .illegal _ => none
  else none

end Sys2Proof
end

