-- ==== Sys2Proof/Config.lean ====
section
/-! DEFINITION. The OPEN parameters of the CRCU (00_scope.md R7; 92_eei_decisions.md D11, D22, D35).

`N_CTX` and `BASE` are held in State (log 2, log 3), so that a statement over every state holds for
every value of them; the two numbers here are only what `State.reset` is built with. The latencies
are free: nothing in Lean can evaluate them, and no definition of the machine reads them (log 7). -/

namespace Sys2Proof.Config

/-- The number of fold contexts `State.reset` is built with: `N_CTX`, 1 to 8, is an OPEN parameter
(92 D11). DESIGN CHOICE 2, unsafe for a claim about `State.reset` alone (log 2). -/
def nCtx : Nat := 2

/-- The base address `State.reset` is built with: `BASE` is an OPEN parameter, 4096-byte aligned
(92 D35). DESIGN CHOICE 0, unsafe for a claim about `State.reset` alone (log 3). -/
def base : Nat := 0

/-- What a command's latency exceeds 1 by, a free value for each opcode (log 7). -/
opaque latencyLessOne : Byte → Nat

/-- `LAT_*` of the command with this opcode (70_reset_and_hazards.md R210): finite and positive, with
no other constraint; no rule of the model depends on it (log 7). -/
def latency (opc : Byte) : Nat := latencyLessOne opc + 1

end Sys2Proof.Config
end

