-- ==== Sys2Proof/Machine/State.lean ====
section
/-! DEFINITION. The state of the CRCU as plain data, the accesses of its one host, the reasons a step
can stop, and the state after reset (10_state.md R20 to R41; 20_memory.md R50, R62). -/

namespace Sys2Proof.Machine

/-! ## Names the registers hold -/

/-- The outcome codes of 60_exceptions.md R160; "All other values of LAST_ERR never occur", so LAST_ERR
holds one of these names and `ErrCode.code` gives its value (DESIGN CHOICE, log 16). -/
inductive ErrCode where
  /-- 0x00: the command succeeded. -/
  | ok
  /-- 0x01: the CMD word decodes as Illegal. -/
  | illegalCmd
  /-- 0x02: c ≥ N_CTX. -/
  | ctxRange
  /-- 0x03: no configuration has been committed since reset. -/
  | noConfig
  /-- 0x04: the context is not ACTIVE. -/
  | ctxState
  /-- 0x10: STG_BITS is outside 1 to 64. -/
  | cfgBitsRange
  /-- 0x11: STG_POLY does not fit. -/
  | cfgPolyWidth
  /-- 0x12: STG_INIT does not fit. -/
  | cfgInitWidth
  /-- 0x13: STG_XOROUT does not fit. -/
  | cfgXoroutWidth
  deriving DecidableEq, Repr

/-- The three values of ctx[c].STATE; "Value 3 never occurs" (10_state.md R34; DESIGN CHOICE,
log 16). -/
inductive CtxState where
  /-- 0: no fold in progress, no result. -/
  | idle
  /-- 1: the fold has started and input is accepted. -/
  | active
  /-- 2: finalised; the result is readable. -/
  | done
  deriving DecidableEq, Repr

/-! ## Groups of registers -/

/-- Five registers that hold one configuration: STG_* (10_state.md R28, R29) or CFG_* (R30, R31). Of
the flags register two bits are implemented, [0] REFIN and [1] REFOUT. -/
structure CrcConfig where
  bits : Word
  poly : Word
  init : Word
  xorout : Word
  flags : BitVec 2
  deriving DecidableEq, Repr

/-- All five registers 0, their reset value (10_state.md R40). -/
def CrcConfig.zero : CrcConfig := ⟨0, 0, 0, 0, 0⟩

/-- REFIN, bit 0 of the flags register (10_state.md R29, R31). -/
def CrcConfig.refin (k : CrcConfig) : Bool := k.flags.getLsbD 0

/-- REFOUT, bit 1 of the flags register (10_state.md R29, R31). -/
def CrcConfig.refout (k : CrcConfig) : Bool := k.flags.getLsbD 1

/-- One fold context: ctx[c].STATE and ctx[c].HASH (10_state.md R34, R35). -/
structure Ctx where
  state : CtxState
  hash : Word
  deriving DecidableEq, Repr

/-- A context after reset and after a successful commit: IDLE with HASH 0 (10_state.md R40;
40_config_table.md R103). -/
def Ctx.idle : Ctx := ⟨.idle, 0⟩

/-- The lookup table T: 256 entries of 64 bits, of which bit mode uses two (10_state.md R36). -/
abbrev Table := Vector Word 256

/-- Every entry 0: T before the first successful commit (10_state.md R36, R40). -/
def Table.zero : Table := Vector.replicate 256 0

/-! ## The host and its bus -/

/-- A host bus access (00_scope.md R14): `read addr n` is MemRead(addr, n), `write addr n v` is
MemWrite(addr, n, v). Addresses have no width of their own (log 4). A write's value is kept as 64
bits, since no write of another size is admitted (20_memory.md R51, log 12). -/
inductive Access where
  | read (addr n : Nat)
  | write (addr n : Nat) (v : Word)
  deriving DecidableEq, Repr

/-- What the outside world does to the CRCU (log 1): the host issues an access; the platform asserts
reset between two accesses (70_reset_and_hazards.md R190); or the platform asserts reset while the
CMD write of `w` is stalled (R192). -/
inductive HostEvent where
  | access (a : Access)
  | reset
  | resetDuringCmd (w : Word)
  deriving DecidableEq, Repr

/-- What the host is answered: the data of an admitted read, the completion of an admitted write
(20_memory.md R53), BusError (R52), or that a stalled CMD write was abandoned by reset, which "the
platform must not complete ... as a success" (70_reset_and_hazards.md R192). -/
inductive Response where
  | data (w : Word)
  | done
  | busError
  | abandoned
  deriving DecidableEq, Repr

/-! ## The machine -/

/-- Everything the spec gives the CRCU (10_state.md R20), each piece stored once; ID, STATUS,
BYTE_MODE, RESULT_BE and RESULT_LEN are views of it (DEDUCED, log 17), and there is no memory but these
registers (log 9). The last two fields are the model's own: the one host's accesses not yet served,
oldest first, and the answers given, oldest first (DESIGN CHOICE, log 1; log 15). -/
structure State where
  /-- BASE, the build's window address (00_scope.md R7; 20_memory.md R50; log 3). -/
  base : Nat
  /-- STATUS.CFG_VALID (10_state.md R23). -/
  cfgValid : Bool
  /-- STATUS.ERR_STICKY (10_state.md R24). -/
  errSticky : Bool
  /-- STATUS.LAST_ERR (10_state.md R25). -/
  lastErr : ErrCode
  /-- STG_BITS, STG_POLY, STG_INIT, STG_XOROUT, STG_FLAGS (10_state.md R28, R29). -/
  stg : CrcConfig
  /-- CFG_BITS, CFG_POLY, CFG_INIT, CFG_XOROUT, CFG_FLAGS (10_state.md R30, R31). -/
  cfg : CrcConfig
  /-- T[0..255] (10_state.md R36). -/
  table : Table
  /-- ctx[c] for c < N_CTX; N_CTX is this list's length (10_state.md R34, R35; log 2). -/
  ctxs : List Ctx
  /-- Host accesses and reset assertions not yet served, oldest first (20_memory.md R62; log 1). -/
  pending : List HostEvent
  /-- Answers given to the host, oldest first (log 1). -/
  responses : List Response
  deriving DecidableEq, Repr

/-- N_CTX: how many contexts the machine has (00_scope.md R7; log 2). -/
def State.nCtx (s : State) : Nat := s.ctxs.length

/-- The CRCU with `nCtx` contexts at address `base`, right after reset, the host having done nothing
(10_state.md R40; 70_reset_and_hazards.md R190). -/
def State.resetOf (nCtx base : Nat) : State where
  base := base
  cfgValid := false
  errSticky := false
  lastErr := .ok
  stg := CrcConfig.zero
  cfg := CrcConfig.zero
  table := Table.zero
  ctxs := List.replicate nCtx Ctx.idle
  pending := []
  responses := []

/-- The CRCU right after reset, with the build parameters of Config (log 2, log 3). -/
def State.reset : State := State.resetOf Config.nCtx Config.base

/-! ## Reasons to stop -/

/-- The reasons the machine can stop with a fault: none. "The CRCU never stops accepting accesses"
(70_reset_and_hazards.md R211), an error "does not stop the CRCU" (60_exceptions.md R164), and
BusError is an answer to the host (R167). No definition raises a fault (log 8). -/
inductive Fault
  deriving DecidableEq, Repr

/-- The reasons an instruction can be refused. -/
inductive Refusal where
  /-- Raised by `exec` alone, for an instruction that has no meaning yet; none is left. Safe: the model
  stops where the hardware goes on. -/
  | notModelled (mnemonic : String)
  deriving DecidableEq, Repr

/-- What a command, a bus access or a step answers. -/
abbrev Outcome := Host.Outcome State Fault Refusal

end Sys2Proof.Machine
end

