-- ==== Sys2Proof/Machine/Operands.lean ====
section
/-! DEFINITION. The operands a command reads: a context, a table entry, and the checks the three
context commands make on their context operand (60_exceptions.md R161; 41_fold_engine.md R127). -/

namespace Sys2Proof.Machine

/-- ctx[c]. Read only for c < N_CTX (60_exceptions.md R161); past the end it is an idle context. -/
def State.ctx (s : State) (c : Nat) : Ctx := s.ctxs[c]?.getD Ctx.idle

/-- ctx[c] <- x; nothing for c ≥ N_CTX. -/
def State.setCtx (s : State) (c : Nat) (x : Ctx) : State := { s with ctxs := s.ctxs.set c x }

/-- T[i] for an index of the fold rules. Every such index is below 256 (41_fold_engine.md R127), so
taking its low 8 bits drops nothing (log 19). -/
def Table.lookup (t : Table) (i : Word) : Word := t[(i.setWidth 8).toNat]'(BitVec.isLt _)

/-- The first check that CTX_START fails, in the order of 60_exceptions.md R161. -/
def startFailure (c : Nat) (s : State) : Option ErrCode :=
  if s.nCtx ≤ c then some .ctxRange
  else if s.cfgValid = false then some .noConfig
  else none

/-- The first check that CTX_FOLD or CTX_FINAL fails, in the order of 60_exceptions.md R161. -/
def activeFailure (c : Nat) (s : State) : Option ErrCode :=
  if s.nCtx ≤ c then some .ctxRange
  else if s.cfgValid = false then some .noConfig
  else if (s.ctx c).state ≠ .active then some .ctxState
  else none

end Sys2Proof.Machine
end

