-- ==== Sys2Proof/Machine/Ops.lean ====
section
/-! DEFINITION. The shared operations: how a command ends, in success or in an error
(00_scope.md R15; 60_exceptions.md R163), the one form every command has, answering the host, and
reset (70_reset_and_hazards.md R190). -/

namespace Sys2Proof.Machine

/-- `raise Error(code)`: LAST_ERR and ERR_STICKY are written "and nothing else". This is the CRCU's
whole error entry: no saved state, no mode, no vector (60_exceptions.md R163). There is no return
from it (R165). -/
def raiseError (code : ErrCode) (s : State) : State :=
  { s with lastErr := code, errSticky := true }

/-- `complete()`: the command succeeded, LAST_ERR <- 0x00 (00_scope.md R15). -/
def complete (s : State) : State := { s with lastErr := .ok }

/-- A command: its checks name the first failure, if any; then it ends in exactly one of
`raise Error(code)`, with no effect, or its effect and `complete()` (00_scope.md R15, R16). -/
def endCommand (failure : Option ErrCode) (effect : State → State) (s : State) : Outcome :=
  match failure with
  | some code => .next (raiseError code s)
  | none => .next (complete (effect s))

/-- The host is given an answer, after those it already has (log 1). -/
def State.respond (s : State) (r : Response) : State := { s with responses := s.responses ++ [r] }

/-- Reset sets every piece of state to its reset value and keeps the build's N_CTX and BASE, so ID
keeps its value (70_reset_and_hazards.md R190; 10_state.md R40). What the host has still to issue and
what it was already answered are not the CRCU's state and stay (log 6). -/
def State.applyReset (s : State) : State :=
  { State.resetOf s.nCtx s.base with pending := s.pending, responses := s.responses }

end Sys2Proof.Machine
end

