-- ==== Sys2Proof/Machine/Control.lean ====
section
/-! DEFINITION. The control commands NOP and ERR_CLR (42_control.md R150, R151). -/

namespace Sys2Proof.Machine

/-- NOP: report success and change nothing else (42_control.md R150). -/
def execNop (s : State) : Outcome := endCommand none id s

/-- ERR_CLR: STATUS.ERR_STICKY <- 0 (42_control.md R151). -/
def execErrClr (s : State) : Outcome := endCommand none (fun s => { s with errSticky := false }) s

end Sys2Proof.Machine
end

