-- ==== Sys2Proof/Machine/Bits.lean ====
section
/-! DEFINITION. The bit primitives of the spec: `reflect`, `maskw`, `fullmask` (00_scope.md R11, R12),
the big-endian serialisation of a result (41_fold_engine.md R140) and the byte lanes of the host bus
(20_memory.md R54). -/

namespace Sys2Proof.Machine

/-- `reflect(v, n)`: the bit-reversal of the low n bits of v, the bits at n and above ignored
(00_scope.md R11; 92 D13). -/
def reflect (v : Word) (n : Nat) : Word := (v.setWidth n).reverse.setWidth 64

/-- `maskw(v, n)`: the low n bits of v, the case n = 64 guarded (00_scope.md R12). -/
def maskw (v : Word) (n : Nat) : Word :=
  if n < 64 then v &&& ((1#64 <<< n) - 1#64) else v

/-- `fullmask(n)`: the largest value that fits in n bits (00_scope.md R12). -/
def fullmask (n : Nat) : Word := maskw 0xFFFFFFFFFFFFFFFF n

/-- `ceil(bits / 8)`, the number of result bytes (41_fold_engine.md R140; 10_state.md R39). -/
def resultLen (bits : Nat) : Nat := (bits + 7) / 8

/-- `Serialize(v, bits)`: the big-endian byte sequence of v, out[0] the most significant byte
(41_fold_engine.md R140). -/
def serialize (v : Word) (bits : Nat) : List Byte :=
  (List.range (resultLen bits)).map fun k =>
    ((v >>> (8 * (resultLen bits - 1 - k))) &&& 0xFF).setWidth 8

/-- The byte of v on bus lane k, bits [8k+7:8k] (20_memory.md R54). -/
def lane (v : Word) (k : Nat) : Byte := v.extractLsb' (8 * k) 8

/-- The 64-bit value whose lane k is byte k of the list, the lanes past its end being 0
(10_state.md R38). -/
def wordOfLanes (bytes : List Byte) : Word :=
  bytes.foldr (fun b above => (above <<< 8) ||| b.toWord) 0

end Sys2Proof.Machine
end

