-- ==== Sys2Proof/Machine/ConfigTable.lean ====
section
/-! DEFINITION. The configuration, its validation, the table generator and the command CFG_COMMIT
(40_config_table.md R90 to R112). -/

namespace Sys2Proof.Machine

/-! ## Constants derived from the width (R94) -/

/-- `psb`, the input bits one table lookup absorbs: 8 in byte mode, else 1 (R94). -/
def perSymbolBits (bits : Nat) : Nat := if 8 ≤ bits then 8 else 1

/-- `size`, the number of used table entries: 256 or 2 (R94). -/
def tableSize (bits : Nat) : Nat := 2 ^ perSymbolBits bits

/-- `msb`, the mask of the top bit of the `bits`-wide register (R94). -/
def msbMask (bits : Nat) : Word := 1#64 <<< (bits - 1)

/-- `mss`, the shift that brings the top symbol of the register down (R94). -/
def topShift (bits : Nat) : Nat := if 8 ≤ bits then bits - 8 else bits - 1

/-! ## Validation (R92, R101) -/

/-- `Validate(nb, np, ni, nx)`: the first failure, in the order of R101; none for a valid
configuration (R92). The reflection flags are never an error. -/
def validate (k : CrcConfig) : Option ErrCode :=
  if k.bits < 1 ∨ 64 < k.bits then some .cfgBitsRange
  else if fullmask k.bits.toNat < k.poly then some .cfgPolyWidth
  else if fullmask k.bits.toNat < k.init then some .cfgInitWidth
  else if fullmask k.bits.toNat < k.xorout then some .cfgXoroutWidth
  else none

/-! ## The table generator (R104) -/

/-- One iteration of step d, the CRC division step (R107). -/
def divisionStep (msb poly v : Word) : Word :=
  if v &&& msb ≠ 0 then (v <<< 1) ^^^ poly else v <<< 1

/-- Step d: the division step, n times (R104). -/
def divisionSteps (msb poly : Word) : Nat → Word → Word
  | 0, v => v
  | n + 1, v => divisionSteps msb poly n (divisionStep msb poly v)

/-- Steps a and b: the index, reflected within one symbol in byte mode when `refin` (R105). -/
def symbolOfIndex (bits : Nat) (refin : Bool) (x : Nat) : Word :=
  if 1 < perSymbolBits bits ∧ refin then reflect (BitVec.ofNat 64 x) (perSymbolBits bits)
  else BitVec.ofNat 64 x

/-- T[x] of GenerateTable(bits, poly, refin), steps a to g, and 0 for an unused entry of bit mode
(R104; 92 D18). -/
def tableEntry (bits : Nat) (poly : Word) (refin : Bool) (x : Nat) : Word :=
  if tableSize bits ≤ x then 0
  else
    let aligned := symbolOfIndex bits refin x <<< (bits - perSymbolBits bits)
    let divided := divisionSteps (msbMask bits) poly (perSymbolBits bits) aligned
    maskw (if refin then reflect divided bits else divided) bits

/-- `GenerateTable(bits, poly, refin)`: the 256 entries (R104). -/
def generateTable (bits : Nat) (poly : Word) (refin : Bool) : Table :=
  Vector.ofFn fun x => tableEntry bits poly refin x.val

/-- The table of a configuration (R104): it depends on `bits`, `poly` and `refin` only (R109). -/
def CrcConfig.makeTable (k : CrcConfig) : Table := generateTable k.bits.toNat k.poly k.refin

/-! ## CFG_COMMIT (R100) -/

/-- The effect of a CFG_COMMIT whose validation passed: all five staging registers are latched (R102),
the table is generated, CFG_VALID becomes 1 and every context IDLE with HASH 0 (R103). -/
def latchConfig (s : State) : State :=
  { s with
    cfg := s.stg
    table := s.stg.makeTable
    cfgValid := true
    ctxs := List.replicate s.nCtx Ctx.idle }

/-- CFG_COMMIT (R100). -/
def execCfgCommit (s : State) : Outcome := endCommand (validate s.stg) latchConfig s

end Sys2Proof.Machine
end

