-- ==== Sys2Proof/Machine/FoldEngine.lean ====
section
/-! DEFINITION. The CRC folding engine: CTX_START, CTX_FOLD and CTX_FINAL (41_fold_engine.md R120 to
R142). The functions of one configuration and table come first, then the three commands. -/

namespace Sys2Proof.Machine

/-! ## Seed, Fold, Finalize -/

/-- `Seed()`: the initial value, reflected within the width when `refin` (R121). -/
def seed (k : CrcConfig) : Word :=
  if k.refin then reflect k.init k.bits.toNat else k.init

/-- Byte mode, reflected (R129). -/
def foldByteRefl (t : Table) (h : Word) (b : Byte) : Word :=
  (h >>> 8) ^^^ t.lookup ((h &&& 0xFF) ^^^ b.toWord)

/-- Byte mode, non-reflected (R130). -/
def foldByteNorm (bits : Nat) (t : Table) (h : Word) (b : Byte) : Word :=
  (h <<< 8) ^^^ t.lookup (((h >>> topShift bits) &&& 0xFF) ^^^ b.toWord)

/-- One iteration of the reflected bit mode: bit i of b (R131). -/
def foldBitRefl (t : Table) (b : Byte) (h : Word) (i : Nat) : Word :=
  (h >>> 1) ^^^ t.lookup ((h &&& 1) ^^^ ((b.toWord >>> i) &&& 1))

/-- Bit mode, reflected: bit 0 of b first (R131). -/
def foldBitsRefl (t : Table) (h : Word) (b : Byte) : Word :=
  (List.range 8).foldl (foldBitRefl t b) h

/-- One iteration of the non-reflected bit mode: i is the loop counter, and the bit of b is 7 - i
(R132; 90_conflicts.md C2). -/
def foldBitNorm (bits : Nat) (t : Table) (b : Byte) (h : Word) (i : Nat) : Word :=
  (h <<< 1) ^^^ t.lookup (((h >>> topShift bits) &&& 1) ^^^ ((b.toWord >>> (7 - i)) &&& 1))

/-- Bit mode, non-reflected: bit 7 of b first (R132). -/
def foldBitsNorm (bits : Nat) (t : Table) (h : Word) (b : Byte) : Word :=
  (List.range 8).foldl (foldBitNorm bits t b) h

/-- `Fold(h, b)`: the committed width chooses byte or bit mode, and `refin` the reflected or the
non-reflected form (R125). No form masks the accumulator (R127). -/
def fold (k : CrcConfig) (t : Table) (h : Word) (b : Byte) : Word :=
  if 8 ≤ k.bits.toNat then
    if k.refin then foldByteRefl t h b else foldByteNorm k.bits.toNat t h b
  else
    if k.refin then foldBitsRefl t h b else foldBitsNorm k.bits.toNat t h b

/-- `Finalize(h)`: step 5 reflects when `refin` and `refout` differ (R138; 90_conflicts.md C5), step 6
is the XOR-out and step 7 the mask (R139). -/
def finalize (k : CrcConfig) (h : Word) : Word :=
  let reflected := if k.refin ≠ k.refout then reflect h k.bits.toNat else h
  maskw (reflected ^^^ k.xorout) k.bits.toNat

/-! ## The commands -/

/-- CTX_START c (R120): accepted in every state of the context (R122). -/
def execCtxStart (c : Nat) (s : State) : Outcome :=
  endCommand (startFailure c s) (fun s => s.setCtx c ⟨.active, seed s.cfg⟩) s

/-- CTX_FOLD c, b (R124). -/
def execCtxFold (c : Nat) (b : Byte) (s : State) : Outcome :=
  endCommand (activeFailure c s)
    (fun s => s.setCtx c ⟨.active, fold s.cfg s.table (s.ctx c).hash b⟩) s

/-- CTX_FINAL c (R137). -/
def execCtxFinal (c : Nat) (s : State) : Outcome :=
  endCommand (activeFailure c s)
    (fun s => s.setCtx c ⟨.done, finalize s.cfg (s.ctx c).hash⟩) s

/-! ## The result views (10_state.md R38, R39) -/

/-- ctx[c].RESULT_BE: byte k is out[k] of the big-endian result when the context is DONE; else 0
(10_state.md R38). -/
def State.resultBE (s : State) (c : Nat) : Word :=
  if (s.ctx c).state = .done then wordOfLanes (serialize (s.ctx c).hash s.cfg.bits.toNat) else 0

/-- ctx[c].RESULT_LEN: the number of result bytes when the context is DONE; else 0
(10_state.md R39). -/
def State.resultLenWord (s : State) (c : Nat) : Word :=
  if (s.ctx c).state = .done then BitVec.ofNat 64 (resultLen s.cfg.bits.toNat) else 0

end Sys2Proof.Machine
end

