-- ==== Sys2Proof/Machine/Dispatch.lean ====
section
/-! DEFINITION. Running one command: one arm for each constructor of Instr (30_encoding.md R72). -/

namespace Sys2Proof.Machine

def exec (i : Instr) (s : State) : Host.Outcome State Fault Refusal :=
  match i with
  | .nop => Sys2Proof.Machine.execNop s
  | .cfgCommit => Sys2Proof.Machine.execCfgCommit s
  | .errClr => Sys2Proof.Machine.execErrClr s
  | .ctxStart c => Sys2Proof.Machine.execCtxStart c s
  | .ctxFold c b => Sys2Proof.Machine.execCtxFold c b s
  | .ctxFinal c => Sys2Proof.Machine.execCtxFinal c s

end Sys2Proof.Machine
end

