-- ==== Sys2Proof/Machine/Flags.lean ====
section
/-! DEFINITION. The values of the named codes and the STATUS register (10_state.md R22 to R26, R34;
60_exceptions.md R160). -/

namespace Sys2Proof.Machine

/-- The value of an outcome code in LAST_ERR (60_exceptions.md R160). -/
def ErrCode.code : ErrCode → Byte
  | .ok => 0x00
  | .illegalCmd => 0x01
  | .ctxRange => 0x02
  | .noConfig => 0x03
  | .ctxState => 0x04
  | .cfgBitsRange => 0x10
  | .cfgPolyWidth => 0x11
  | .cfgInitWidth => 0x12
  | .cfgXoroutWidth => 0x13

/-- The value of ctx[c].STATE (10_state.md R34). -/
def CtxState.code : CtxState → Word
  | .idle => 0
  | .active => 1
  | .done => 2

/-- A flag as a bit of a register. -/
def flagBit (b : Bool) : Word := (BitVec.ofBool b).setWidth 64

/-- STATUS.BYTE_MODE: `CFG_VALID & (cfg.bits >= 8)`, derived (10_state.md R26). -/
def State.byteMode (s : State) : Bool := s.cfgValid && decide (8 ≤ s.cfg.bits)

/-- The STATUS register, its reserved bits 0 (10_state.md R22). -/
def State.statusWord (s : State) : Word :=
  flagBit s.cfgValid ||| (flagBit s.errSticky <<< 1) ||| (flagBit s.byteMode <<< 2) |||
    (s.lastErr.code.toWord <<< 8)

end Sys2Proof.Machine
end

