-- ==== Sys2Proof/Machine/Window.lean ====
section
/-! DEFINITION. The register window: which register stands at which offset, and what a read of it
returns (20_memory.md R50 to R59). -/

namespace Sys2Proof.Machine

/-- The registers of 20_memory.md R57. -/
inductive Reg where
  | id
  | status
  | cmd
  | stgBits
  | stgPoly
  | stgInit
  | stgXorout
  | stgFlags
  | cfgBits
  | cfgPoly
  | cfgInit
  | cfgXorout
  | cfgFlags
  | ctxState (c : Nat)
  | ctxHash (c : Nat)
  | ctxResultBE (c : Nat)
  | ctxResultLen (c : Nat)
  | tableEntry (i : Fin 256)
  deriving DecidableEq, Repr

/-- The fixed rows of 20_memory.md R57. -/
def fixedRegs : List (Nat × Reg) :=
  [ (0x000, .id), (0x008, .status), (0x010, .cmd),
    (0x040, .stgBits), (0x048, .stgPoly), (0x050, .stgInit), (0x058, .stgXorout), (0x060, .stgFlags),
    (0x080, .cfgBits), (0x088, .cfgPoly), (0x090, .cfgInit), (0x098, .cfgXorout), (0x0A0, .cfgFlags) ]

/-- The register at offset `off` inside the window of context `c` (20_memory.md R57). -/
def ctxRegs (c : Nat) : List (Nat × Reg) :=
  [ (0x00, .ctxState c), (0x08, .ctxHash c), (0x10, .ctxResultBE c), (0x18, .ctxResultLen c) ]

/-- The register at an offset from BASE in a CRCU with `nCtx` contexts, none where the offset is
unmapped (20_memory.md R57): context c's window is mapped exactly when c < N_CTX (R58), and the table
window is mapped in full (R59). -/
def regAt (nCtx off : Nat) : Option Reg :=
  if off < 0x100 then fixedRegs.lookup off
  else if off < 0x200 then
    if (off - 0x100) / 0x20 < nCtx then (ctxRegs ((off - 0x100) / 0x20)).lookup ((off - 0x100) % 0x20)
    else none
  else if off < 0x800 then none
  else if h : off < 0x1000 then
    if off % 8 = 0 then some (.tableEntry ⟨(off - 0x800) / 8, by omega⟩) else none
  else none

/-- `off(reg)`: the offset of a register (20_memory.md R57; 30_encoding.md R78). -/
def Reg.offset : Reg → Nat
  | .id => 0x000
  | .status => 0x008
  | .cmd => 0x010
  | .stgBits => 0x040
  | .stgPoly => 0x048
  | .stgInit => 0x050
  | .stgXorout => 0x058
  | .stgFlags => 0x060
  | .cfgBits => 0x080
  | .cfgPoly => 0x088
  | .cfgInit => 0x090
  | .cfgXorout => 0x098
  | .cfgFlags => 0x0A0
  | .ctxState c => 0x100 + 0x20 * c
  | .ctxHash c => 0x100 + 0x20 * c + 0x08
  | .ctxResultBE c => 0x100 + 0x20 * c + 0x10
  | .ctxResultLen c => 0x100 + 0x20 * c + 0x18
  | .tableEntry i => 0x800 + 8 * i.val

/-- Which registers a CRCU with `nCtx` contexts has (20_memory.md R58). -/
def Reg.present (nCtx : Nat) : Reg → Bool
  | .id => true
  | .status => true
  | .cmd => true
  | .stgBits => true
  | .stgPoly => true
  | .stgInit => true
  | .stgXorout => true
  | .stgFlags => true
  | .cfgBits => true
  | .cfgPoly => true
  | .cfgInit => true
  | .cfgXorout => true
  | .cfgFlags => true
  | .ctxState c => decide (c < nCtx)
  | .ctxHash c => decide (c < nCtx)
  | .ctxResultBE c => decide (c < nCtx)
  | .ctxResultLen c => decide (c < nCtx)
  | .tableEntry _ => true

/-- The register an access of `n` bytes at `addr` is admitted to, none where the access is not
admitted: `n = 8`, the offset from BASE is in 0 to 0xFF8 and a multiple of 8, and it is mapped
(20_memory.md R51). -/
def State.admitted (s : State) (addr n : Nat) : Option Reg :=
  if n = 8 ∧ s.base ≤ addr ∧ addr - s.base ≤ 0xFF8 ∧ (addr - s.base) % 8 = 0 then
    regAt s.nCtx (addr - s.base)
  else none

/-- ID: REV 0x07, NCTX, PART 0x4352, and 0 above (10_state.md R21). -/
def State.idWord (s : State) : Word :=
  (0#32 ++ 0x4352#16 ++ BitVec.ofNat 8 s.nCtx ++ 0x07#8 : BitVec (32 + 16 + 8 + 8))

/-- The 64-bit value a read of a register returns (20_memory.md R51, R53; 10_state.md R21 to R39). -/
def State.readReg (s : State) : Reg → Word
  | .id => s.idWord
  | .status => s.statusWord
  | .cmd => 0
  | .stgBits => s.stg.bits
  | .stgPoly => s.stg.poly
  | .stgInit => s.stg.init
  | .stgXorout => s.stg.xorout
  | .stgFlags => s.stg.flags.setWidth 64
  | .cfgBits => s.cfg.bits
  | .cfgPoly => s.cfg.poly
  | .cfgInit => s.cfg.init
  | .cfgXorout => s.cfg.xorout
  | .cfgFlags => s.cfg.flags.setWidth 64
  | .ctxState c => (s.ctx c).state.code
  | .ctxHash c => (s.ctx c).hash
  | .ctxResultBE c => s.resultBE c
  | .ctxResultLen c => s.resultLenWord c
  | .tableEntry i => s.table[i]

/-- The memory image of the window: the byte at host address `a`, little-endian lanes, none where no
register is mapped (20_memory.md R54). -/
def State.imageByte (s : State) (a : Nat) : Option Byte :=
  if s.base ≤ a then
    (regAt s.nCtx ((a - s.base) / 8 * 8)).map fun r => lane (s.readReg r) ((a - s.base) % 8)
  else none

end Sys2Proof.Machine
end

