-- ==== Sys2Proof/Machine/Bus.lean ====
section
/-! DEFINITION. Serving the host: issuing a command, writing a register, and one entry of the host's
list (20_memory.md R51 to R53, R62; 30_encoding.md R76; 70_reset_and_hazards.md R190, R192). -/

namespace Sys2Proof.Machine

/-- Issue(W): a host write of W to CMD. An illegal word raises ILLEGAL_CMD and has no other effect
(30_encoding.md R75, R76). -/
def issue (w : Word) (s : State) : Outcome :=
  match decode w with
  | .illegal _ => .next (raiseError .illegalCmd s)
  | .command i => exec i s

/-- The effect of an admitted write, by the register's access type (20_memory.md R53): STG_* store the
value, STG_FLAGS its two implemented bits (10_state.md R28, R29); CMD issues a command; a write to a
read-only register is ignored. -/
def writeReg (r : Reg) (v : Word) (s : State) : Outcome :=
  match r with
  | .id => .next s
  | .status => .next s
  | .cmd => issue v s
  | .stgBits => .next { s with stg := { s.stg with bits := v } }
  | .stgPoly => .next { s with stg := { s.stg with poly := v } }
  | .stgInit => .next { s with stg := { s.stg with init := v } }
  | .stgXorout => .next { s with stg := { s.stg with xorout := v } }
  | .stgFlags => .next { s with stg := { s.stg with flags := v.setWidth 2 } }
  | .cfgBits => .next s
  | .cfgPoly => .next s
  | .cfgInit => .next s
  | .cfgXorout => .next s
  | .cfgFlags => .next s
  | .ctxState _ => .next s
  | .ctxHash _ => .next s
  | .ctxResultBE _ => .next s
  | .ctxResultLen _ => .next s
  | .tableEntry _ => .next s

/-- What a host access is answered (20_memory.md R51, R52): the value of an admitted read, the
completion of an admitted write, BusError for every other access. -/
def State.answer (s : State) : Access → Response
  | .read addr n =>
    match s.admitted addr n with
    | some r => .data (s.readReg r)
    | none => .busError
  | .write addr n _ =>
    match s.admitted addr n with
    | some _ => .done
    | none => .busError

/-- The effect of a host access on the CRCU: none for a read and for an access that is not admitted
(20_memory.md R52, R53). -/
def accessEffect (a : Access) (s : State) : Outcome :=
  match a with
  | .read _ _ => .next s
  | .write addr n v =>
    match s.admitted addr n with
    | some r => writeReg r v s
    | none => .next s

/-- Serve one entry of the host's list in a state it has been taken from (20_memory.md R62). A reset
while a CMD write is stalled abandons the command and leaves the reset state
(70_reset_and_hazards.md R192). -/
def serve (e : HostEvent) (s : State) : Outcome :=
  match e with
  | .access a => accessEffect a (s.respond (s.answer a))
  | .reset => .next s.applyReset
  | .resetDuringCmd _ => .next (s.applyReset.respond .abandoned)

/-- The address of CMD: the host writes a command there (20_memory.md R57). -/
def State.cmdAddr (s : State) : Nat := s.base + Reg.cmd.offset

/-- The host access that issues the command word `w` (30_encoding.md R78). -/
def State.cmdWrite (s : State) (w : Word) : HostEvent := .access (.write s.cmdAddr 8 w)

end Sys2Proof.Machine
end

