-- ==== Sys2Proof/Machine/Step.lean ====
section
/-! DEFINITION. One step of the CRCU (20_memory.md R62; 70_reset_and_hazards.md R191, R211). -/

namespace Sys2Proof.Machine

/-- One step: the CRCU serves the oldest entry of the host's list, as one atomic step
(20_memory.md R56, R62); with none there it waits (70_reset_and_hazards.md R191). -/
def step (s : State) : Host.Outcome State Fault Refusal :=
  match s.pending with
  | [] => .next s
  | e :: rest => serve e { s with pending := rest }

/-- The state in which the host's next access writes the command word `w` to CMD, everything after it
as before: the CRCU fetches no instruction, the host hands it each one (20_memory.md R65; log 1). -/
def State.withFetchWord (s : State) (nbits w : Nat) : State :=
  { s with pending := s.cmdWrite (tableWord nbits w) :: s.pending }

end Sys2Proof.Machine
end

