-- ==== Sys2Proof/Machine/Assembler.lean ====
section
/-! DEFINITION. The assembler syntax of a host program, its pseudo-instructions, and the host accesses
each statement makes (30_encoding.md R78, R79). It is no part of the machine: it says which entries a
host program puts on the list `step` serves. What the spec leaves of the text is DESIGN CHOICE
(log 13). -/

namespace Sys2Proof.Machine

/-! ## Statements and their expansion -/

/-- A statement that is one bus access (30_encoding.md R78). Operands are numbers as written; the
assembler rejects those that do not fit. -/
inductive Basic where
  | nop
  | cfgCommit
  | errClr
  | ctxStart (c : Nat)
  | ctxFold (c b : Nat)
  | ctxFinal (c : Nat)
  | wr (r : Reg) (v : Nat)
  | rd (r : Reg)
  deriving DecidableEq, Repr

/-- A statement: one bus access, or a pseudo-instruction (30_encoding.md R79). -/
inductive Stmt where
  | basic (b : Basic)
  | cfgLoad (bits poly init refin refout xorout : Nat)
  | ctxFolds (c : Nat) (bytes : List Nat)
  | crc (c : Nat) (bytes : List Nat)
  | chk
  deriving DecidableEq, Repr

/-- The expansion of a statement (30_encoding.md R79). Operands are checked on the expansion alone, where
R78 states their ranges; R78 and R79 do not say whether a pseudo-instruction's operand is checked when
its expansion is empty, and here `CTX.FOLDS c, ""` with c above 255 is accepted, as no access
(DESIGN CHOICE, log 13). -/
def Stmt.expand : Stmt → List Basic
  | .basic b => [b]
  | .cfgLoad bits poly init refin refout xorout =>
    [.wr .stgBits bits, .wr .stgPoly poly, .wr .stgInit init, .wr .stgXorout xorout,
     .wr .stgFlags (refin + 2 * refout), .cfgCommit]
  | .ctxFolds c bytes => bytes.map (.ctxFold c)
  | .crc c bytes => .ctxStart c :: (bytes.map (.ctxFold c) ++ [.ctxFinal c])
  | .chk => [.rd .status]

/-- The command of a statement, none where an operand is outside 0 to 255 (30_encoding.md R78). -/
def Basic.command : Basic → Option Instr
  | .nop => some .nop
  | .cfgCommit => some .cfgCommit
  | .errClr => some .errClr
  | .ctxStart c => if c ≤ maxCtxOperand then some (.ctxStart c) else none
  | .ctxFold c b =>
    if c ≤ maxCtxOperand ∧ b ≤ 255 then some (.ctxFold c (BitVec.ofNat 8 b)) else none
  | .ctxFinal c => if c ≤ maxCtxOperand then some (.ctxFinal c) else none
  | .wr _ _ => none
  | .rd _ => none

/-- The host access of a statement for a window at `base`, none where the assembler rejects it
(30_encoding.md R78): a command writes its word to CMD; `WR` is an 8-byte write of a value that fits
8 bytes; `RD` an 8-byte read. -/
def Basic.access (base : Nat) : Basic → Option Access
  | .wr r v =>
    if v < 2 ^ 64 then some (.write (base + r.offset) 8 (BitVec.ofNat 64 v)) else none
  | .rd r => some (.read (base + r.offset) 8)
  | b => b.command.map fun i => .write (base + Reg.cmd.offset) 8 (encode i)

/-- The host accesses of a program, in order; none where the assembler rejects a statement. -/
def assemble (base : Nat) (program : List Stmt) : Option (List HostEvent) :=
  ((program.flatMap Stmt.expand).mapM (Basic.access base)).map fun l => l.map .access

/-! ## The text of a statement (R78) -/

/-- A piece of a line: a word, a character or a quoted text, or a comma. -/
inductive Token where
  | word (cs : List Char)
  | char (c : Char)
  | text (cs : List Char)
  | comma
  deriving DecidableEq, Repr

/-- The word collected so far, its characters last first, put before the other tokens. -/
def flushWord (rev : List Char) (rest : List Token) : List Token :=
  if rev.isEmpty then rest else .word rev.reverse :: rest

/-- Cut a line into tokens; `;` starts a comment (30_encoding.md R78). `quoted` is the text collected
inside double quotes, `rev` the word collected outside them, both last character first. R79 gives no way
to write a double quote inside a quoted text; here the next double quote always ends the text, so no
text holds one (DESIGN CHOICE, log 13). Outside a text, `'x'` is a character whatever x is. -/
def lex (quoted : Option (List Char)) (rev : List Char) : List Char → Option (List Token)
  | [] => if quoted.isSome then none else some (flushWord rev [])
  | '\'' :: x :: '\'' :: cs =>
    match quoted with
    | none => (lex none [] cs).map fun ts => flushWord rev (.char x :: ts)
    | some q => lex (some ('\'' :: q)) [] (x :: '\'' :: cs)
  | c :: cs =>
    match quoted with
    | some q =>
      if c = '"' then (lex none [] cs).map (.text q.reverse :: ·) else lex (some (c :: q)) [] cs
    | none =>
      if c = ';' then some (flushWord rev [])
      else if c = '"' then (lex (some []) [] cs).map (flushWord rev)
      else if c = ',' then (lex none [] cs).map fun ts => flushWord rev (.comma :: ts)
      else if c = ' ' ∨ c = '\t' then (lex none [] cs).map (flushWord rev)
      else lex none (c :: rev) cs

/-- The value of a digit in a base, none where it is no digit of it. -/
def digitValue (base : Nat) (c : Char) : Option Nat :=
  let v :=
    if '0' ≤ c ∧ c ≤ '9' then c.toNat - 48
    else if 'a' ≤ c ∧ c ≤ 'f' then c.toNat - 87
    else if 'A' ≤ c ∧ c ≤ 'F' then c.toNat - 55
    else base
  if v < base then some v else none

/-- A run of digits, where `_` only groups digits (00_scope.md R9). -/
def digitsValue (base acc : Nat) : List Char → Option Nat
  | [] => some acc
  | '_' :: cs => digitsValue base acc cs
  | c :: cs => (digitValue base c).bind fun v => digitsValue base (acc * base + v) cs

/-- A decimal or `0x` number (30_encoding.md R78). -/
def numberOf : List Char → Option Nat
  | '0' :: 'x' :: c :: cs => (digitValue 16 c).bind fun v => digitsValue 16 v cs
  | c :: cs => (digitValue 10 c).bind fun v => digitsValue 10 v cs
  | [] => none

/-- The ASCII code of a character (30_encoding.md R78, from general knowledge, log 18). -/
def asciiOf (c : Char) : Option Nat := if c.toNat < 128 then some c.toNat else none

/-- A number operand. -/
def Token.value : Token → Option Nat
  | .word cs => numberOf cs
  | .char c => asciiOf c
  | .text _ => none
  | .comma => none

/-- The fixed register names of 30_encoding.md R78. -/
def regNames : List (List Char × Reg) :=
  [ ("ID".toList, .id), ("STATUS".toList, .status), ("CMD".toList, .cmd),
    ("STG_BITS".toList, .stgBits), ("STG_POLY".toList, .stgPoly), ("STG_INIT".toList, .stgInit),
    ("STG_XOROUT".toList, .stgXorout), ("STG_FLAGS".toList, .stgFlags),
    ("CFG_BITS".toList, .cfgBits), ("CFG_POLY".toList, .cfgPoly), ("CFG_INIT".toList, .cfgInit),
    ("CFG_XOROUT".toList, .cfgXorout), ("CFG_FLAGS".toList, .cfgFlags) ]

/-- The fields of a context's window, as `CTXc.` names them (30_encoding.md R78). -/
def ctxRegNames (c : Nat) : List (List Char × Reg) :=
  [ ("STATE".toList, .ctxState c), ("HASH".toList, .ctxHash c),
    ("RESULT_BE".toList, .ctxResultBE c), ("RESULT_LEN".toList, .ctxResultLen c) ]

/-- `T[i]` for a table index (30_encoding.md R78), below 256 (DESIGN CHOICE, log 13). -/
def tableReg (i : Nat) : Option Reg := if h : i < 256 then some (.tableEntry ⟨i, h⟩) else none

/-- `CTXc.` and a field, for a context the map can have: R78 does not say what an assembler does with a
name of context c ≥ N_CTX. Here c is at most 7, the last context window 20_memory.md R52 and R58 name; a
c from N_CTX to 7 is accepted, and its access is answered BusError; a larger c, whose offset would fall
outside the context windows, is rejected (DESIGN CHOICE, log 13). -/
def ctxReg (c : Nat) (field : List Char) : Option Reg :=
  if c ≤ 7 then (ctxRegNames c).lookup field else none

/-- A register name (30_encoding.md R78); the numbers in it are spelled as any number is, and their
ranges are those of `ctxReg` and `tableReg` (DESIGN CHOICE, log 13). -/
def regOf (cs : List Char) : Option Reg :=
  match cs with
  | 'C' :: 'T' :: 'X' :: rest =>
    (numberOf (rest.takeWhile (· ≠ '.'))).bind fun c =>
      ctxReg c ((rest.dropWhile (· ≠ '.')).drop 1)
  | 'T' :: '[' :: rest =>
    if rest.getLast? = some ']' then (numberOf rest.dropLast).bind tableReg else none
  | _ => regNames.lookup cs

/-- The values of a comma-separated operand list. -/
def operands : List Token → Option (List Nat)
  | [t] => t.value.map ([·])
  | t :: .comma :: ts => t.value.bind fun v => (operands ts).map (v :: ·)
  | _ => none

/-- The bytes of CTX.FOLDS and CRC: one quoted text, an ASCII code for each character in order, or a
list of bytes (30_encoding.md R79). -/
def bytesOf : List Token → Option (List Nat)
  | [.text cs] => cs.mapM asciiOf
  | ts => operands ts

/-- The statement of a mnemonic whose operands are numbers (30_encoding.md R78, R79). -/
def stmtOf (m : List Char) (args : List Nat) : Option Stmt :=
  if m = "CTX.START".toList then (match args with | [c] => some (.basic (.ctxStart c)) | _ => none)
  else if m = "CTX.FOLD".toList then
    (match args with | [c, b] => some (.basic (.ctxFold c b)) | _ => none)
  else if m = "CTX.FINAL".toList then
    (match args with | [c] => some (.basic (.ctxFinal c)) | _ => none)
  else if m = "CFG.LOAD".toList then
    (match args with
     | [bits, poly, init, refin, refout, xorout] =>
       if refin ≤ 1 ∧ refout ≤ 1 then some (.cfgLoad bits poly init refin refout xorout) else none
     | _ => none)
  else none

/-- The statement of a mnemonic without operands (30_encoding.md R78, R79). -/
def bareStmtOf (m : List Char) : Option Stmt :=
  if m = "NOP".toList then some (.basic .nop)
  else if m = "CFG.COMMIT".toList then some (.basic .cfgCommit)
  else if m = "ERR.CLR".toList then some (.basic .errClr)
  else if m = "CHK".toList then some .chk
  else none

/-- `RD reg` and `WR reg, v` (30_encoding.md R78). -/
def busStmtOf (m : List Char) : List Token → Option Stmt
  | [.word r] => if m = "RD".toList then (regOf r).map fun r => .basic (.rd r) else none
  | [.word r, .comma, v] =>
    if m = "WR".toList then (regOf r).bind fun r => v.value.map fun v => .basic (.wr r v) else none
  | _ => none

/-- `CTX.FOLDS c, bytes` and `CRC c, bytes` (30_encoding.md R79). -/
def bytesStmtOf (m : List Char) : List Token → Option Stmt
  | c :: .comma :: bytes =>
    if m = "CTX.FOLDS".toList then c.value.bind fun c => (bytesOf bytes).map (.ctxFolds c)
    else if m = "CRC".toList then c.value.bind fun c => (bytesOf bytes).map (.crc c)
    else none
  | _ => none

/-- The statement of a line's tokens (30_encoding.md R78, R79). -/
def parseTokens : List Token → Option Stmt
  | [.word m] => bareStmtOf m
  | .word m :: args =>
    (busStmtOf m args).or ((bytesStmtOf m args).or ((operands args).bind (stmtOf m)))
  | _ => none

/-- A line of a host program: no statement for an empty or comment line, else its statement; none
where the line is no statement of the syntax (30_encoding.md R78). -/
def parseLine (line : List Char) : Option (List Stmt) :=
  (lex none [] line).bind fun ts => if ts.isEmpty then some [] else (parseTokens ts).map ([·])

/-- The host accesses of a program text, one statement a line (30_encoding.md R78, R79). -/
def assembleText (base : Nat) (lines : List (List Char)) : Option (List HostEvent) :=
  (lines.mapM parseLine).bind fun ss => assemble base ss.flatten

end Sys2Proof.Machine
end

