-- ==== Sys2Proof/Machine/Reference.lean ====
section
/-! DEFINITION. The whole computation as one function of a configuration and a byte sequence
(41_fold_engine.md R141), and the bit-serial CRC the spec compares it with (R145). Neither is part of
the machine: no step calls them; statements do (DESIGN CHOICE, log 20). -/

namespace Sys2Proof.Machine

/-- Fold a byte sequence, in stream order (41_fold_engine.md R126, R141). -/
def foldBytes (k : CrcConfig) (t : Table) (h : Word) (data : List Byte) : Word :=
  data.foldl (fold k t) h

/-- The numeric value of Compute: `Finalize(h)` after every byte is folded (41_fold_engine.md R141). -/
def computeHash (k : CrcConfig) (data : List Byte) : Word :=
  finalize k (foldBytes k k.makeTable (seed k) data)

/-- `Compute(data)`: the result bytes (41_fold_engine.md R141). -/
def compute (k : CrcConfig) (data : List Byte) : List Byte :=
  serialize (computeHash k data) k.bits.toNat

/-! ## The bit-serial CRC (R145) -/

/-- One bit of the bit-serial division: `fb <- r[bits-1] ^ d[i]`, then shift, mask, and subtract the
polynomial when `fb = 1` (R145). -/
def naiveBit (k : CrcConfig) (r : Word) (d : Bool) : Word :=
  let shifted := maskw (r <<< 1) k.bits.toNat
  if (r.getLsbD (k.bits.toNat - 1) ^^ d) = true then shifted ^^^ k.poly else shifted

/-- One byte: reflected first when `refin`, then bit 7 down to bit 0 (R145). -/
def naiveByte (k : CrcConfig) (r : Word) (b : Byte) : Word :=
  let d := if k.refin then reflect b.toWord 8 else b.toWord
  [7, 6, 5, 4, 3, 2, 1, 0].foldl (fun r i => naiveBit k r (d.getLsbD i)) r

/-- The numeric value of `NaiveCRC(data)` (R145). -/
def naiveHash (k : CrcConfig) (data : List Byte) : Word :=
  let r := data.foldl (naiveByte k) k.init
  let reflected := if k.refout then reflect r k.bits.toNat else r
  maskw (reflected ^^^ k.xorout) k.bits.toNat

/-- `NaiveCRC(data)`: its result bytes (R145). -/
def naiveCrc (k : CrcConfig) (data : List Byte) : List Byte :=
  serialize (naiveHash k data) k.bits.toNat

end Sys2Proof.Machine
end

