-- ==== Sys2Proof/Safety.lean ====
section
/-! DEFINITION. The terms claims are stated in: a valid configuration (40_config_table.md R92), the
invariant of the machine, what the next step does, and running a list of commands
(41_fold_engine.md R141). -/

namespace Sys2Proof.Machine

/-- `ValidConfig(nb, np, ni, nx)` of 40_config_table.md R92, the reflection flags being always valid. -/
abbrev CrcConfig.Valid (k : CrcConfig) : Prop :=
  1 ≤ k.bits.toNat ∧ k.bits.toNat ≤ 64 ∧ k.poly ≤ fullmask k.bits.toNat ∧
    k.init ≤ fullmask k.bits.toNat ∧ k.xorout ≤ fullmask k.bits.toNat

/-- What holds in every state the CRCU reaches; it rules out the states in which a meaning computes
with a width or a table that no commit left (log 14). -/
structure State.Inv (s : State) : Prop where
  /-- 1 ≤ N_CTX ≤ 8 (00_scope.md R7). -/
  nCtx_legal : 1 ≤ s.nCtx ∧ s.nCtx ≤ 8
  /-- BASE is 4096-byte aligned (20_memory.md R50). -/
  base_aligned : s.base % 4096 = 0
  /-- The committed configuration is valid (10_state.md R32). -/
  config_valid : s.cfgValid = true → s.cfg.Valid
  /-- Before the first successful CFG_COMMIT the CFG registers read 0 (10_state.md R30). -/
  config_zero : s.cfgValid = false → s.cfg = CrcConfig.zero
  /-- T is the table of the committed configuration (10_state.md R37). -/
  table_built : s.cfgValid = true → s.table = s.cfg.makeTable
  /-- Before the first successful CFG_COMMIT every entry holds 0 (10_state.md R36). -/
  table_zero : s.cfgValid = false → s.table = Table.zero
  /-- No fold starts before a configuration is committed (70_reset_and_hazards.md R193). -/
  ctxs_idle : s.cfgValid = false → ∀ x ∈ s.ctxs, x = Ctx.idle
  /-- A context becomes IDLE only with HASH 0 (10_state.md R34; 40_config_table.md R103). -/
  idle_hash : ∀ x ∈ s.ctxs, x.state = .idle → x.hash = 0
  /-- A result has no bit at position cfg.bits or above (41_fold_engine.md R139). -/
  done_fits : ∀ x ∈ s.ctxs, x.state = .done → x.hash ≤ fullmask s.cfg.bits.toNat
  /-- In the reflected modes HASH stays within cfg.bits bits (41_fold_engine.md R133). -/
  refl_fits : s.cfgValid = true → s.cfg.refin = true → ∀ x ∈ s.ctxs, x.hash ≤ fullmask s.cfg.bits.toNat
  /-- LAST_ERR holds an error code only while ERR_STICKY is 1 (10_state.md R24, R25). -/
  err_sticky : s.lastErr ≠ .ok → s.errSticky = true

/-! ## What the next step does -/

/-- The command word the next step issues: that of a CMD write at the head of the host's list. -/
def State.issuing (s : State) : Option Word :=
  match s.pending with
  | .access (.write addr n w) :: _ => if s.admitted addr n = some .cmd then some w else none
  | _ => none

/-- The register the next step writes: that of an admitted write at the head of the host's list. -/
def State.writing (s : State) : Option Reg :=
  match s.pending with
  | .access (.write addr n _) :: _ => s.admitted addr n
  | _ => none

/-- Whether the next step is a reset (70_reset_and_hazards.md R190, R192). -/
def State.resetting (s : State) : Bool :=
  match s.pending with
  | .reset :: _ => true
  | .resetDuringCmd _ :: _ => true
  | _ => false

/-- Whether the next step is a successful CFG_COMMIT (40_config_table.md R100). -/
abbrev State.committing (s : State) : Prop :=
  s.issuing = some 0x0000000001000000 ∧ s.stg.Valid

/-- The outcome code of issuing the word `w`, the priority list of 60_exceptions.md R161 with the
codes of R160 written out as numbers. -/
def reportedCode (w : Word) (s : State) : Byte :=
  match decode w with
  | .illegal _ => 0x01
  | .command .nop => 0x00
  | .command .errClr => 0x00
  | .command (.ctxStart c) =>
    if c ≥ s.nCtx then 0x02 else if s.cfgValid = false then 0x03 else 0x00
  | .command (.ctxFold c _) =>
    if c ≥ s.nCtx then 0x02 else if s.cfgValid = false then 0x03
    else if (s.ctx c).state ≠ .active then 0x04 else 0x00
  | .command (.ctxFinal c) =>
    if c ≥ s.nCtx then 0x02 else if s.cfgValid = false then 0x03
    else if (s.ctx c).state ≠ .active then 0x04 else 0x00
  | .command .cfgCommit =>
    if s.stg.bits.toNat < 1 ∨ s.stg.bits.toNat > 64 then 0x10
    else if s.stg.poly.toNat ≥ 2 ^ s.stg.bits.toNat then 0x11
    else if s.stg.init.toNat ≥ 2 ^ s.stg.bits.toNat then 0x12
    else if s.stg.xorout.toNat ≥ 2 ^ s.stg.bits.toNat then 0x13
    else 0x00

/-! ## Running commands -/

/-- Run commands one after another, each from the state the one before it left. -/
def runCommands : List Instr → State → Outcome
  | [], s => .next s
  | i :: rest, s =>
    match exec i s with
    | .next s' => runCommands rest s'
    | .fault r => .fault r
    | .refused r => .refused r

/-- Issue command words one after another, illegal ones included (20_memory.md R62). -/
def issueWords : List Word → State → Outcome
  | [], s => .next s
  | w :: rest, s =>
    match issue w s with
    | .next s' => issueWords rest s'
    | .fault r => .fault r
    | .refused r => .refused r

/-- The commands of one `compute` in context c (41_fold_engine.md R141; 30_encoding.md R79, CRC). -/
def computeCommands (c : Nat) (data : List Byte) : List Instr :=
  .ctxStart c :: (data.map (.ctxFold c) ++ [.ctxFinal c])

/-- The context a command names, if it names one (30_encoding.md R72). -/
def ctxOperand : Instr → Option Nat
  | .nop => none
  | .cfgCommit => none
  | .errClr => none
  | .ctxStart c => some c
  | .ctxFold c _ => some c
  | .ctxFinal c => some c

/-- The byte a command folds into context c, if it folds one there (41_fold_engine.md R126). -/
def foldedByte (c : Nat) : Instr → Option Byte
  | .ctxFold d b => if d = c then some b else none
  | .nop => none
  | .cfgCommit => none
  | .errClr => none
  | .ctxStart _ => none
  | .ctxFinal _ => none

/-- The byte that serving one entry of the host's list would fold into context c, if it is a CMD write
of a CTX_FOLD of c (41_fold_engine.md R126); admission reads N_CTX and BASE only, which no step
changes. -/
def State.byteFor (s : State) (c : Nat) : HostEvent → Option Byte
  | .access (.write addr n w) =>
    if s.admitted addr n = some .cmd then
      match decode w with
      | .command i => foldedByte c i
      | .illegal _ => none
    else none
  | .access (.read _ _) => none
  | .reset => none
  | .resetDuringCmd _ => none

/-- The next step neither starts nor finishes context c, nor ends every fold: it is no reset, no
CFG_COMMIT that succeeds, no CTX_START and no CTX_FINAL of c. Everything else may be next: a failed
CFG_COMMIT, an illegal word, a staging write, a read, a BusError, any command of another context. -/
def State.keepsFold (s : State) (c : Nat) : Prop :=
  s.resetting = false ∧ ¬ s.committing ∧
    ∀ w, s.issuing = some w → decode w ≠ .command (.ctxStart c) ∧ decode w ≠ .command (.ctxFinal c)

end Sys2Proof.Machine
end

