-- ==== Sys2Proof/Certificates/Slice0/Obligations.lean ====
section
/-! DEFINITION. The statements for the provers, in the order of OBLIGATIONS.json. Each docstring names
the rules of spec/ it formalises; a clause that rests on the model's own choice says so and names the
log entry. -/

open Sys2Proof Sys2Proof.Machine

/-! ## Encoding and decoding -/

/-- Decoding the word of a well-formed command gives the command back (30_encoding.md R70, R72, R76). -/
def Obligations.DecodeOfEncodeIsTheCommand : Prop :=
  ∀ i : Instr, i.wellFormed = true → decode (encode i) = .command i

/-- A word has at most one meaning: a word that decodes to a command is that command's encoding, and
the command is well formed (30_encoding.md R70, R74, R76). -/
def Obligations.EncodeOfDecodeIsTheWord : Prop :=
  ∀ (w : Word) (i : Instr), decode w = .command i → encode i = w ∧ i.wellFormed = true

/-- 30_encoding.md R77: W selects a command exactly when `(W & mask) = match`, no two rows select one
word, a word that matches no row is illegal, and the free fields are CTX = W[23:16] and
IMM8 = W[7:0]. -/
def Obligations.DecodeFollowsMatchAndMask : Prop :=
  ∀ w : Word,
    (∀ i, decode w = .command i →
      (∃ r ∈ opcodeRows, r.mnemonic = i.mnemonic ∧ w &&& r.mask = r.pattern ∧
        ∀ r' ∈ opcodeRows, w &&& r'.mask = r'.pattern → r' = r) ∧
      (∀ c, ctxOperand i = some c → c = w.toNat / 2 ^ 16 % 256) ∧
      ∀ c b, i = .ctxFold c b → b.toNat = w.toNat % 256) ∧
    (∀ r ∈ opcodeRows, w &&& r.mask = r.pattern →
      ∃ i, decode w = .command i ∧ i.mnemonic = r.mnemonic) ∧
    ((∀ r ∈ opcodeRows, w &&& r.mask ≠ r.pattern) → ∃ why, decode w = .illegal why)

/-- 30_encoding.md R75: which words are illegal, in the numbers of the fields; an illegal word raises
ILLEGAL_CMD and has no other effect; a CTX value of N_CTX or more decodes, and the command fails with
CTX_RANGE. -/
def Obligations.IllegalWordsRaiseIllegalCmdOnly : Prop :=
  ∀ (w : Word) (s : State) (hi opc ctx rsv imm : Nat),
    hi = w.toNat / 2 ^ 32 → opc = w.toNat / 2 ^ 24 % 256 → ctx = w.toNat / 2 ^ 16 % 256 →
    rsv = w.toNat / 2 ^ 8 % 256 → imm = w.toNat % 256 →
    ((∃ why, decode w = .illegal why) ↔
      hi ≠ 0 ∨ opc ∉ [0x00, 0x01, 0x02, 0x10, 0x11, 0x12] ∨ rsv ≠ 0 ∨
        (opc ∈ [0x00, 0x01, 0x02] ∧ ctx ≠ 0) ∨ (opc ≠ 0x11 ∧ imm ≠ 0)) ∧
    ((∃ why, decode w = .illegal why) →
      issue w s = .next { s with lastErr := .illegalCmd, errSticky := true }) ∧
    ((∃ i, decode w = .command i) → opc ∈ [0x10, 0x11, 0x12] → s.nCtx ≤ ctx →
      issue w s = .next { s with lastErr := .ctxRange, errSticky := true })

/-- The encoding examples of 30_encoding.md R80. -/
def Obligations.EncodingExamplesDecode : Prop :=
  decode 0x0000000000000000 = .command .nop ∧
  decode 0x0000000001000000 = .command .cfgCommit ∧
  decode 0x0000000002000000 = .command .errClr ∧
  decode 0x0000000010000000 = .command (.ctxStart 0) ∧
  decode 0x0000000011000031 = .command (.ctxFold 0 0x31) ∧
  decode 0x00000000110100FF = .command (.ctxFold 1 0xFF) ∧
  decode 0x0000000012030000 = .command (.ctxFinal 3) ∧
  (∃ why, decode 0x0000000013000000 = .illegal why) ∧
  (∃ why, decode 0x0000000000000001 = .illegal why) ∧
  (∃ why, decode 0x0000000110000000 = .illegal why)

/-- A step that serves a CMD write of a word that decodes to a command runs that command, on the state
without the served access and with the write's completion given to the host; so does a step from
`State.withFetchWord` (20_memory.md R62; 30_encoding.md R76; the host's list is the model's own,
log 1). -/
def Obligations.StepRunsTheDecodedCommand : Prop :=
  (∀ (s : State) (w : Word) (i : Instr) (rest : List HostEvent),
    s.pending = .access (.write (s.base + 0x010) 8 w) :: rest → decode w = .command i →
    step s = exec i { s with pending := rest, responses := s.responses ++ [.done] }) ∧
  ∀ (s : State) (w : Nat) (i : Instr), decodeTableWord 64 w = some i →
    step (s.withFetchWord 64 w) = exec i { s with responses := s.responses ++ [.done] }

/-! ## Bit primitives -/

/-- 00_scope.md R11: `reflect(v, n)` is the sum over i < n of v[i] * 2^(n-1-i); it is less than 2^n,
and the bits of v at n and above do not affect it. -/
def Obligations.ReflectReversesTheLowBits : Prop :=
  ∀ (v : Word) (n : Nat), 1 ≤ n → n ≤ 64 →
    (reflect v n).toNat = ((List.range n).map fun i => (v.getLsbD i).toNat * 2 ^ (n - 1 - i)).sum ∧
    (reflect v n).toNat < 2 ^ n ∧
    ∀ v' : Word, (∀ i < n, v'.getLsbD i = v.getLsbD i) → reflect v' n = reflect v n

/-- 00_scope.md R12: `maskw(v, n)` keeps the low n bits of v, is v itself at n = 64, and
`fullmask(n)` is the largest value that fits in n bits. -/
def Obligations.MaskwKeepsTheLowBits : Prop :=
  ∀ (v : Word) (n : Nat), 1 ≤ n → n ≤ 64 →
    (maskw v n).toNat = v.toNat % 2 ^ n ∧
    (n < 64 → maskw v n = v &&& ((1#64 <<< n) - 1#64)) ∧
    (n = 64 → maskw v n = v) ∧
    fullmask n = maskw 0xFFFFFFFFFFFFFFFF n ∧
    (v ≤ fullmask n ↔ v.toNat < 2 ^ n)

/-- 41_fold_engine.md R140: `Serialize(v, bits)` has ceil(bits / 8) bytes, byte k is
`(v >> (8 * (L - 1 - k))) & 0xFF`, and read most significant byte first they are the number v. In the
DONE state the sequence is RESULT_BE's bytes and its length RESULT_LEN. -/
def Obligations.SerializeIsBigEndian : Prop :=
  (∀ (v : Word) (bits : Nat), 1 ≤ bits → bits ≤ 64 → v ≤ fullmask bits →
    (serialize v bits).length = (bits + 7) / 8 ∧
    (∀ k < (bits + 7) / 8,
      ((serialize v bits).getD k 0).toNat = v.toNat / 2 ^ (8 * ((bits + 7) / 8 - 1 - k)) % 256) ∧
    (serialize v bits).foldl (fun a b => a * 256 + b.toNat) 0 = v.toNat) ∧
  ∀ (s : State) (c : Nat), (s.ctx c).state = .done → s.cfg.bits.toNat ≤ 64 →
    (s.readReg (.ctxResultLen c)).toNat = (serialize (s.ctx c).hash s.cfg.bits.toNat).length ∧
    ∀ k < (serialize (s.ctx c).hash s.cfg.bits.toNat).length,
      lane (s.readReg (.ctxResultBE c)) k = (serialize (s.ctx c).hash s.cfg.bits.toNat).getD k 0

/-! ## Registers the host reads -/

/-- 10_state.md R21: the fields of ID, and that reset does not change it. -/
def Obligations.IdIsTheBuildConstant : Prop :=
  (∀ s : State, s.nCtx ≤ 8 →
    (s.readReg .id).toNat = 0x43520007 + 0x100 * s.nCtx ∧
    (s.readReg .id).extractLsb' 0 8 = 0x07#8 ∧
    ((s.readReg .id).extractLsb' 8 8).toNat = s.nCtx ∧
    (s.readReg .id).extractLsb' 16 16 = 0x4352#16 ∧
    (s.readReg .id).extractLsb' 32 32 = 0#32) ∧
  (∀ s : State, s.applyReset.readReg .id = s.readReg .id) ∧
  (∀ s : State, s.nCtx = 2 → s.readReg .id = 0x0000000043520207)

/-- The fields of STATUS bit by bit (10_state.md R22, R26), with BYTE_MODE derived from the committed
width, and every reserved bit 0. -/
def Obligations.StatusFieldsReadAsSpecified : Prop :=
  ∀ s : State,
    (s.readReg .status).getLsbD 0 = s.cfgValid ∧
    (s.readReg .status).getLsbD 1 = s.errSticky ∧
    ((s.readReg .status).getLsbD 2 = true ↔ s.cfgValid = true ∧ 8 ≤ s.cfg.bits.toNat) ∧
    (∀ i, 3 ≤ i → i ≤ 7 → (s.readReg .status).getLsbD i = false) ∧
    (s.readReg .status).extractLsb' 8 8 = s.lastErr.code ∧
    ∀ i, 16 ≤ i → (s.readReg .status).getLsbD i = false

/-- 10_state.md R38 and R39: in the DONE state RESULT_LEN is ceil(bits / 8), byte k of RESULT_BE is
out[k] for k below it and 0 above, and the window's memory image at the register is the big-endian
sequence; when the state is not DONE both read 0. RESULT_LEN is never above 8 for a valid width. -/
def Obligations.ResultViewsPresentTheBytes : Prop :=
  ∀ (s : State) (c : Nat),
    ((s.ctx c).state = .done → 1 ≤ s.cfg.bits.toNat → s.cfg.bits.toNat ≤ 64 →
      ∀ (L : Nat) (out : List Byte), L = (s.cfg.bits.toNat + 7) / 8 →
        out = serialize (s.ctx c).hash s.cfg.bits.toNat →
        (s.readReg (.ctxResultLen c)).toNat = L ∧ L ≤ 8 ∧ out.length = L ∧
        (∀ k < L, lane (s.readReg (.ctxResultBE c)) k = out.getD k 0) ∧
        (∀ k, L ≤ k → k ≤ 7 → lane (s.readReg (.ctxResultBE c)) k = 0) ∧
        (c < s.nCtx → s.nCtx ≤ 8 →
          ∀ k < L, s.imageByte (s.base + 0x100 + 0x20 * c + 0x10 + k) = some (out.getD k 0))) ∧
    ((s.ctx c).state ≠ .done →
      s.readReg (.ctxResultBE c) = 0 ∧ s.readReg (.ctxResultLen c) = 0)

/-! ## The register window -/

/-- 20_memory.md R57 and R58: the map of the window. The register at an offset is the one whose offset
it is, the contexts' windows are mapped exactly for c < N_CTX, and every other offset is unmapped; no
two registers share an offset. -/
def Obligations.RegisterMapIsExact : Prop :=
  (∀ nCtx off : Nat, nCtx ≤ 8 → ∀ r : Reg,
    regAt nCtx off = some r ↔ r.present nCtx = true ∧ r.offset = off) ∧
  (∀ off : Nat, (0x018 ≤ off ∧ off ≤ 0x03F) ∨ (0x068 ≤ off ∧ off ≤ 0x07F) ∨
      (0x0A8 ≤ off ∧ off ≤ 0x0FF) ∨ (0x200 ≤ off ∧ off ≤ 0x7FF) ∨ 0x1000 ≤ off →
    ∀ nCtx, regAt nCtx off = none) ∧
  ∀ nCtx c off : Nat, nCtx ≤ c → 0x100 + 0x20 * c ≤ off → off ≤ 0x11F + 0x20 * c → off < 0x200 →
    regAt nCtx off = none

/-- 20_memory.md R51 and R52: an access is admitted exactly when it has size 8 and a mapped offset
that is a multiple of 8 in 0 to 0xFF8; an admitted read returns the register's value, an admitted write
has the effect of the register's access type; every other access to the window is answered BusError and
changes no state of the CRCU. (The host's list and the answers are the model's form of the bus,
log 1.) -/
def Obligations.OnlyAdmittedAccessesAreServed : Prop :=
  ∀ (s : State) (a : Access) (addr n : Nat) (rest : List HostEvent),
    s.nCtx ≤ 8 → s.pending = .access a :: rest →
    (a = .read addr n ∨ ∃ v, a = .write addr n v) →
    s.base ≤ addr → addr ≤ s.base + 0xFFF →
    (∀ r, n = 8 → addr - s.base ≤ 0xFF8 → (addr - s.base) % 8 = 0 →
      r.present s.nCtx = true → r.offset = addr - s.base →
      (a = .read addr n → step s =
        .next { s with pending := rest, responses := s.responses ++ [.data (s.readReg r)] }) ∧
      ∀ v, a = .write addr n v → step s =
        writeReg r v { s with pending := rest, responses := s.responses ++ [.done] }) ∧
    (¬ (n = 8 ∧ addr - s.base ≤ 0xFF8 ∧ (addr - s.base) % 8 = 0 ∧
        ∃ r : Reg, r.present s.nCtx = true ∧ r.offset = addr - s.base) →
      step s = .next { s with pending := rest, responses := s.responses ++ [.busError] })

/-- The model's choice, log 5: an access to an address outside the window is answered BusError too, and
changes no state of the CRCU (20_memory.md R52 says it of the window; 00_scope.md R15 of an access that
is not admitted). -/
def Obligations.AccessesOutsideTheWindowAreBusErrors : Prop :=
  ∀ (s : State) (a : Access) (addr n : Nat) (rest : List HostEvent),
    s.pending = .access a :: rest → (a = .read addr n ∨ ∃ v, a = .write addr n v) →
    addr < s.base ∨ s.base + 0xFFF < addr →
    step s = .next { s with pending := rest, responses := s.responses ++ [.busError] }

/-- 20_memory.md R53: a read has no effect; a write to a read-only register is ignored; a write to
STG_* stores the value (of STG_FLAGS, bits 1 and 0), a read returns it, and a write of the same value
again changes nothing more; CMD reads 0 and a write to it issues a command, each write one command. -/
def Obligations.RegistersFollowTheirAccessType : Prop :=
  (∀ (s : State) (addr n : Nat), accessEffect (.read addr n) s = .next s) ∧
  (∀ (s : State) (v : Word),
    (∀ r : Reg, r ∉ [.cmd, .stgBits, .stgPoly, .stgInit, .stgXorout, .stgFlags] →
      writeReg r v s = .next s) ∧
    (∀ r ∈ [Reg.stgBits, .stgPoly, .stgInit, .stgXorout],
      ∃ t, writeReg r v s = .next t ∧ t.readReg r = v ∧ writeReg r v t = .next t) ∧
    (∃ t, writeReg .stgFlags v s = .next t ∧ t.readReg .stgFlags = v &&& 3 ∧
      writeReg .stgFlags v t = .next t) ∧
    writeReg .cmd v s = issue v s ∧ s.readReg .cmd = 0) ∧
  ∃ (s t u : State) (v : Word), writeReg .cmd v s = .next t ∧ writeReg .cmd v t = .next u ∧ u ≠ t

/-- 10_state.md R28 and R29, 70_reset_and_hazards.md R201: a write to a staging register changes that
register and nothing else: no other register of the window, and so no committed configuration, table
entry, context or STATUS field. STG_FLAGS keeps bits 1 and 0 and its others read 0. -/
def Obligations.StagingWritesTouchOnlyTheirRegister : Prop :=
  ∀ (s t : State) (v : Word) (r : Reg),
    r ∈ [Reg.stgBits, .stgPoly, .stgInit, .stgXorout, .stgFlags] → writeReg r v s = .next t →
    (∀ r' : Reg, r' ≠ r → t.readReg r' = s.readReg r') ∧
    (t.base = s.base ∧ t.pending = s.pending ∧ t.responses = s.responses) ∧
    (t.cfg = s.cfg ∧ t.table = s.table ∧ t.ctxs = s.ctxs) ∧
    (r ≠ .stgFlags → t.readReg r = v) ∧
    (r = .stgFlags → (t.readReg r).getLsbD 0 = v.getLsbD 0 ∧ (t.readReg r).getLsbD 1 = v.getLsbD 1 ∧
      ∀ i, 2 ≤ i → (t.readReg r).getLsbD i = false)

/-- 20_memory.md R54: the byte at BASE + off + k is bits 8k+7 to 8k of the register at offset off. -/
def Obligations.BusLanesAreLittleEndian : Prop :=
  ∀ (s : State) (r : Reg) (k : Nat), s.nCtx ≤ 8 → r.present s.nCtx = true → k ≤ 7 →
    s.imageByte (s.base + r.offset + k) = some ((s.readReg r).extractLsb' (8 * k) 8)

/-- 20_memory.md R59: the table window is mapped in full in every state, and in bit mode a read of an
entry from 2 to 255 returns 0, not BusError. -/
def Obligations.TableWindowIsMappedInFull : Prop :=
  ∀ (s : State) (i : Fin 256) (rest : List HostEvent),
    s.pending = .access (.read (s.base + 0x800 + 8 * i.val) 8) :: rest →
    step s = .next { s with pending := rest, responses := s.responses ++ [.data s.table[i]] } ∧
    (s.Inv → s.cfg.bits.toNat < 8 → 2 ≤ i.val → s.table[i] = 0)

/-- 20_memory.md R62, over any number of accesses: they are served one at a time in the order issued,
each answered exactly once from the state its predecessors left, and serving the first ones and then
the others is serving all of them. -/
def Obligations.AccessesAreServedInIssueOrder : Prop :=
  ∀ (s : State) (first second : List Access),
    s.pending = (first ++ second).map .access →
    ∃ t u : State, Host.Core.run core first.length s = .next t ∧
      t.pending = second.map .access ∧
      Host.Core.run core second.length t = .next u ∧
      Host.Core.run core (first ++ second).length s = .next u ∧ u.pending = [] ∧
      (∃ answers, t.responses = s.responses ++ answers ∧ answers.length = first.length) ∧
      ∀ a more, second = a :: more → ∃ later, u.responses = t.responses ++ t.answer a :: later

/-! ## Control commands -/

/-- 42_control.md R150: NOP has the word 0, reports success, and changes nothing else, in every state;
with its opcode and any other field nonzero a word is illegal. -/
def Obligations.NopReportsSuccessOnly : Prop :=
  decode 0x0000000000000000 = .command .nop ∧
  ∀ s : State, exec .nop s = .next { s with lastErr := .ok } ∧
    (s.statusWord = 0x0000000000001002 →
      ({ s with lastErr := .ok } : State).statusWord = 0x0000000000000002) ∧
    ∀ w : Word, w ≠ 0 → w.toNat / 2 ^ 24 % 256 = 0 →
      issue w s = .next { s with lastErr := .illegalCmd, errSticky := true }

/-- 42_control.md R151: ERR_CLR clears ERR_STICKY and LAST_ERR and changes nothing else, in every
state; with its opcode and any other field nonzero a word is illegal. -/
def Obligations.ErrClrClearsTheStickyFlag : Prop :=
  decode 0x0000000002000000 = .command .errClr ∧
  ∀ s : State, exec .errClr s = .next { s with errSticky := false, lastErr := .ok } ∧
    (s.statusWord = 0x0000000000000403 →
      ({ s with errSticky := false, lastErr := .ok } : State).statusWord = 0x0000000000000001) ∧
    ∀ w : Word, w ≠ 0x0000000002000000 → w.toNat / 2 ^ 24 % 256 = 2 →
      issue w s = .next { s with lastErr := .illegalCmd, errSticky := true }

/-! ## Configuration and table -/

/-- 40_config_table.md R92: validation passes exactly for 1 ≤ bits ≤ 64 and poly, init and xorout
below 2^bits, whatever the flags. -/
def Obligations.ValidationAcceptsExactlyValidConfigurations : Prop :=
  ∀ k : CrcConfig,
    (validate k = none ↔ 1 ≤ k.bits.toNat ∧ k.bits.toNat ≤ 64 ∧ k.poly.toNat < 2 ^ k.bits.toNat ∧
      k.init.toNat < 2 ^ k.bits.toNat ∧ k.xorout.toNat < 2 ^ k.bits.toNat) ∧
    (validate k = none ↔ k.Valid) ∧
    ∀ f : BitVec 2, validate { k with flags := f } = validate k

/-- 40_config_table.md R100 to R103: CFG_COMMIT has the word 0x01000000. For a valid staged
configuration it copies the five staging registers, which keep their values, generates the table, sets
CFG_VALID, and makes every context IDLE with HASH 0. Else it raises the first failure in the order
bits, poly, init, xorout, and changes nothing but the two STATUS error fields. With its opcode and any
other field nonzero a word is illegal. -/
def Obligations.CfgCommitLatchesOrRaises : Prop :=
  decode 0x0000000001000000 = .command .cfgCommit ∧
  ∀ s : State,
    (s.stg.Valid → exec .cfgCommit s = .next
      { s with cfg := s.stg, table := generateTable s.stg.bits.toNat s.stg.poly s.stg.refin,
               cfgValid := true, ctxs := List.replicate s.nCtx ⟨.idle, 0⟩, lastErr := .ok }) ∧
    (s.stg.bits.toNat < 1 ∨ s.stg.bits.toNat > 64 →
      exec .cfgCommit s = .next { s with lastErr := .cfgBitsRange, errSticky := true }) ∧
    (1 ≤ s.stg.bits.toNat → s.stg.bits.toNat ≤ 64 →
      (s.stg.poly > fullmask s.stg.bits.toNat →
        exec .cfgCommit s = .next { s with lastErr := .cfgPolyWidth, errSticky := true }) ∧
      (s.stg.poly ≤ fullmask s.stg.bits.toNat →
        (s.stg.init > fullmask s.stg.bits.toNat →
          exec .cfgCommit s = .next { s with lastErr := .cfgInitWidth, errSticky := true }) ∧
        (s.stg.init ≤ fullmask s.stg.bits.toNat → s.stg.xorout > fullmask s.stg.bits.toNat →
          exec .cfgCommit s = .next { s with lastErr := .cfgXoroutWidth, errSticky := true }))) ∧
    ∀ w : Word, w ≠ 0x0000000001000000 → w.toNat / 2 ^ 24 % 256 = 1 →
      issue w s = .next { s with lastErr := .illegalCmd, errSticky := true }

/-- 40_config_table.md R107: the bits at position `bits` and above never reach a lower position in the
division steps, so masking the value before and between them changes no bit below. -/
def Obligations.DivisionStepsNeverMoveHighBitsDown : Prop :=
  ∀ (bits n : Nat) (poly v v' : Word), 1 ≤ bits → bits ≤ 64 →
    maskw v bits = maskw v' bits →
    maskw (divisionSteps (msbMask bits) poly n v) bits =
      maskw (divisionSteps (msbMask bits) poly n v') bits ∧
    maskw (divisionSteps (msbMask bits) poly n v) bits =
      (List.range n).foldl
        (fun r _ => maskw (if r.getLsbD (bits - 1) then (r <<< 1) ^^^ poly else r <<< 1) bits)
        (maskw v bits)

/-- 40_config_table.md R108: every entry of a generated table is at most fullmask(bits). -/
def Obligations.TableEntriesFitTheWidth : Prop :=
  ∀ (bits : Nat) (poly : Word) (refin : Bool) (i : Fin 256), 1 ≤ bits → bits ≤ 64 →
    (generateTable bits poly refin)[i] ≤ fullmask bits

/-- 40_config_table.md R112: the closed forms (a) to (e) of the table. -/
def Obligations.TableClosedForms : Prop :=
  ∀ (bits : Nat) (poly : Word) (refin : Bool), 1 ≤ bits → bits ≤ 64 → poly ≤ fullmask bits →
    (generateTable bits poly refin)[0] = 0 ∧
    (bits < 8 → (generateTable bits poly refin)[1] = if refin then reflect poly bits else poly) ∧
    (8 ≤ bits → refin = false → (generateTable bits poly refin)[1] = poly) ∧
    (8 ≤ bits → refin = true → (generateTable bits poly refin)[0x80] = reflect poly bits) ∧
    ∀ x y : Byte, x.toNat < tableSize bits → y.toNat < tableSize bits →
      (generateTable bits poly refin).lookup (x ^^^ y).toWord =
        (generateTable bits poly refin).lookup x.toWord ^^^
          (generateTable bits poly refin).lookup y.toWord

/-! ## The fold engine -/

/-- 41_fold_engine.md R120, R121 and R122: CTX_START in a context below N_CTX, once a configuration is
committed, seeds HASH with the initial value, reflected within the width when refin, and makes the
context ACTIVE, whatever its state was; it changes nothing else. It fails with CTX_RANGE or NO_CONFIG,
in that order, and then writes no context; with its opcode, a word whose HI, RSV or IMM8 is not 0 is
illegal. For a valid configuration the seed fits the width. -/
def Obligations.CtxStartSeedsTheContext : Prop :=
  ∀ (s : State) (c : Nat),
    (c < s.nCtx → s.cfgValid = true → exec (.ctxStart c) s = .next
      { s with
        ctxs := s.ctxs.set c
          ⟨.active, if s.cfg.refin then reflect s.cfg.init s.cfg.bits.toNat else s.cfg.init⟩
        lastErr := .ok }) ∧
    (s.nCtx ≤ c → exec (.ctxStart c) s = .next { s with lastErr := .ctxRange, errSticky := true }) ∧
    (c < s.nCtx → s.cfgValid = false →
      exec (.ctxStart c) s = .next { s with lastErr := .noConfig, errSticky := true }) ∧
    (s.cfg.Valid → seed s.cfg ≤ fullmask s.cfg.bits.toNat) ∧
    (c ≤ 255 → decode (0x10000000 + BitVec.ofNat 64 (0x10000 * c)) = .command (.ctxStart c)) ∧
    ∀ w : Word, w.toNat / 2 ^ 24 % 256 = 0x10 →
      w.toNat / 2 ^ 32 ≠ 0 ∨ w.toNat / 2 ^ 8 % 256 ≠ 0 ∨ w.toNat % 256 ≠ 0 →
      issue w s = .next { s with lastErr := .illegalCmd, errSticky := true }

/-- 41_fold_engine.md R124: CTX_FOLD in an ACTIVE context below N_CTX, under a committed
configuration, folds its byte into HASH and changes nothing else; no byte value causes an error. It
fails with CTX_RANGE, NO_CONFIG or CTX_STATE, in that order, and then folds nothing; with its opcode, a
word whose HI or RSV is not 0 is illegal. -/
def Obligations.CtxFoldFoldsOneByte : Prop :=
  ∀ (s : State) (c : Nat) (b : Byte),
    (c < s.nCtx → s.cfgValid = true → (s.ctx c).state = .active → exec (.ctxFold c b) s = .next
      { s with ctxs := s.ctxs.set c ⟨.active, fold s.cfg s.table (s.ctx c).hash b⟩, lastErr := .ok }) ∧
    (s.nCtx ≤ c → exec (.ctxFold c b) s = .next { s with lastErr := .ctxRange, errSticky := true }) ∧
    (c < s.nCtx → s.cfgValid = false →
      exec (.ctxFold c b) s = .next { s with lastErr := .noConfig, errSticky := true }) ∧
    (c < s.nCtx → s.cfgValid = true → (s.ctx c).state ≠ .active →
      exec (.ctxFold c b) s = .next { s with lastErr := .ctxState, errSticky := true }) ∧
    (c ≤ 255 →
      decode (0x11000000 + BitVec.ofNat 64 (0x10000 * c + b.toNat)) = .command (.ctxFold c b)) ∧
    ∀ w : Word, w.toNat / 2 ^ 24 % 256 = 0x11 → w.toNat / 2 ^ 32 ≠ 0 ∨ w.toNat / 2 ^ 8 % 256 ≠ 0 →
      issue w s = .next { s with lastErr := .illegalCmd, errSticky := true }

/-- 41_fold_engine.md R129 and R130: in byte mode one fold is one table lookup, reflected or not; the
index is below 256 (R127). In the reflected form the result fits the width when HASH and the entry
do. -/
def Obligations.ByteModeFoldIsOneLookup : Prop :=
  ∀ (s : State) (c : Nat) (b : Byte), c < s.nCtx → s.cfgValid = true → (s.ctx c).state = .active →
    8 ≤ s.cfg.bits.toNat → s.cfg.bits.toNat ≤ 64 →
    ∃ (i : Fin 256) (h : Word),
      exec (.ctxFold c b) s = .next { s with ctxs := s.ctxs.set c ⟨.active, h⟩, lastErr := .ok } ∧
      (s.cfg.refin = true →
        i.val = (((s.ctx c).hash &&& 0xFF) ^^^ b.toWord).toNat ∧
        h = ((s.ctx c).hash >>> 8) ^^^ s.readReg (.tableEntry i) ∧
        ((s.ctx c).hash ≤ fullmask s.cfg.bits.toNat →
          s.readReg (.tableEntry i) ≤ fullmask s.cfg.bits.toNat → h ≤ fullmask s.cfg.bits.toNat)) ∧
      (s.cfg.refin = false →
        i.val = ((((s.ctx c).hash >>> (s.cfg.bits.toNat - 8)) &&& 0xFF) ^^^ b.toWord).toNat ∧
        h = ((s.ctx c).hash <<< 8) ^^^ s.readReg (.tableEntry i))

/-- 41_fold_engine.md R131 and R132: in bit mode one fold is eight lookups of entry 0 or 1, bit i of
the byte at iteration i when refin, bit 7 - i when not (90_conflicts.md C2). -/
def Obligations.BitModeFoldIsEightLookups : Prop :=
  ∀ (s : State) (c : Nat) (b : Byte), c < s.nCtx → s.cfgValid = true → (s.ctx c).state = .active →
    s.cfg.bits.toNat < 8 →
    ∃ h : Nat → Word, h 0 = (s.ctx c).hash ∧
      exec (.ctxFold c b) s = .next { s with ctxs := s.ctxs.set c ⟨.active, h 8⟩, lastErr := .ok } ∧
      ∀ i < 8, ∃ x : Fin 256, x.val < 2 ∧
        (s.cfg.refin = true →
          x.val = ((h i &&& 1) ^^^ ((b.toWord >>> i) &&& 1)).toNat ∧
          h (i + 1) = (h i >>> 1) ^^^ s.readReg (.tableEntry x)) ∧
        (s.cfg.refin = false →
          x.val = (((h i >>> (s.cfg.bits.toNat - 1)) &&& 1) ^^^ ((b.toWord >>> (7 - i)) &&& 1)).toNat ∧
          h (i + 1) = (h i <<< 1) ^^^ s.readReg (.tableEntry x))

/-- 41_fold_engine.md R133: in the reflected modes HASH stays within the width from the seed through
every fold; in the non-reflected modes two values that agree on the low bits still agree on them after
a fold and give equal final results, and HASH can hold bits at the width and above. -/
def Obligations.AccumulatorRange : Prop :=
  (∀ k : CrcConfig, k.Valid → k.refin = true →
    seed k ≤ fullmask k.bits.toNat ∧
    ∀ (h : Word) (b : Byte), h ≤ fullmask k.bits.toNat →
      fold k k.makeTable h b ≤ fullmask k.bits.toNat) ∧
  (∀ k : CrcConfig, k.Valid → k.refin = false →
    ∀ h h' : Word, maskw h k.bits.toNat = maskw h' k.bits.toNat →
      finalize k h = finalize k h' ∧
      ∀ b : Byte, maskw (fold k k.makeTable h b) k.bits.toNat =
        maskw (fold k k.makeTable h' b) k.bits.toNat) ∧
  ∃ (k : CrcConfig) (h : Word) (b : Byte), k.Valid ∧ k.refin = false ∧ h ≤ fullmask k.bits.toNat ∧
    ¬ fold k k.makeTable h b ≤ fullmask k.bits.toNat

/-- 41_fold_engine.md R137, R138 and R139: CTX_FINAL in an ACTIVE context below N_CTX, under a
committed configuration, reflects HASH within the width exactly when refin and refout differ, XORs
xorout, masks to the width, and makes the context DONE; it changes nothing else, and the result fits
the width. It fails with CTX_RANGE, NO_CONFIG or CTX_STATE, in that order; with its opcode, a word whose
HI, RSV or IMM8 is not 0 is illegal. -/
def Obligations.CtxFinalFinishesTheFold : Prop :=
  ∀ (s : State) (c : Nat),
    (c < s.nCtx → s.cfgValid = true → (s.ctx c).state = .active → ∃ h : Word,
      exec (.ctxFinal c) s = .next { s with ctxs := s.ctxs.set c ⟨.done, h⟩, lastErr := .ok } ∧
      h = maskw ((if s.cfg.refin ≠ s.cfg.refout then reflect (s.ctx c).hash s.cfg.bits.toNat
        else (s.ctx c).hash) ^^^ s.cfg.xorout) s.cfg.bits.toNat ∧
      (1 ≤ s.cfg.bits.toNat → s.cfg.bits.toNat ≤ 64 → h ≤ fullmask s.cfg.bits.toNat)) ∧
    (s.nCtx ≤ c → exec (.ctxFinal c) s = .next { s with lastErr := .ctxRange, errSticky := true }) ∧
    (c < s.nCtx → s.cfgValid = false →
      exec (.ctxFinal c) s = .next { s with lastErr := .noConfig, errSticky := true }) ∧
    (c < s.nCtx → s.cfgValid = true → (s.ctx c).state ≠ .active →
      exec (.ctxFinal c) s = .next { s with lastErr := .ctxState, errSticky := true }) ∧
    (c ≤ 255 → decode (0x12000000 + BitVec.ofNat 64 (0x10000 * c)) = .command (.ctxFinal c)) ∧
    ∀ w : Word, w.toNat / 2 ^ 24 % 256 = 0x12 →
      w.toNat / 2 ^ 32 ≠ 0 ∨ w.toNat / 2 ^ 8 % 256 ≠ 0 ∨ w.toNat % 256 ≠ 0 →
      issue w s = .next { s with lastErr := .illegalCmd, errSticky := true }

/-- 41_fold_engine.md R126, and the chunk independence of R144, over any number of steps: whatever host
accesses come between (commands of other contexts, failed commits, illegal words, staging writes, reads
and BusErrors), as long as no step is a reset, a CFG_COMMIT that succeeds, or a CTX_START or CTX_FINAL of
the same context, an ACTIVE context folds exactly the bytes of its own CTX_FOLD commands, in their order;
a context that is not ACTIVE folds nothing and stays as it is. (The host's list is the model's form of
the bus, log 1.) -/
def Obligations.ContextFoldsItsOwnBytesInOrder : Prop :=
  ∀ (s : State) (c steps : Nat),
    (∀ j < steps, ∀ u : State, Host.Core.run core j s = .next u → u.keepsFold c) →
    ∃ t : State, Host.Core.run core steps s = .next t ∧
      (c < s.nCtx → s.cfgValid = true → (s.ctx c).state = .active →
        t.ctx c = ⟨.active, foldBytes s.cfg s.table (s.ctx c).hash
          ((s.pending.take steps).filterMap (s.byteFor c))⟩) ∧
      ((s.ctx c).state ≠ .active → t.ctx c = s.ctx c)

/-- 41_fold_engine.md R143: under equal committed configurations and their tables, equal byte sequences
give equal HASH values after every fold and equal results, in any contexts of any two machines, whatever
else their states hold. -/
def Obligations.EqualInputsGiveEqualResults : Prop :=
  ∀ (s s' : State) (c c' : Nat) (data : List Byte),
    c < s.nCtx → c' < s'.nCtx → s.cfgValid = true → s'.cfgValid = true →
    s.cfg = s'.cfg → s.table = s'.table →
    (∃ t t', runCommands (.ctxStart c :: data.map (.ctxFold c)) s = .next t ∧
      runCommands (.ctxStart c' :: data.map (.ctxFold c')) s' = .next t' ∧
      t.readReg (.ctxHash c) = t'.readReg (.ctxHash c')) ∧
    ∃ t t', runCommands (computeCommands c data) s = .next t ∧
      runCommands (computeCommands c' data) s' = .next t' ∧
      t.readReg (.ctxHash c) = t'.readReg (.ctxHash c') ∧
      t.readReg (.ctxResultBE c) = t'.readReg (.ctxResultBE c') ∧
      t.readReg (.ctxResultLen c) = t'.readReg (.ctxResultLen c')

/-- 41_fold_engine.md R141: START, one FOLD per byte and FINAL leave in HASH the numeric value of
Compute, and in RESULT_BE its bytes, on the committed configuration and its table; nothing but that
context and LAST_ERR changes. -/
def Obligations.CommandSequenceComputes : Prop :=
  ∀ (s : State) (c : Nat) (data : List Byte), c < s.nCtx → s.cfgValid = true → s.cfg.Valid →
    s.table = generateTable s.cfg.bits.toNat s.cfg.poly s.cfg.refin →
    ∃ t, runCommands (computeCommands c data) s = .next t ∧
      t = { s with ctxs := s.ctxs.set c ⟨.done, computeHash s.cfg data⟩, lastErr := .ok } ∧
      (compute s.cfg data).length = (s.cfg.bits.toNat + 7) / 8 ∧
      ∀ k < (compute s.cfg data).length,
        lane (t.readReg (.ctxResultBE c)) k = (compute s.cfg data).getD k 0

/-- 41_fold_engine.md R142: the result of the empty input depends on init, refout and xorout, whatever
refin is. -/
def Obligations.EmptyInputResult : Prop :=
  ∀ k : CrcConfig, k.Valid →
    compute k [] = serialize (finalize k (seed k)) k.bits.toNat ∧
    computeHash k [] =
      maskw ((if k.refout then reflect k.init k.bits.toNat else k.init) ^^^ k.xorout) k.bits.toNat

/-- 41_fold_engine.md R145: for every valid configuration and every input, the table-driven Compute
equals the bit-serial CRC. -/
def Obligations.TableDrivenEqualsBitSerial : Prop :=
  ∀ (k : CrcConfig) (data : List Byte), k.Valid → compute k data = naiveCrc k data

/-! ## Errors -/

/-- 60_exceptions.md R160, R161 and R163: every command word ends with exactly one outcome code in
LAST_ERR, the first cause in the order of R161; an error writes LAST_ERR and ERR_STICKY and nothing
else; a success leaves ERR_STICKY as it was, but for ERR_CLR. -/
def Obligations.FirstFailureIsReportedAndChangesNothingElse : Prop :=
  ∀ (w : Word) (s : State), ∃ t, issue w s = .next t ∧
    t.lastErr.code = reportedCode w s ∧
    (reportedCode w s ≠ 0x00 → t = { s with lastErr := t.lastErr, errSticky := true }) ∧
    (reportedCode w s = 0x00 → w ≠ 0x0000000002000000 → t.errSticky = s.errSticky) ∧
    (t.lastErr.code ∈ [0x00#8, 0x01#8, 0x02#8, 0x03#8, 0x04#8, 0x10#8, 0x11#8, 0x12#8, 0x13#8])

/-- 10_state.md R24: ERR_STICKY becomes 1 at every command that ends in an error, becomes 0 only at
ERR_CLR and at reset, and no other step changes it. -/
def Obligations.ErrStickyRecordsEveryError : Prop :=
  ∀ s t : State, step s = .next t →
    (∀ w, s.issuing = some w → reportedCode w s ≠ 0x00 → t.errSticky = true) ∧
    (s.errSticky = true → t.errSticky = false →
      s.resetting = true ∨ s.issuing = some 0x0000000002000000) ∧
    ((∀ w, s.issuing = some w → reportedCode w s = 0x00) → s.errSticky = false →
      t.errSticky = false) ∧
    (s.issuing = some 0x0000000002000000 → t.errSticky = false) ∧
    (s.resetting = true → t.errSticky = false)

/-- 10_state.md R25: LAST_ERR is written by every command with its outcome code, and by no other host
access, a BusError included. -/
def Obligations.LastErrIsTheLatestOutcome : Prop :=
  ∀ s t : State, step s = .next t →
    (∀ w, s.issuing = some w → t.lastErr.code = reportedCode w s) ∧
    (s.issuing = none → s.resetting = false → t.lastErr = s.lastErr)

/-- What the two error fields of STATUS do not do, and what ERR_STICKY tells of a batch
(60_exceptions.md R164, R165; 70_reset_and_hazards.md R204): a command's outcome and its effect on
everything but ERR_STICKY are the same whatever LAST_ERR and ERR_STICKY held; and after ERR_CLR and any
words other than ERR_CLR, ERR_STICKY is 1 exactly when one of them ended in an error. -/
def Obligations.ErrorsNeverInfluenceLaterCommands : Prop :=
  (∀ (w : Word) (s t t' : State) (e : ErrCode) (b : Bool),
    issue w s = .next t → issue w { s with lastErr := e, errSticky := b } = .next t' →
    t'.lastErr = t.lastErr ∧ { t' with errSticky := t.errSticky } = t) ∧
  ∀ (s : State) (words : List Word), (∀ w ∈ words, w ≠ 0x0000000002000000) →
    ∃ t u, exec .errClr s = .next t ∧ issueWords words t = .next u ∧
      (u.errSticky = true ↔ ∃ (before after : List Word) (w : Word) (v : State),
        words = before ++ w :: after ∧ issueWords before t = .next v ∧ reportedCode w v ≠ 0x00)

/-! ## Whole-machine rules -/

/-- 10_state.md R23: CFG_VALID is 0 after reset, becomes 1 when a CFG_COMMIT succeeds, is set back to 0
by no command, and a failed CFG_COMMIT leaves it as it was. -/
def Obligations.CfgValidIsSetByCommitOnly : Prop :=
  (∀ nCtx base : Nat, (State.resetOf nCtx base).cfgValid = false) ∧
  ∀ s t : State, step s = .next t →
    (s.committing → t.cfgValid = true) ∧
    (s.resetting = true → t.cfgValid = false) ∧
    (¬ s.committing → s.resetting = false → t.cfgValid = s.cfgValid)

/-- 10_state.md R33: a successful CFG_COMMIT replaces the committed configuration together with its
table, by the staged one and the table generated from it; no step but that and reset changes them. -/
def Obligations.OnlyCommitReplacesTheConfiguration : Prop :=
  ∀ s t : State, step s = .next t →
    (s.committing → t.cfg = s.stg ∧ t.table = s.stg.makeTable) ∧
    (¬ s.committing → s.resetting = false → t.cfg = s.cfg ∧ t.table = s.table)

/-- 10_state.md R34: ctx[c].STATE reads 0, 1 or 2, and changes only by CTX_START (to ACTIVE), by
CTX_FINAL (from ACTIVE to DONE), and by a successful CFG_COMMIT or reset (to IDLE). -/
def Obligations.ContextStateTransitions : Prop :=
  ∀ s t : State, step s = .next t → ∀ c < s.nCtx,
    (s.readReg (.ctxState c)).toNat ≤ 2 ∧
    ((t.ctx c).state ≠ (s.ctx c).state →
      ((s.resetting = true ∨ s.committing) ∧ t.readReg (.ctxState c) = 0) ∨
      ∃ w, s.issuing = some w ∧
        ((decode w = .command (.ctxStart c) ∧ t.readReg (.ctxState c) = 1) ∨
         (decode w = .command (.ctxFinal c) ∧ s.readReg (.ctxState c) = 1 ∧
          t.readReg (.ctxState c) = 2)))

/-- 20_memory.md R67: a command naming context c changes no other context and none of the committed
configuration, the table and the staging registers; its effect on context c and its outcome depend on
nothing but that context, CFG_VALID, the configuration and the table; and two commands of different
contexts can be run in either order. -/
def Obligations.ContextsAreIndependent : Prop :=
  (∀ (i : Instr) (c : Nat) (s t : State), ctxOperand i = some c → exec i s = .next t →
    (∀ d, d ≠ c → t.ctx d = s.ctx d) ∧ t.nCtx = s.nCtx ∧ t.cfgValid = s.cfgValid ∧
      t.cfg = s.cfg ∧ t.table = s.table ∧ t.stg = s.stg) ∧
  (∀ (i : Instr) (c : Nat) (s s' t t' : State), ctxOperand i = some c →
    s.nCtx = s'.nCtx → s.cfgValid = s'.cfgValid → s.cfg = s'.cfg → s.table = s'.table →
    s.ctx c = s'.ctx c → exec i s = .next t → exec i s' = .next t' →
    t.ctx c = t'.ctx c ∧ t.lastErr = t'.lastErr) ∧
  ∀ (i j : Instr) (c d : Nat) (s t t' : State), ctxOperand i = some c → ctxOperand j = some d →
    c ≠ d → runCommands [i, j] s = .next t → runCommands [j, i] s = .next t' → t.ctxs = t'.ctxs

/-- What each command leaves unchanged, in the terms of the window's bytes: every byte outside STATUS
and, for a context command, the window of its context; for CFG_COMMIT, outside STATUS, CFG_*, the
contexts' windows and the table (20_memory.md R67; 40_config_table.md R100; 42_control.md R150, R151).
The build's BASE and N_CTX, the host's list and its answers are unchanged too. -/
def Obligations.CommandFrames : Prop :=
  ∀ (i : Instr) (s t : State) (a : Nat), s.nCtx ≤ 8 → exec i s = .next t →
    (t.base = s.base ∧ t.nCtx = s.nCtx ∧ t.pending = s.pending ∧ t.responses = s.responses) ∧
    (¬ (s.base + 0x008 ≤ a ∧ a < s.base + 0x010) →
      (ctxOperand i = none → i ≠ .cfgCommit → t.imageByte a = s.imageByte a) ∧
      (∀ c, ctxOperand i = some c →
        ¬ (s.base + 0x100 + 0x20 * c ≤ a ∧ a < s.base + 0x120 + 0x20 * c) →
        t.imageByte a = s.imageByte a) ∧
      (i = .cfgCommit →
        ¬ (s.base + 0x080 ≤ a ∧ a < s.base + 0x0A8) → ¬ (s.base + 0x100 ≤ a ∧ a < s.base + 0x200) →
        ¬ (s.base + 0x800 ≤ a ∧ a < s.base + 0x1000) → t.imageByte a = s.imageByte a))

/-- 70_reset_and_hazards.md R200: a successful CFG_COMMIT ends every fold, and a fold or a finish of a
lost context then fails with CTX_STATE; a failed CFG_COMMIT ends nothing. -/
def Obligations.CommitEndsEveryFold : Prop :=
  ∀ s t : State, exec .cfgCommit s = .next t →
    (s.stg.Valid → ∀ c < s.nCtx,
      t.ctx c = ⟨.idle, 0⟩ ∧
      (∀ b, exec (.ctxFold c b) t = .next { t with lastErr := .ctxState, errSticky := true }) ∧
      exec (.ctxFinal c) t = .next { t with lastErr := .ctxState, errSticky := true }) ∧
    (¬ s.stg.Valid → t.ctxs = s.ctxs)

/-- 70_reset_and_hazards.md R205: a DONE context keeps HASH, RESULT_BE and RESULT_LEN until a CTX_START
on it, a successful CFG_COMMIT or reset; after one of those it is not DONE and the views read 0. -/
def Obligations.ResultStaysUntilDiscarded : Prop :=
  ∀ (s t : State) (c : Nat), step s = .next t → c < s.nCtx → (s.ctx c).state = .done →
    ((∀ w, s.issuing = some w → decode w ≠ .command (.ctxStart c)) → ¬ s.committing →
      s.resetting = false →
      t.readReg (.ctxHash c) = s.readReg (.ctxHash c) ∧
      t.readReg (.ctxResultBE c) = s.readReg (.ctxResultBE c) ∧
      t.readReg (.ctxResultLen c) = s.readReg (.ctxResultLen c)) ∧
    (s.resetting = true ∨ s.committing ∨
        (s.cfgValid = true ∧ ∃ w, s.issuing = some w ∧ decode w = .command (.ctxStart c)) →
      (t.ctx c).state ≠ .done ∧ t.readReg (.ctxResultBE c) = 0 ∧ t.readReg (.ctxResultLen c) = 0)

/-- Every step completes (70_reset_and_hazards.md R211). That a step takes one entry of the host's list,
and with an empty list leaves the state as it is, is the model's choice, log 1, on the ground of R191
("It waits for host bus accesses"). -/
def Obligations.EveryStepCompletes : Prop :=
  ∀ s : State, ∃ t, step s = .next t ∧ t.pending = s.pending.tail ∧
    (s.pending = [] → t = s)

/-! ## Reset -/

/-- 10_state.md R40: the values after reset, for every number of contexts and base address: ID is the
build constant, every other register reads 0, and every context is IDLE. -/
def Obligations.ResetValues : Prop :=
  ∀ nCtx base : Nat,
    (State.resetOf nCtx base).nCtx = nCtx ∧ (State.resetOf nCtx base).base = base ∧
    (nCtx ≤ 8 →
      ((State.resetOf nCtx base).readReg .id).toNat = 0x43520007 + 0x100 * nCtx) ∧
    (∀ r : Reg, r ≠ .id → (State.resetOf nCtx base).readReg r = 0) ∧
    (∀ c < nCtx, (State.resetOf nCtx base).ctx c = ⟨.idle, 0⟩) ∧
    exec .cfgCommit (State.resetOf nCtx base) =
      .next { State.resetOf nCtx base with lastErr := .cfgBitsRange, errSticky := true }

/-- 70_reset_and_hazards.md R192: a reset falls between two steps; asserted while a CMD write is
stalled, it abandons the command, the state is the reset state, and the write is not answered as a
success. (What is left of the host's list and answers is log 6.) -/
def Obligations.ResetAbandonsTheStalledCommand : Prop :=
  ∀ (s : State) (rest : List HostEvent),
    (s.pending = .reset :: rest → step s = .next
      { State.resetOf s.nCtx s.base with pending := rest, responses := s.responses }) ∧
    (∀ w, s.pending = .resetDuringCmd w :: rest → ∃ t, step s = .next t ∧
      t = { State.resetOf s.nCtx s.base with
            pending := rest, responses := s.responses ++ [.abandoned] } ∧
      (∀ r : Reg, r ≠ .id → t.readReg r = 0) ∧ t.readReg .id = s.readReg .id)

/-- 70_reset_and_hazards.md R193, as step lemmas. After reset, at power-up and at any later one,
CFG_VALID and STG_BITS are 0. STG_BITS stays 0 over every step but an admitted write to it, and in every
state where it is 0 a CFG_COMMIT, by its meaning and by its word, raises CFG_BITS_RANGE and changes
nothing else. CFG_VALID stays 0 over every step but a CFG_COMMIT that succeeds, and in every state where
it is 0 a context command of a context below N_CTX raises NO_CONFIG and changes nothing else (at N_CTX or
above it raises CTX_RANGE first, 60_exceptions.md R161). -/
def Obligations.NoConfigUntilACommitSucceeds : Prop :=
  (∀ nCtx base : Nat,
    (State.resetOf nCtx base).cfgValid = false ∧ (State.resetOf nCtx base).stg.bits = 0) ∧
  (∀ s t : State, step s = .next t → s.resetting = true → t.cfgValid = false ∧ t.stg.bits = 0) ∧
  (∀ s t : State, s.stg.bits = 0 → step s = .next t → s.writing ≠ some .stgBits → t.stg.bits = 0) ∧
  (∀ s : State, s.stg.bits = 0 →
    exec .cfgCommit s = .next { s with lastErr := .cfgBitsRange, errSticky := true } ∧
    issue 0x0000000001000000 s = .next { s with lastErr := .cfgBitsRange, errSticky := true }) ∧
  (∀ s t : State, s.cfgValid = false → step s = .next t → ¬ s.committing → t.cfgValid = false) ∧
  ∀ (s : State) (i : Instr) (c : Nat), s.cfgValid = false → ctxOperand i = some c → c < s.nCtx →
    exec i s = .next { s with lastErr := .noConfig, errSticky := true }

/-! ## The invariant -/

/-- The invariant holds after reset, for every legal N_CTX and BASE, and of `State.reset` itself (whose
N_CTX and BASE are the model's choice, logs 2 and 3). -/
def Obligations.InvariantHoldsAtReset : Prop :=
  (∀ nCtx base : Nat, 1 ≤ nCtx → nCtx ≤ 8 → base % 4096 = 0 → (State.resetOf nCtx base).Inv) ∧
  State.reset.Inv

/-- Every step keeps the invariant: the committed configuration stays valid (10_state.md R32) and the
table is its table (R37), before the first commit both are 0 (R30, R36) and every context is IDLE, a
result fits the width (41_fold_engine.md R139), HASH fits it in the reflected modes (R133), LAST_ERR
holds an error only while ERR_STICKY is 1, and N_CTX and BASE stay legal. -/
def Obligations.StepKeepsTheInvariant : Prop :=
  ∀ s t : State, s.Inv → step s = .next t → t.Inv

/-! ## Host programs -/

/-- 30_encoding.md R79: what the pseudo-instructions expand to, as host accesses; and an operand
outside 0 to 255 is rejected, while a context index of N_CTX or more is not (R78). -/
def Obligations.PseudoInstructionsExpand : Prop :=
  ∀ base : Nat,
    (∀ bits poly init xorout : Word, ∀ refin refout : Bool,
      assemble base [.cfgLoad bits.toNat poly.toNat init.toNat refin.toNat refout.toNat xorout.toNat] =
        some (([(0x040, bits), (0x048, poly), (0x050, init), (0x058, xorout),
          (0x060, BitVec.ofNat 64 (refin.toNat + 2 * refout.toNat)), (0x010, 0x0000000001000000)]
            : List (Nat × Word)).map fun p => .access (.write (base + p.1) 8 p.2))) ∧
    (∀ (c : Nat) (data : List Byte), c ≤ 255 →
      assemble base [.ctxFolds c (data.map (·.toNat))] =
        some (data.map fun b => .access
          (.write (base + 0x010) 8 (0x11000000 + BitVec.ofNat 64 (0x10000 * c + b.toNat)))) ∧
      assemble base [.crc c (data.map (·.toNat))] =
        assemble base [.basic (.ctxStart c), .ctxFolds c (data.map (·.toNat)), .basic (.ctxFinal c)] ∧
      (assemble base [.crc c (data.map (·.toNat))]).isSome = true) ∧
    assemble base [.chk] = some [.access (.read (base + 0x008) 8)] ∧
    ∀ c b : Nat, 255 < c → assemble base [.basic (.ctxStart c)] = none ∧
      assemble base [.basic (.ctxFinal c)] = none ∧ assemble base [.basic (.ctxFold c b)] = none ∧
      assemble base [.basic (.ctxFold b c)] = none

/-- The boot order of 70_reset_and_hazards.md R194 through the bus: from every state, a host that loads
a valid configuration, checks STATUS, runs one message in a context below N_CTX and reads HASH and
RESULT_LEN is answered: every write done, STATUS without an error in LAST_ERR and with CFG_VALID, and
the bit-serial CRC of the message with its length in bytes (41_fold_engine.md R141, R145). The program
is written with the pseudo-instructions of 30_encoding.md R79, by their expansion; that it stands in
`pending` and the answers come in `responses` is the model's form of the bus (DESIGN CHOICE, log 1). -/
def Obligations.HostProgramComputesTheCrc : Prop :=
  ∀ (s : State) (k : CrcConfig) (c : Nat) (data : List Byte) (events : List HostEvent),
    k.Valid → c < s.nCtx → s.nCtx ≤ 8 →
    assemble s.base
      [.cfgLoad k.bits.toNat k.poly.toNat k.init.toNat k.refin.toNat k.refout.toNat k.xorout.toNat, .chk,
       .crc c (data.map (·.toNat)), .basic (.rd (.ctxHash c)), .basic (.rd (.ctxResultLen c))] =
      some events →
    s.pending = events →
    ∃ (t : State) (status : Word), Host.Core.run core events.length s = .next t ∧
      t.responses = s.responses ++
        (List.replicate 6 .done ++ .data status :: List.replicate (data.length + 2) .done ++
          [.data (naiveHash k data), .data (BitVec.ofNat 64 ((k.bits.toNat + 7) / 8))]) ∧
      status.getLsbD 0 = true ∧ status.extractLsb' 8 8 = 0x00#8
end

