-- ==== Sys2Proof/Laws/Bits.lean ====
section
/-! SUPPORT. What `reflect`, `maskw`, `fullmask` and the byte lanes do, bit by bit and as numbers. -/

namespace Sys2Proof.Machine

/-! ## reflect -/

/-- Bit i of a reflection within n bits is bit n-1-i of the value. -/
theorem reflect_getLsbD {v : Word} {n i : Nat} (hn : n ≤ 64) :
    (reflect v n).getLsbD i = (decide (i < n) && v.getLsbD (n - 1 - i)) := by
  rw [reflect, BitVec.getLsbD_setWidth, BitVec.getLsbD_reverse, BitVec.getMsbD_eq_getLsbD,
    BitVec.getLsbD_setWidth]
  by_cases hi : i < n
  · simp [hi, show i < 64 by omega, show n - 1 - i < n by omega]
  · simp [hi]

/-- A reflection within n bits is less than 2^n. -/
theorem reflect_toNat_lt {v : Word} {n : Nat} (hn : n ≤ 64) : (reflect v n).toNat < 2 ^ n := by
  have h : 2 ^ n ≤ 2 ^ 64 := Nat.pow_le_pow_right (by norm_num) hn
  have h1 := ((v.setWidth n).reverse).isLt
  rw [reflect, BitVec.toNat_setWidth, Nat.mod_eq_of_lt (by omega)]
  exact h1

/-! ## maskw and fullmask -/

/-- `maskw(v, n)` keeps exactly the bits below n. -/
theorem maskw_getLsbD {v : Word} {n i : Nat} : (maskw v n).getLsbD i = (decide (i < n) && v.getLsbD i) := by
  unfold maskw
  split
  · next h =>
    rw [show ((1#64 <<< n) - 1#64) = BitVec.ofNat 64 (2 ^ n - 1) by
      apply BitVec.eq_of_toNat_eq
      have h1 : 2 ^ n < 2 ^ 64 := Nat.pow_lt_pow_right (by norm_num) h
      have h2 : 1 ≤ 2 ^ n := Nat.one_le_two_pow
      simp only [BitVec.toNat_sub, BitVec.toNat_shiftLeft, BitVec.toNat_ofNat, Nat.shiftLeft_eq]
      rw [Nat.mod_eq_of_lt (show 1 < 2 ^ 64 by norm_num), Nat.one_mul, Nat.mod_eq_of_lt h1]
      omega]
    simp only [BitVec.getLsbD_and, BitVec.getLsbD_ofNat, Nat.testBit_two_pow_sub_one]
    by_cases hi : i < n
    · simp [hi, show i < 64 by omega]
    · simp [hi]
  · next h =>
    by_cases hi : i < n
    · simp [hi]
    · simp [hi, BitVec.getLsbD_of_ge v i (by omega)]

/-- As a number, `maskw(v, n)` is the remainder by 2^n. -/
theorem maskw_toNat (v : Word) (n : Nat) : (maskw v n).toNat = v.toNat % 2 ^ n := by
  apply Nat.eq_of_testBit_eq
  intro i
  rw [Nat.testBit_mod_two_pow, ← BitVec.getLsbD, ← BitVec.getLsbD, maskw_getLsbD]

/-- `fullmask(n)` has exactly the bits below n set. -/
theorem fullmask_getLsbD {n i : Nat} : (fullmask n).getLsbD i = (decide (i < n) && decide (i < 64)) := by
  rw [fullmask, maskw_getLsbD]
  congr 1
  rw [show (0xFFFFFFFFFFFFFFFF : Word) = BitVec.allOnes 64 from rfl, BitVec.getLsbD_allOnes]

/-- `fullmask(n)` is 2^n - 1. -/
theorem fullmask_toNat {n : Nat} (hn : n ≤ 64) : (fullmask n).toNat = 2 ^ n - 1 := by
  have h : 2 ^ n ≤ 2 ^ 64 := Nat.pow_le_pow_right (by norm_num) hn
  have h2 : 1 ≤ 2 ^ n := Nat.one_le_two_pow
  have h3 : 2 ^ 64 = 2 ^ n * 2 ^ (64 - n) := by rw [← pow_add]; congr 1; omega
  have h4 : 1 ≤ 2 ^ (64 - n) := Nat.one_le_two_pow
  have h5 : 2 ^ 64 - 1 = (2 ^ n - 1) + 2 ^ n * (2 ^ (64 - n) - 1) := by
    rw [Nat.mul_sub, Nat.mul_one, ← h3]
    omega
  rw [fullmask, maskw_toNat, show (0xFFFFFFFFFFFFFFFF : Word).toNat = 2 ^ 64 - 1 by decide, h5,
    Nat.add_mul_mod_self_left, Nat.mod_eq_of_lt (by omega)]

/-- A value fits n bits exactly when it is less than 2^n. -/
theorem le_fullmask_iff {v : Word} {n : Nat} (hn : n ≤ 64) : v ≤ fullmask n ↔ v.toNat < 2 ^ n := by
  have h2 : 1 ≤ 2 ^ n := Nat.one_le_two_pow
  rw [BitVec.le_def, fullmask_toNat hn]
  omega

/-- A masked value fits. -/
theorem maskw_le_fullmask {v : Word} {n : Nat} (hn : n ≤ 64) : maskw v n ≤ fullmask n := by
  rw [le_fullmask_iff hn, maskw_toNat]
  exact Nat.mod_lt _ (by positivity)

/-- A value that fits is its own mask. -/
theorem maskw_of_fits {v : Word} {n : Nat} (hn : n ≤ 64) (h : v ≤ fullmask n) : maskw v n = v := by
  apply BitVec.eq_of_toNat_eq
  rw [maskw_toNat, Nat.mod_eq_of_lt ((le_fullmask_iff hn).mp h)]

/-- Two values have the same mask exactly when they agree on the bits below n. -/
theorem maskw_eq_iff {v w : Word} {n : Nat} :
    maskw v n = maskw w n ↔ ∀ i < n, v.getLsbD i = w.getLsbD i := by
  constructor
  · intro h i hi
    have := congrArg (fun x : Word => x.getLsbD i) h
    simpa [maskw_getLsbD, hi] using this
  · intro h
    apply BitVec.eq_of_getLsbD_eq
    intro i _
    simp only [maskw_getLsbD]
    by_cases hi : i < n
    · simp [hi, h i hi]
    · simp [hi]

/-- A value fits n bits exactly when its bits at n and above are 0. -/
theorem le_fullmask_iff_bits {v : Word} {n : Nat} (hn : n ≤ 64) :
    v ≤ fullmask n ↔ ∀ i, n ≤ i → v.getLsbD i = false := by
  constructor
  · intro h i hi
    have := maskw_of_fits hn h
    rw [← this, maskw_getLsbD]
    simp [show ¬ i < n by omega]
  · intro h
    have : maskw v n = v := by
      apply BitVec.eq_of_getLsbD_eq
      intro i _
      rw [maskw_getLsbD]
      by_cases hi : i < n
      · simp [hi]
      · simp [hi, h i (by omega)]
    rw [← this]
    exact maskw_le_fullmask hn

/-- A reflection fits. -/
theorem reflect_le_fullmask {v : Word} {n : Nat} (hn : n ≤ 64) : reflect v n ≤ fullmask n :=
  (le_fullmask_iff hn).mpr (reflect_toNat_lt hn)

/-- The exclusive or of two values that fit, fits. -/
theorem xor_le_fullmask {v w : Word} {n : Nat} (hn : n ≤ 64) (hv : v ≤ fullmask n)
    (hw : w ≤ fullmask n) : v ^^^ w ≤ fullmask n := by
  rw [le_fullmask_iff_bits hn] at *
  intro i hi
  simp [hv i hi, hw i hi]

/-- A value that fits still fits after a right shift. -/
theorem shiftRight_le_fullmask {v : Word} {n k : Nat} (hn : n ≤ 64) (hv : v ≤ fullmask n) :
    v >>> k ≤ fullmask n := by
  rw [le_fullmask_iff_bits hn] at *
  intro i hi
  simp [hv (k + i) (by omega)]

/-- Reflecting a value that fits twice gives it back. -/
theorem reflect_reflect {v : Word} {n : Nat} (hn : n ≤ 64) (h : v ≤ fullmask n) :
    reflect (reflect v n) n = v := by
  apply BitVec.eq_of_getLsbD_eq
  intro i _
  rw [reflect_getLsbD hn, reflect_getLsbD hn]
  by_cases hi : i < n
  · simp [hi, show n - 1 - i < n by omega, show n - 1 - (n - 1 - i) = i by omega]
  · simp [hi, (le_fullmask_iff_bits hn).mp h i (by omega)]

/-- Reflection distributes over exclusive or. -/
theorem reflect_xor {v w : Word} {n : Nat} (hn : n ≤ 64) :
    reflect (v ^^^ w) n = reflect v n ^^^ reflect w n := by
  apply BitVec.eq_of_getLsbD_eq
  intro i _
  rw [BitVec.getLsbD_xor, reflect_getLsbD hn, reflect_getLsbD hn, reflect_getLsbD hn, BitVec.getLsbD_xor]
  by_cases hi : i < n <;> simp [hi]

/-- Masking distributes over exclusive or. -/
theorem maskw_xor {v w : Word} {n : Nat} : maskw (v ^^^ w) n = maskw v n ^^^ maskw w n := by
  apply BitVec.eq_of_getLsbD_eq
  intro i _
  rw [BitVec.getLsbD_xor, maskw_getLsbD, maskw_getLsbD, maskw_getLsbD, BitVec.getLsbD_xor]
  by_cases hi : i < n <;> simp [hi]

/-- Reflection ignores the bits masked away. -/
theorem reflect_maskw {v : Word} {n : Nat} (hn : n ≤ 64) : reflect (maskw v n) n = reflect v n := by
  apply BitVec.eq_of_getLsbD_eq
  intro i _
  rw [reflect_getLsbD hn, reflect_getLsbD hn, maskw_getLsbD]
  by_cases hi : i < n
  · simp [hi, show n - 1 - i < n by omega]
  · simp [hi]

/-! ## Bytes -/

/-- The result has ceil(bits / 8) bytes. -/
@[simp] theorem serialize_length (v : Word) (bits : Nat) : (serialize v bits).length = resultLen bits := by
  simp [serialize]

/-- Byte k of a list of at most eight stands on lane k, and the lanes past its end are 0. -/
theorem wordOfLanes_lane (bytes : List Byte) (k : Nat) (hk : k ≤ 7) :
    lane (wordOfLanes bytes) k = bytes.getD k 0 := by
  induction bytes generalizing k with
  | nil => simp [wordOfLanes, lane]
  | cons b bs ih =>
    have e : wordOfLanes (b :: bs) = (wordOfLanes bs <<< 8) ||| b.toWord := rfl
    apply BitVec.eq_of_getLsbD_eq
    intro i hi
    cases k with
    | zero =>
      simp only [lane, e, Byte.toWord, BitVec.getLsbD_extractLsb', BitVec.getLsbD_or,
        BitVec.getLsbD_shiftLeft, BitVec.getLsbD_setWidth, List.getD_cons_zero]
      simp [hi, show i < 64 by omega]
    | succ k =>
      have hb : b.getLsbD (8 * (k + 1) + i) = false := BitVec.getLsbD_of_ge _ _ (by omega)
      have := congrArg (fun x : Byte => x.getLsbD i) (ih k (by omega))
      simp only [lane, BitVec.getLsbD_extractLsb', hi, decide_true, Bool.true_and] at this
      simp only [lane, e, Byte.toWord, BitVec.getLsbD_extractLsb', BitVec.getLsbD_or,
        BitVec.getLsbD_shiftLeft, BitVec.getLsbD_setWidth, List.getD_cons_succ, hb]
      simp only [hi, decide_true, Bool.true_and, Bool.and_false, Bool.or_false,
        show 8 * (k + 1) + i < 64 by omega, show ¬ 8 * (k + 1) + i < 8 by omega, decide_false,
        Bool.not_false, Bool.and_true, show 8 * (k + 1) + i - 8 = 8 * k + i by omega]
      exact this

end Sys2Proof.Machine
end

