-- ==== Sys2Proof/Laws/Decode.lean ====
section
/-! SUPPORT. The fields of a word as numbers, and the fields of an assembled word. -/

namespace Sys2Proof

/-! ## Fields as numbers -/

theorem hiField_toNat (w : Word) : (hiField w).toNat = w.toNat / 2 ^ 32 := by
  rw [hiField, BitVec.extractLsb'_toNat, Nat.shiftRight_eq_div_pow]
  have := w.isLt
  omega

theorem opcField_toNat (w : Word) : (opcField w).toNat = w.toNat / 2 ^ 24 % 256 := by
  rw [opcField, BitVec.extractLsb'_toNat, Nat.shiftRight_eq_div_pow]

theorem ctxField_toNat (w : Word) : (ctxField w).toNat = w.toNat / 2 ^ 16 % 256 := by
  rw [ctxField, BitVec.extractLsb'_toNat, Nat.shiftRight_eq_div_pow]

theorem rsvField_toNat (w : Word) : (rsvField w).toNat = w.toNat / 2 ^ 8 % 256 := by
  rw [rsvField, BitVec.extractLsb'_toNat, Nat.shiftRight_eq_div_pow]

theorem immField_toNat (w : Word) : (immField w).toNat = w.toNat % 256 := by
  rw [immField, BitVec.extractLsb'_toNat, Nat.shiftRight_eq_div_pow]
  simp

/-- A field is its number. -/
theorem byteField_eq_iff (x y : Byte) : x = y ↔ x.toNat = y.toNat := BitVec.toNat_inj.symm

/-! ## Fields of an assembled word -/

/-- The number of a word made of the three fields (30_encoding.md R70). -/
theorem wordOfFields_toNat (opc ctx imm : Byte) :
    (wordOfFields opc ctx imm).toNat = opc.toNat * 2 ^ 24 + ctx.toNat * 2 ^ 16 + imm.toNat := by
  have h1 := opc.isLt
  have h2 := ctx.isLt
  have h3 := imm.isLt
  simp only [wordOfFields, BitVec.toNat_append, BitVec.toNat_ofNat]
  rw [← Nat.shiftLeft_add_eq_or_of_lt h3, ← Nat.shiftLeft_add_eq_or_of_lt (show 0 % 2 ^ 8 < 2 ^ 8 by norm_num),
    ← Nat.shiftLeft_add_eq_or_of_lt h2, ← Nat.shiftLeft_add_eq_or_of_lt h1]
  simp only [Nat.shiftLeft_eq]
  omega

@[simp] theorem hiField_wordOfFields (opc ctx imm : Byte) : hiField (wordOfFields opc ctx imm) = 0 := by
  apply BitVec.eq_of_toNat_eq
  have h1 := opc.isLt
  have h2 := ctx.isLt
  have h3 := imm.isLt
  rw [hiField_toNat, wordOfFields_toNat]
  change _ = 0
  omega

@[simp] theorem opcField_wordOfFields (opc ctx imm : Byte) : opcField (wordOfFields opc ctx imm) = opc := by
  apply BitVec.eq_of_toNat_eq
  have h1 := opc.isLt
  have h2 := ctx.isLt
  have h3 := imm.isLt
  rw [opcField_toNat, wordOfFields_toNat]
  omega

@[simp] theorem ctxField_wordOfFields (opc ctx imm : Byte) : ctxField (wordOfFields opc ctx imm) = ctx := by
  apply BitVec.eq_of_toNat_eq
  have h2 := ctx.isLt
  have h3 := imm.isLt
  rw [ctxField_toNat, wordOfFields_toNat]
  omega

@[simp] theorem rsvField_wordOfFields (opc ctx imm : Byte) : rsvField (wordOfFields opc ctx imm) = 0 := by
  apply BitVec.eq_of_toNat_eq
  have h3 := imm.isLt
  rw [rsvField_toNat, wordOfFields_toNat]
  change _ = 0
  omega

@[simp] theorem immField_wordOfFields (opc ctx imm : Byte) : immField (wordOfFields opc ctx imm) = imm := by
  apply BitVec.eq_of_toNat_eq
  have h3 := imm.isLt
  rw [immField_toNat, wordOfFields_toNat]
  omega

/-- A word is the assembly of its fields when HI and RSV are 0. -/
theorem wordOfFields_fields {w : Word} (hh : hiField w = 0) (hr : rsvField w = 0) :
    wordOfFields (opcField w) (ctxField w) (immField w) = w := by
  apply BitVec.eq_of_toNat_eq
  have h1 := congrArg BitVec.toNat hh
  have h2 := congrArg BitVec.toNat hr
  rw [hiField_toNat] at h1
  rw [rsvField_toNat] at h2
  change w.toNat / 2 ^ 32 = 0 at h1
  change w.toNat / 2 ^ 8 % 256 = 0 at h2
  rw [wordOfFields_toNat, opcField_toNat, ctxField_toNat, immField_toNat]
  omega

/-! ## Well-formed commands -/

@[simp] theorem wellFormed_ctxStart (c : Nat) : (Instr.ctxStart c).wellFormed = true ↔ c ≤ 255 := by
  simp only [Instr.wellFormed, decide_eq_true_eq]

@[simp] theorem wellFormed_ctxFold (c : Nat) (b : Byte) :
    (Instr.ctxFold c b).wellFormed = true ↔ c ≤ 255 := by
  simp only [Instr.wellFormed, decide_eq_true_eq]

@[simp] theorem wellFormed_ctxFinal (c : Nat) : (Instr.ctxFinal c).wellFormed = true ↔ c ≤ 255 := by
  simp only [Instr.wellFormed, decide_eq_true_eq]

/-! ## Decoding, outcome by outcome -/

/-- The fields of a word that decodes to a command without operands. -/
theorem decodeNoOperand_command {w : Word} {i j : Instr} (h : decodeNoOperand w i = .command j) :
    ctxField w = 0 ∧ immField w = 0 ∧ j = i := by
  unfold decodeNoOperand at h
  split at h
  · simp at h
  · split at h
    · simp at h
    · simp only [Decoded.command.injEq] at h
      simp_all

/-- The fields of a word that decodes to a command of one context operand. -/
theorem decodeCtxOperand_command {w : Word} {i : Nat → Instr} {j : Instr}
    (h : decodeCtxOperand w i = .command j) : immField w = 0 ∧ j = i (ctxField w).toNat := by
  unfold decodeCtxOperand at h
  split at h
  · simp at h
  · simp only [Decoded.command.injEq] at h
    simp_all

/-- Everything a word that decodes to a command can be (30_encoding.md R76). -/
theorem decode_cases {w : Word} {i : Instr} (h : decode w = .command i) :
    hiField w = 0 ∧ rsvField w = 0 ∧
    ((i = .nop ∧ opcField w = 0x00 ∧ ctxField w = 0 ∧ immField w = 0) ∨
     (i = .cfgCommit ∧ opcField w = 0x01 ∧ ctxField w = 0 ∧ immField w = 0) ∨
     (i = .errClr ∧ opcField w = 0x02 ∧ ctxField w = 0 ∧ immField w = 0) ∨
     (i = .ctxStart (ctxField w).toNat ∧ opcField w = 0x10 ∧ immField w = 0) ∨
     (i = .ctxFold (ctxField w).toNat (immField w) ∧ opcField w = 0x11) ∨
     (i = .ctxFinal (ctxField w).toNat ∧ opcField w = 0x12 ∧ immField w = 0)) := by
  unfold decode at h
  split at h
  · simp at h
  next hh =>
  split at h
  · simp at h
  next hr =>
  refine ⟨by simpa using hh, by simpa using hr, ?_⟩
  split at h
  next ho =>
    obtain ⟨h1, h2, rfl⟩ := decodeNoOperand_command h
    exact .inl ⟨rfl, ho, h1, h2⟩
  split at h
  next ho =>
    obtain ⟨h1, h2, rfl⟩ := decodeNoOperand_command h
    exact .inr (.inl ⟨rfl, ho, h1, h2⟩)
  split at h
  next ho =>
    obtain ⟨h1, h2, rfl⟩ := decodeNoOperand_command h
    exact .inr (.inr (.inl ⟨rfl, ho, h1, h2⟩))
  split at h
  next ho =>
    obtain ⟨h2, rfl⟩ := decodeCtxOperand_command h
    exact .inr (.inr (.inr (.inl ⟨rfl, ho, h2⟩)))
  split at h
  next ho =>
    simp only [Decoded.command.injEq] at h
    exact .inr (.inr (.inr (.inr (.inl ⟨h.symm, ho⟩))))
  split at h
  next ho =>
    obtain ⟨h2, rfl⟩ := decodeCtxOperand_command h
    exact .inr (.inr (.inr (.inr (.inr ⟨rfl, ho, h2⟩))))
  · simp at h

end Sys2Proof
end

