-- ==== Sys2Proof/Laws/State.lean ====
section
/-! SUPPORT. One lemma for each field under each named update of State, so that no later proof unfolds
a record update; and the small facts about `nCtx` and `ctx` under them. -/

namespace Sys2Proof.Machine

/-! ## raiseError -/

@[simp] theorem raiseError_base (code : ErrCode) (s : State) : (raiseError code s).base = s.base := rfl
@[simp] theorem raiseError_cfgValid (code : ErrCode) (s : State) : (raiseError code s).cfgValid = s.cfgValid := rfl
@[simp] theorem raiseError_errSticky (code : ErrCode) (s : State) : (raiseError code s).errSticky = true := rfl
@[simp] theorem raiseError_lastErr (code : ErrCode) (s : State) : (raiseError code s).lastErr = code := rfl
@[simp] theorem raiseError_stg (code : ErrCode) (s : State) : (raiseError code s).stg = s.stg := rfl
@[simp] theorem raiseError_cfg (code : ErrCode) (s : State) : (raiseError code s).cfg = s.cfg := rfl
@[simp] theorem raiseError_table (code : ErrCode) (s : State) : (raiseError code s).table = s.table := rfl
@[simp] theorem raiseError_ctxs (code : ErrCode) (s : State) : (raiseError code s).ctxs = s.ctxs := rfl
@[simp] theorem raiseError_pending (code : ErrCode) (s : State) : (raiseError code s).pending = s.pending := rfl
@[simp] theorem raiseError_responses (code : ErrCode) (s : State) : (raiseError code s).responses = s.responses := rfl

/-! ## complete -/

@[simp] theorem complete_base (s : State) : (complete s).base = s.base := rfl
@[simp] theorem complete_cfgValid (s : State) : (complete s).cfgValid = s.cfgValid := rfl
@[simp] theorem complete_errSticky (s : State) : (complete s).errSticky = s.errSticky := rfl
@[simp] theorem complete_lastErr (s : State) : (complete s).lastErr = .ok := rfl
@[simp] theorem complete_stg (s : State) : (complete s).stg = s.stg := rfl
@[simp] theorem complete_cfg (s : State) : (complete s).cfg = s.cfg := rfl
@[simp] theorem complete_table (s : State) : (complete s).table = s.table := rfl
@[simp] theorem complete_ctxs (s : State) : (complete s).ctxs = s.ctxs := rfl
@[simp] theorem complete_pending (s : State) : (complete s).pending = s.pending := rfl
@[simp] theorem complete_responses (s : State) : (complete s).responses = s.responses := rfl

/-! ## setCtx -/

@[simp] theorem setCtx_base (s : State) (c : Nat) (x : Ctx) : (s.setCtx c x).base = s.base := rfl
@[simp] theorem setCtx_cfgValid (s : State) (c : Nat) (x : Ctx) : (s.setCtx c x).cfgValid = s.cfgValid := rfl
@[simp] theorem setCtx_errSticky (s : State) (c : Nat) (x : Ctx) : (s.setCtx c x).errSticky = s.errSticky := rfl
@[simp] theorem setCtx_lastErr (s : State) (c : Nat) (x : Ctx) : (s.setCtx c x).lastErr = s.lastErr := rfl
@[simp] theorem setCtx_stg (s : State) (c : Nat) (x : Ctx) : (s.setCtx c x).stg = s.stg := rfl
@[simp] theorem setCtx_cfg (s : State) (c : Nat) (x : Ctx) : (s.setCtx c x).cfg = s.cfg := rfl
@[simp] theorem setCtx_table (s : State) (c : Nat) (x : Ctx) : (s.setCtx c x).table = s.table := rfl
@[simp] theorem setCtx_ctxs (s : State) (c : Nat) (x : Ctx) : (s.setCtx c x).ctxs = s.ctxs.set c x := rfl
@[simp] theorem setCtx_pending (s : State) (c : Nat) (x : Ctx) : (s.setCtx c x).pending = s.pending := rfl
@[simp] theorem setCtx_responses (s : State) (c : Nat) (x : Ctx) : (s.setCtx c x).responses = s.responses := rfl

/-! ## respond -/

@[simp] theorem respond_base (s : State) (r : Response) : (s.respond r).base = s.base := rfl
@[simp] theorem respond_cfgValid (s : State) (r : Response) : (s.respond r).cfgValid = s.cfgValid := rfl
@[simp] theorem respond_errSticky (s : State) (r : Response) : (s.respond r).errSticky = s.errSticky := rfl
@[simp] theorem respond_lastErr (s : State) (r : Response) : (s.respond r).lastErr = s.lastErr := rfl
@[simp] theorem respond_stg (s : State) (r : Response) : (s.respond r).stg = s.stg := rfl
@[simp] theorem respond_cfg (s : State) (r : Response) : (s.respond r).cfg = s.cfg := rfl
@[simp] theorem respond_table (s : State) (r : Response) : (s.respond r).table = s.table := rfl
@[simp] theorem respond_ctxs (s : State) (r : Response) : (s.respond r).ctxs = s.ctxs := rfl
@[simp] theorem respond_pending (s : State) (r : Response) : (s.respond r).pending = s.pending := rfl
@[simp] theorem respond_responses (s : State) (r : Response) : (s.respond r).responses = s.responses ++ [r] := rfl

/-! ## applyReset -/

@[simp] theorem applyReset_base (s : State) : (s.applyReset).base = s.base := rfl
@[simp] theorem applyReset_cfgValid (s : State) : (s.applyReset).cfgValid = false := rfl
@[simp] theorem applyReset_errSticky (s : State) : (s.applyReset).errSticky = false := rfl
@[simp] theorem applyReset_lastErr (s : State) : (s.applyReset).lastErr = .ok := rfl
@[simp] theorem applyReset_stg (s : State) : (s.applyReset).stg = CrcConfig.zero := rfl
@[simp] theorem applyReset_cfg (s : State) : (s.applyReset).cfg = CrcConfig.zero := rfl
@[simp] theorem applyReset_table (s : State) : (s.applyReset).table = Table.zero := rfl
@[simp] theorem applyReset_ctxs (s : State) : (s.applyReset).ctxs = List.replicate s.nCtx Ctx.idle := rfl
@[simp] theorem applyReset_pending (s : State) : (s.applyReset).pending = s.pending := rfl
@[simp] theorem applyReset_responses (s : State) : (s.applyReset).responses = s.responses := rfl

/-! ## latchConfig -/

@[simp] theorem latchConfig_base (s : State) : (latchConfig s).base = s.base := rfl
@[simp] theorem latchConfig_cfgValid (s : State) : (latchConfig s).cfgValid = true := rfl
@[simp] theorem latchConfig_errSticky (s : State) : (latchConfig s).errSticky = s.errSticky := rfl
@[simp] theorem latchConfig_lastErr (s : State) : (latchConfig s).lastErr = s.lastErr := rfl
@[simp] theorem latchConfig_stg (s : State) : (latchConfig s).stg = s.stg := rfl
@[simp] theorem latchConfig_cfg (s : State) : (latchConfig s).cfg = s.stg := rfl
@[simp] theorem latchConfig_table (s : State) : (latchConfig s).table = s.stg.makeTable := rfl
@[simp] theorem latchConfig_ctxs (s : State) : (latchConfig s).ctxs = List.replicate s.nCtx Ctx.idle := rfl
@[simp] theorem latchConfig_pending (s : State) : (latchConfig s).pending = s.pending := rfl
@[simp] theorem latchConfig_responses (s : State) : (latchConfig s).responses = s.responses := rfl

/-! ## N_CTX -/

@[simp] theorem raiseError_nCtx (code : ErrCode) (s : State) : (raiseError code s).nCtx = s.nCtx := rfl
@[simp] theorem complete_nCtx (s : State) : (complete s).nCtx = s.nCtx := rfl
@[simp] theorem respond_nCtx (s : State) (r : Response) : (s.respond r).nCtx = s.nCtx := rfl
@[simp] theorem setCtx_nCtx (s : State) (c : Nat) (x : Ctx) : (s.setCtx c x).nCtx = s.nCtx := by
  simp [State.nCtx]
@[simp] theorem applyReset_nCtx (s : State) : s.applyReset.nCtx = s.nCtx := by
  simp [State.nCtx]
@[simp] theorem latchConfig_nCtx (s : State) : (latchConfig s).nCtx = s.nCtx := by
  simp [State.nCtx]
@[simp] theorem resetOf_nCtx (nCtx base : Nat) : (State.resetOf nCtx base).nCtx = nCtx := by
  simp [State.resetOf, State.nCtx]

/-! ## Contexts -/

theorem ctx_congr {s t : State} (h : s.ctxs = t.ctxs) (c : Nat) : s.ctx c = t.ctx c := by
  simp [State.ctx, h]

@[simp] theorem raiseError_ctx (code : ErrCode) (s : State) (c : Nat) :
    (raiseError code s).ctx c = s.ctx c := rfl
@[simp] theorem complete_ctx (s : State) (c : Nat) : (complete s).ctx c = s.ctx c := rfl
@[simp] theorem respond_ctx (s : State) (r : Response) (c : Nat) : (s.respond r).ctx c = s.ctx c := rfl

/-- Writing a context below N_CTX and reading it back. -/
theorem setCtx_ctx_self {s : State} {c : Nat} (h : c < s.nCtx) (x : Ctx) : (s.setCtx c x).ctx c = x := by
  have h' : c < s.ctxs.length := h
  simp [State.ctx, h']

/-- Writing one context leaves every other alone. -/
theorem setCtx_ctx_other {c d : Nat} (h : d ≠ c) (s : State) (x : Ctx) :
    (s.setCtx c x).ctx d = s.ctx d := by
  simp [State.ctx, List.getElem?_set_ne (Ne.symm h)]

/-- Every context of a list of idle contexts is idle. -/
theorem replicate_ctx {s : State} {n : Nat} (h : s.ctxs = List.replicate n Ctx.idle) (c : Nat) :
    s.ctx c = Ctx.idle := by
  by_cases hc : c < n <;> simp [State.ctx, h, hc]

@[simp] theorem applyReset_ctx (s : State) (c : Nat) : s.applyReset.ctx c = Ctx.idle :=
  replicate_ctx (applyReset_ctxs s) c
@[simp] theorem latchConfig_ctx (s : State) (c : Nat) : (latchConfig s).ctx c = Ctx.idle :=
  replicate_ctx (latchConfig_ctxs s) c

/-- A context below N_CTX is an entry of the list. -/
theorem ctx_mem {s : State} {c : Nat} (h : c < s.nCtx) : s.ctx c ∈ s.ctxs := by
  have h' : c < s.ctxs.length := h
  simp [State.ctx, h']

end Sys2Proof.Machine
end

