-- ==== Sys2Proof/Laws/Exec.lean ====
section
/-! SUPPORT. What a command can do, said once: it always ends in a next state, which is an error entry
or the one effect of the command. -/

namespace Sys2Proof.Machine

/-- A command whose check fails ends in the error entry. -/
theorem endCommand_some (code : ErrCode) (effect : State → State) (s : State) :
    endCommand (some code) effect s = .next (raiseError code s) := rfl

/-- A command whose checks pass ends in its effect and `complete()`. -/
theorem endCommand_none (effect : State → State) (s : State) :
    endCommand none effect s = .next (complete (effect s)) := rfl

/-- A command's end is one of the two. -/
theorem endCommand_cases {failure : Option ErrCode} {effect : State → State} {s t : State}
    (h : endCommand failure effect s = .next t) :
    (∃ code, failure = some code ∧ t = raiseError code s) ∨
      (failure = none ∧ t = complete (effect s)) := by
  cases failure with
  | some code => exact .inl ⟨code, rfl, by injection h with h; exact h.symm⟩
  | none => exact .inr ⟨rfl, by injection h with h; exact h.symm⟩

/-- A command always ends in a next state. -/
theorem endCommand_next (failure : Option ErrCode) (effect : State → State) (s : State) :
    ∃ t, endCommand failure effect s = .next t := by
  cases failure <;> exact ⟨_, rfl⟩

/-! ## The checks -/

theorem startFailure_eq_none {c : Nat} {s : State} :
    startFailure c s = none ↔ c < s.nCtx ∧ s.cfgValid = true := by
  unfold startFailure
  split
  · simp; omega
  · next h => cases hv : s.cfgValid <;> simp; omega

theorem activeFailure_eq_none {c : Nat} {s : State} :
    activeFailure c s = none ↔ c < s.nCtx ∧ s.cfgValid = true ∧ (s.ctx c).state = .active := by
  unfold activeFailure
  split
  · simp; omega
  · next h => cases hv : s.cfgValid <;> simp [show c < s.nCtx by omega]

theorem startFailure_ne_ok {c : Nat} {s : State} : startFailure c s ≠ some .ok := by
  unfold startFailure
  split
  · simp
  · split <;> simp

theorem activeFailure_ne_ok {c : Nat} {s : State} : activeFailure c s ≠ some .ok := by
  unfold activeFailure
  split
  · simp
  · split
    · simp
    · split <;> simp

theorem validate_ne_ok {k : CrcConfig} : validate k ≠ some .ok := by
  unfold validate
  repeat' split
  all_goals simp

/-- The context checks read N_CTX, CFG_VALID and the context, nothing else. -/
theorem startFailure_congr {c : Nat} {s t : State} (hn : t.nCtx = s.nCtx)
    (hv : t.cfgValid = s.cfgValid) : startFailure c t = startFailure c s := by
  simp [startFailure, hn, hv]

theorem activeFailure_congr {c : Nat} {s t : State} (hn : t.nCtx = s.nCtx)
    (hv : t.cfgValid = s.cfgValid) (hx : t.ctx c = s.ctx c) :
    activeFailure c t = activeFailure c s := by
  simp [activeFailure, hn, hv, hx]

/-! ## The commands -/

theorem exec_nop (s : State) : exec .nop s = .next (complete s) := rfl

theorem exec_errClr (s : State) : exec .errClr s = .next (complete { s with errSticky := false }) := rfl

theorem exec_cfgCommit (s : State) :
    exec .cfgCommit s = endCommand (validate s.stg) latchConfig s := rfl

theorem exec_ctxStart (c : Nat) (s : State) : exec (.ctxStart c) s =
    endCommand (startFailure c s) (fun s => s.setCtx c ⟨.active, seed s.cfg⟩) s := rfl

theorem exec_ctxFold (c : Nat) (b : Byte) (s : State) : exec (.ctxFold c b) s =
    endCommand (activeFailure c s)
      (fun s => s.setCtx c ⟨.active, fold s.cfg s.table (s.ctx c).hash b⟩) s := rfl

theorem exec_ctxFinal (c : Nat) (s : State) : exec (.ctxFinal c) s =
    endCommand (activeFailure c s)
      (fun s => s.setCtx c ⟨.done, finalize s.cfg (s.ctx c).hash⟩) s := rfl

/-- A command always ends in a next state (70_reset_and_hazards.md R211). -/
theorem exec_next (i : Instr) (s : State) : ∃ t, exec i s = .next t := by
  cases i with
  | nop => exact ⟨_, exec_nop s⟩
  | errClr => exact ⟨_, exec_errClr s⟩
  | cfgCommit => rw [exec_cfgCommit]; exact endCommand_next _ _ _
  | ctxStart c => rw [exec_ctxStart]; exact endCommand_next _ _ _
  | ctxFold c b => rw [exec_ctxFold]; exact endCommand_next _ _ _
  | ctxFinal c => rw [exec_ctxFinal]; exact endCommand_next _ _ _

/-- Everything a command can do: an error entry, or the one effect of its rule. -/
theorem exec_cases {i : Instr} {s t : State} (h : exec i s = .next t) :
    (∃ code, code ≠ .ok ∧ t = raiseError code s) ∨
    (i = .nop ∧ t = complete s) ∨
    (i = .errClr ∧ t = complete { s with errSticky := false }) ∨
    (i = .cfgCommit ∧ validate s.stg = none ∧ t = complete (latchConfig s)) ∨
    (∃ c, i = .ctxStart c ∧ c < s.nCtx ∧ s.cfgValid = true ∧
      t = complete (s.setCtx c ⟨.active, seed s.cfg⟩)) ∨
    (∃ c b, i = .ctxFold c b ∧ c < s.nCtx ∧ s.cfgValid = true ∧ (s.ctx c).state = .active ∧
      t = complete (s.setCtx c ⟨.active, fold s.cfg s.table (s.ctx c).hash b⟩)) ∨
    (∃ c, i = .ctxFinal c ∧ c < s.nCtx ∧ s.cfgValid = true ∧ (s.ctx c).state = .active ∧
      t = complete (s.setCtx c ⟨.done, finalize s.cfg (s.ctx c).hash⟩)) := by
  cases i with
  | nop => exact .inr (.inl ⟨rfl, by injection h with h; exact h.symm⟩)
  | errClr => exact .inr (.inr (.inl ⟨rfl, by injection h with h; exact h.symm⟩))
  | cfgCommit =>
    rw [exec_cfgCommit] at h
    obtain ⟨code, hf, ht⟩ | ⟨hf, ht⟩ := endCommand_cases h
    · exact .inl ⟨code, fun e => validate_ne_ok (e ▸ hf), ht⟩
    · exact .inr (.inr (.inr (.inl ⟨rfl, hf, ht⟩)))
  | ctxStart c =>
    rw [exec_ctxStart] at h
    obtain ⟨code, hf, ht⟩ | ⟨hf, ht⟩ := endCommand_cases h
    · exact .inl ⟨code, fun e => startFailure_ne_ok (e ▸ hf), ht⟩
    · obtain ⟨hc, hv⟩ := startFailure_eq_none.mp hf
      exact .inr (.inr (.inr (.inr (.inl ⟨c, rfl, hc, hv, ht⟩))))
  | ctxFold c b =>
    rw [exec_ctxFold] at h
    obtain ⟨code, hf, ht⟩ | ⟨hf, ht⟩ := endCommand_cases h
    · exact .inl ⟨code, fun e => activeFailure_ne_ok (e ▸ hf), ht⟩
    · obtain ⟨hc, hv, ha⟩ := activeFailure_eq_none.mp hf
      exact .inr (.inr (.inr (.inr (.inr (.inl ⟨c, b, rfl, hc, hv, ha, ht⟩)))))
  | ctxFinal c =>
    rw [exec_ctxFinal] at h
    obtain ⟨code, hf, ht⟩ | ⟨hf, ht⟩ := endCommand_cases h
    · exact .inl ⟨code, fun e => activeFailure_ne_ok (e ▸ hf), ht⟩
    · obtain ⟨hc, hv, ha⟩ := activeFailure_eq_none.mp hf
      exact .inr (.inr (.inr (.inr (.inr (.inr ⟨c, rfl, hc, hv, ha, ht⟩)))))

/-- No command writes a staging register (40_config_table.md R102). -/
theorem exec_stg {i : Instr} {s t : State} (h : exec i s = .next t) : t.stg = s.stg := by
  obtain ⟨_, _, rfl⟩ | ⟨_, rfl⟩ | ⟨_, rfl⟩ | ⟨_, _, rfl⟩ | ⟨_, _, _, _, rfl⟩ |
    ⟨_, _, _, _, _, _, rfl⟩ | ⟨_, _, _, _, _, rfl⟩ := exec_cases h <;> rfl

end Sys2Proof.Machine
end

