-- ==== Sys2Proof/Laws/PerInstr.lean ====
section
/-! SUPPORT. A fact about every command as syntax, one lemma for each constructor: the word of a
command has HI and RSV 0 (30_encoding.md R70, R74), and its CTX field is the operand when the command
is well formed. -/

namespace Sys2Proof.Laws.EncodedFields

/-- The fields of a command's word. -/
def Statement (i : Instr) : Prop :=
  hiField (encode i) = 0 ∧ rsvField (encode i) = 0 ∧
    ∀ c, (i = .ctxStart c ∨ (∃ b, i = .ctxFold c b) ∨ i = .ctxFinal c) → i.wellFormed = true →
      (ctxField (encode i)).toNat = c

theorem nop : Statement .nop := by simp [Statement, encode]

theorem cfgCommit : Statement .cfgCommit := by simp [Statement, encode]

theorem errClr : Statement .errClr := by simp [Statement, encode]

theorem ctxStart (c : Nat) : Statement (.ctxStart c) := by
  refine ⟨by simp [encode], by simp [encode], fun d hd hw => ?_⟩
  rw [wellFormed_ctxStart] at hw
  simp only [encode, ctxField_wordOfFields, BitVec.toNat_ofNat]
  simp at hd
  omega

theorem ctxFold (c : Nat) (b : Byte) : Statement (.ctxFold c b) := by
  refine ⟨by simp [encode], by simp [encode], fun d hd hw => ?_⟩
  rw [wellFormed_ctxFold] at hw
  simp only [encode, ctxField_wordOfFields, BitVec.toNat_ofNat]
  simp at hd
  omega

theorem ctxFinal (c : Nat) : Statement (.ctxFinal c) := by
  refine ⟨by simp [encode], by simp [encode], fun d hd hw => ?_⟩
  rw [wellFormed_ctxFinal] at hw
  simp only [encode, ctxField_wordOfFields, BitVec.toNat_ofNat]
  simp at hd
  omega

end Sys2Proof.Laws.EncodedFields
end

