-- ==== Sys2Proof/Laws/Step.lean ====
section
/-! SUPPORT. What a step can do, said once, in the terms of `issuing` and `resetting`: wait, reset,
serve an access that issues no command, or issue one command. -/

namespace Sys2Proof.Machine

/-! ## Admission -/

/-- Admission reads N_CTX and BASE, nothing else. -/
theorem admitted_congr {s t : State} (hn : t.nCtx = s.nCtx) (hb : t.base = s.base) (addr n : Nat) :
    t.admitted addr n = s.admitted addr n := by
  simp [State.admitted, hn, hb]

/-- The window of every CRCU has CMD at offset 0x010. -/
@[simp] theorem regAt_cmd (nCtx : Nat) : regAt nCtx 0x010 = some .cmd := rfl

/-- A host write of 8 bytes to BASE + 0x010 is admitted to CMD. -/
@[simp] theorem admitted_cmd (s : State) : s.admitted (s.base + 0x010) 8 = some .cmd := by
  simp [State.admitted]

theorem cmdAddr_eq (s : State) : s.cmdAddr = s.base + 0x010 := rfl

/-! ## Issuing a command -/

/-- Issuing a word always ends in a next state. -/
theorem issue_next (w : Word) (s : State) : ∃ t, issue w s = .next t := by
  unfold issue
  split
  · exact ⟨_, rfl⟩
  · exact exec_next _ _

theorem issue_illegal {w : Word} {why : IllegalReason} (h : decode w = .illegal why) (s : State) :
    issue w s = .next (raiseError .illegalCmd s) := by
  simp [issue, h]

theorem issue_command {w : Word} {i : Instr} (h : decode w = .command i) (s : State) :
    issue w s = exec i s := by
  simp [issue, h]

/-- Issuing a word is ILLEGAL_CMD or the word's command. -/
theorem issue_cases {w : Word} {s t : State} (h : issue w s = .next t) :
    ((∃ why, decode w = .illegal why) ∧ t = raiseError .illegalCmd s) ∨
      ∃ i, decode w = .command i ∧ exec i s = .next t := by
  unfold issue at h
  split at h
  next why hd => exact .inl ⟨⟨why, hd⟩, by injection h with h; exact h.symm⟩
  next i hd => exact .inr ⟨i, hd, h⟩

/-! ## Writes -/

/-- A write to a register other than CMD changes at most the staging registers. -/
theorem writeReg_quiet {r : Reg} (hr : r ≠ .cmd) (v : Word) (s : State) :
    ∃ k, writeReg r v s = .next { s with stg := k } := by
  cases r <;> first | exact absurd rfl hr | exact ⟨_, rfl⟩

/-- A write to a register other than STG_BITS leaves STG_BITS alone. -/
theorem writeReg_stgBits {r : Reg} (hr : r ≠ .stgBits) {v : Word} {s t : State}
    (h : writeReg r v s = .next t) : t.stg.bits = s.stg.bits := by
  cases r
  case stgBits => exact absurd rfl hr
  case cmd =>
    obtain ⟨-, rfl⟩ | ⟨i, -, he⟩ := issue_cases h
    · rfl
    · rw [exec_stg he]
  all_goals (injection h with h; subst h; rfl)

/-! ## Steps -/

/-- A run begins with a step. -/
theorem run_succ {s u : State} (h : step s = .next u) (k : Nat) :
    Host.Core.run core (k + 1) s = Host.Core.run core k u := by
  have h' : core.step s = .next u := h
  simp only [Host.Core.run, h']

theorem step_nil {s : State} (h : s.pending = []) : step s = .next s := by
  simp [step, h]

theorem step_cons {s : State} {e : HostEvent} {rest : List HostEvent} (h : s.pending = e :: rest) :
    step s = serve e { s with pending := rest } := by
  simp [step, h]

/-- Everything a step can do. -/
theorem step_cases (s : State) :
    -- it waits
    (s.pending = [] ∧ s.issuing = none ∧ s.resetting = false ∧ step s = .next s) ∨
    -- it resets
    (s.issuing = none ∧ s.resetting = true ∧ ∃ rest answers, s.pending.tail = rest ∧
      step s = .next { State.resetOf s.nCtx s.base with
        pending := rest, responses := s.responses ++ answers }) ∨
    -- it serves an access that issues no command
    (s.issuing = none ∧ s.resetting = false ∧ ∃ a rest k, s.pending = .access a :: rest ∧
      step s = .next { s with
        pending := rest, responses := s.responses ++ [s.answer a], stg := k } ∧
      ((∃ addr n, a = .read addr n) → k = s.stg)) ∨
    -- it issues a command
    (s.resetting = false ∧ ∃ w addr n rest, s.issuing = some w ∧
      s.pending = .access (.write addr n w) :: rest ∧ s.admitted addr n = some .cmd ∧
      step s = issue w { s with pending := rest, responses := s.responses ++ [.done] }) := by
  cases hp : s.pending with
  | nil => exact .inl ⟨rfl, by simp [State.issuing, hp], by simp [State.resetting, hp], step_nil hp⟩
  | cons e rest =>
    have hstep := step_cons hp
    cases e with
    | reset =>
      refine .inr (.inl ⟨by simp [State.issuing, hp], by simp [State.resetting, hp], rest, [], rfl, ?_⟩)
      rw [hstep]
      simp [serve, State.applyReset, State.nCtx]
    | resetDuringCmd w =>
      refine .inr (.inl ⟨by simp [State.issuing, hp], by simp [State.resetting, hp], rest,
        [.abandoned], rfl, ?_⟩)
      rw [hstep]
      rfl
    | access a =>
      cases a with
      | read addr n =>
        refine .inr (.inr (.inl ⟨by simp [State.issuing, hp], by simp [State.resetting, hp],
          .read addr n, rest, s.stg, rfl, ?_, fun _ => rfl⟩))
        rw [hstep]
        rfl
      | write addr n v =>
        have hadm : ∀ l rs, ({ s with pending := l, responses := rs } : State).admitted addr n =
            s.admitted addr n := fun _ _ => rfl
        by_cases hc : s.admitted addr n = some .cmd
        · refine .inr (.inr (.inr ⟨by simp [State.resetting, hp], v, addr, n, rest,
            by simp [State.issuing, hp, hc], rfl, hc, ?_⟩))
          rw [hstep]
          simp only [serve, accessEffect, State.respond, State.answer, hadm]
          simp only [hc]
          rfl
        · refine .inr (.inr (.inl ⟨by simp [State.issuing, hp, hc], by simp [State.resetting, hp], ?_⟩))
          cases hr : s.admitted addr n with
          | none =>
            refine ⟨.write addr n v, rest, s.stg, rfl, ?_, fun _ => rfl⟩
            rw [hstep]
            simp only [serve, accessEffect, State.respond, State.answer, hadm, hr]
          | some r =>
            have hne : r ≠ .cmd := fun e => hc (by rw [hr, e])
            obtain ⟨k, hk⟩ := writeReg_quiet hne v
              { s with pending := rest, responses := s.responses ++ [.done] }
            refine ⟨.write addr n v, rest, k, rfl, ?_, fun ⟨_, _, e⟩ => by cases e⟩
            rw [hstep]
            simp only [serve, accessEffect, State.respond, State.answer, hadm, hr]
            exact hk

/-! ## The bytes of a context -/

/-- Which byte an entry of the host's list folds is settled by N_CTX and BASE. -/
theorem byteFor_congr {s t : State} (hb : t.base = s.base) (hn : t.nCtx = s.nCtx) (c : Nat) :
    t.byteFor c = s.byteFor c := by
  funext e
  cases e with
  | access a => cases a <;> simp [State.byteFor, State.admitted, hb, hn]
  | reset => rfl
  | resetDuringCmd w => rfl

end Sys2Proof.Machine
end

