-- ==== Sys2Proof/Laws/Table.lean ====
section
/-! SUPPORT. The table generator: reading an entry, and the division step as a linear map that never
moves a high bit down (40_config_table.md R104, R107). -/

namespace Sys2Proof.Machine

/-! ## Reading an entry -/

@[simp] theorem generateTable_getElem (bits : Nat) (poly : Word) (refin : Bool) (i : Nat) (h : i < 256) :
    (generateTable bits poly refin)[i] = tableEntry bits poly refin i := by
  simp [generateTable]

@[simp] theorem generateTable_lookup (bits : Nat) (poly : Word) (refin : Bool) (b : Byte) :
    (generateTable bits poly refin).lookup b.toWord = tableEntry bits poly refin b.toNat := by
  have h : (BitVec.setWidth 8 b.toWord) = b := by simp [Byte.toWord]
  simp [Table.lookup, h]

@[simp] theorem zeroTable_getElem (i : Nat) (h : i < 256) : Table.zero[i] = 0 := by
  simp [Table.zero]

/-- A lookup of an index below 256 reads the entry at that index. -/
theorem lookup_eq (t : Table) (i : Word) (h : i.toNat < 256) : t.lookup i = t[i.toNat] := by
  have e : (i.setWidth 8).toNat = i.toNat := by
    rw [BitVec.toNat_setWidth, Nat.mod_eq_of_lt h]
  simp only [Table.lookup, e]

/-- A used entry, as one expression. -/
theorem tableEntry_of_lt {bits x : Nat} (poly : Word) (refin : Bool) (h : x < tableSize bits) :
    tableEntry bits poly refin x =
      maskw (if refin then
          reflect (divisionSteps (msbMask bits) poly (perSymbolBits bits)
            (symbolOfIndex bits refin x <<< (bits - perSymbolBits bits))) bits
        else divisionSteps (msbMask bits) poly (perSymbolBits bits)
            (symbolOfIndex bits refin x <<< (bits - perSymbolBits bits))) bits := by
  rw [tableEntry, if_neg (by omega)]

/-- An unused entry is 0 (10_state.md R36). -/
theorem tableEntry_of_ge {bits x : Nat} (poly : Word) (refin : Bool) (h : tableSize bits ≤ x) :
    tableEntry bits poly refin x = 0 := by
  rw [tableEntry, if_pos h]

/-- The used size in byte mode and in bit mode (40_config_table.md R94). -/
theorem tableSize_byte {bits : Nat} (h : 8 ≤ bits) : tableSize bits = 256 := by
  simp [tableSize, perSymbolBits, h]

theorem tableSize_bit {bits : Nat} (h : bits < 8) : tableSize bits = 2 := by
  simp [tableSize, perSymbolBits, show ¬ 8 ≤ bits by omega]

/-! ## The division step -/

/-- The mask of step d tests bit `bits - 1`. -/
theorem and_msbMask {bits : Nat} (h1 : 1 ≤ bits) (h2 : bits ≤ 64) (v : Word) :
    (v &&& msbMask bits ≠ 0) ↔ v.getLsbD (bits - 1) = true := by
  have hm : ∀ i, (msbMask bits).getLsbD i = decide (i = bits - 1) := by
    intro i
    rw [msbMask, BitVec.getLsbD_shiftLeft, BitVec.getLsbD_one]
    by_cases hi : i = bits - 1
    · subst hi; simp; omega
    · simp [hi]; omega
  constructor
  · intro h
    by_contra hf
    apply h
    apply BitVec.eq_of_getLsbD_eq
    intro i _
    rw [BitVec.getLsbD_and, hm]
    by_cases hi : i = bits - 1
    · subst hi; simpa using hf
    · simp [hi]
  · intro h e
    have := congrArg (fun x : Word => x.getLsbD (bits - 1)) e
    simp [hm, h] at this

/-- One division step, its test as a bit. -/
theorem divisionStep_eq {bits : Nat} (h1 : 1 ≤ bits) (h2 : bits ≤ 64) (poly v : Word) :
    divisionStep (msbMask bits) poly v =
      (v <<< 1) ^^^ (if v.getLsbD (bits - 1) then poly else 0) := by
  unfold divisionStep
  by_cases h : v.getLsbD (bits - 1) = true
  · rw [if_pos ((and_msbMask h1 h2 v).mpr h)]; simp [h]
  · rw [if_neg (fun hh => h ((and_msbMask h1 h2 v).mp hh))]; simp [h]

/-- The division step is linear over GF(2). -/
theorem divisionStep_xor {bits : Nat} (h1 : 1 ≤ bits) (h2 : bits ≤ 64) (poly v w : Word) :
    divisionStep (msbMask bits) poly (v ^^^ w) =
      divisionStep (msbMask bits) poly v ^^^ divisionStep (msbMask bits) poly w := by
  rw [divisionStep_eq h1 h2, divisionStep_eq h1 h2, divisionStep_eq h1 h2, BitVec.getLsbD_xor,
    BitVec.shiftLeft_xor_distrib]
  cases v.getLsbD (bits - 1) <;> cases w.getLsbD (bits - 1) <;> simp
  · ac_rfl
  · ac_rfl
  · rw [show (v <<< 1 ^^^ poly ^^^ (w <<< 1 ^^^ poly)) = v <<< 1 ^^^ w <<< 1 ^^^ (poly ^^^ poly) by ac_rfl]
    simp

/-- So are n of them (40_config_table.md R112(e)). -/
theorem divisionSteps_xor {bits : Nat} (h1 : 1 ≤ bits) (h2 : bits ≤ 64) (poly : Word) (n : Nat) :
    ∀ v w : Word, divisionSteps (msbMask bits) poly n (v ^^^ w) =
      divisionSteps (msbMask bits) poly n v ^^^ divisionSteps (msbMask bits) poly n w := by
  induction n with
  | zero => intro v w; rfl
  | succ n ih => intro v w; simp only [divisionSteps, divisionStep_xor h1 h2, ih]

end Sys2Proof.Machine
end

