-- ==== Sys2Proof/Laws/Window.lean ====
section
/-! SUPPORT. The register window: the register at a context's offset and at a table offset, where
nothing is mapped, and which part of the state each register reads (20_memory.md R57 to R59). -/

namespace Sys2Proof.Machine

/-! ## Offsets -/

/-- Inside context c's window, the map is `ctxRegs c`. -/
theorem regAt_ctx {nCtx c j : Nat} (hc : c < nCtx) (h8 : c < 8) (hj : j < 0x20) :
    regAt nCtx (0x100 + 0x20 * c + j) = (ctxRegs c).lookup j := by
  unfold regAt
  rw [if_neg (by omega), if_pos (by omega), if_pos (by omega),
    show (0x100 + 0x20 * c + j - 0x100) / 0x20 = c by omega,
    show (0x100 + 0x20 * c + j - 0x100) % 0x20 = j by omega]

/-- The window of a context at N_CTX or above is unmapped (20_memory.md R58). -/
theorem regAt_ctx_absent {nCtx c j : Nat} (hc : nCtx ≤ c) (h8 : c < 8) (hj : j < 0x20) :
    regAt nCtx (0x100 + 0x20 * c + j) = none := by
  unfold regAt
  rw [if_neg (by omega), if_pos (by omega), if_neg (by omega)]

/-- The table window is mapped in full (20_memory.md R59). -/
theorem regAt_table (nCtx : Nat) (i : Fin 256) :
    regAt nCtx (0x800 + 8 * i.val) = some (.tableEntry i) := by
  have hi := i.isLt
  unfold regAt
  rw [if_neg (by omega), if_neg (by omega), if_neg (by omega), dif_pos (by omega), if_pos (by omega)]
  simp only [Option.some.injEq, Reg.tableEntry.injEq]
  ext
  simp

/-- Nothing is mapped from 0x1000 on. -/
theorem regAt_above {nCtx off : Nat} (h : 0x1000 ≤ off) : regAt nCtx off = none := by
  unfold regAt
  rw [if_neg (by omega), if_neg (by omega), if_neg (by omega), dif_neg (by omega)]

/-! ## What a read depends on -/

/-- A read of a register depends on nothing but N_CTX and the fields of the CRCU: the host's list and
its answers are not seen through the window. -/
@[simp] theorem readReg_hostPort (s : State) (l : List HostEvent) (rs : List Response) (r : Reg) :
    ({ s with pending := l, responses := rs } : State).readReg r = s.readReg r := by
  cases r <;> rfl

@[simp] theorem readReg_respond (s : State) (x : Response) (r : Reg) :
    (s.respond x).readReg r = s.readReg r := by
  cases r <;> rfl

/-- An error entry is visible in STATUS only (60_exceptions.md R163). -/
theorem readReg_raiseError {r : Reg} (h : r ≠ .status) (code : ErrCode) (s : State) :
    (raiseError code s).readReg r = s.readReg r := by
  cases r <;> first | exact absurd rfl h | rfl

/-- So is the success of a command. -/
theorem readReg_complete {r : Reg} (h : r ≠ .status) (s : State) :
    (complete s).readReg r = s.readReg r := by
  cases r <;> first | exact absurd rfl h | rfl

/-- Writing a context is seen in its own four registers only. -/
theorem readReg_setCtx {c : Nat} {r : Reg} (h1 : r ≠ .ctxState c) (h2 : r ≠ .ctxHash c)
    (h3 : r ≠ .ctxResultBE c) (h4 : r ≠ .ctxResultLen c) (s : State) (x : Ctx) :
    (s.setCtx c x).readReg r = s.readReg r := by
  cases r with
  | id => simp only [State.readReg, State.idWord, setCtx_nCtx]
  | ctxState d =>
    simp only [State.readReg, setCtx_ctx_other (show d ≠ c by rintro rfl; exact h1 rfl)]
  | ctxHash d =>
    simp only [State.readReg, setCtx_ctx_other (show d ≠ c by rintro rfl; exact h2 rfl)]
  | ctxResultBE d =>
    simp only [State.readReg, State.resultBE, setCtx_cfg,
      setCtx_ctx_other (show d ≠ c by rintro rfl; exact h3 rfl)]
  | ctxResultLen d =>
    simp only [State.readReg, State.resultLenWord, setCtx_cfg,
      setCtx_ctx_other (show d ≠ c by rintro rfl; exact h4 rfl)]
  | tableEntry i => simp only [State.readReg, setCtx_table]
  | status => rfl
  | cmd => rfl
  | stgBits => rfl
  | stgPoly => rfl
  | stgInit => rfl
  | stgXorout => rfl
  | stgFlags => rfl
  | cfgBits => rfl
  | cfgPoly => rfl
  | cfgInit => rfl
  | cfgXorout => rfl
  | cfgFlags => rfl

/-- The window's memory image is settled by N_CTX, BASE and the registers. -/
theorem imageByte_congr {s t : State} (hb : t.base = s.base) (hn : t.nCtx = s.nCtx) (a : Nat)
    (h : ∀ r, regAt s.nCtx ((a - s.base) / 8 * 8) = some r → s.base ≤ a →
      t.readReg r = s.readReg r) :
    t.imageByte a = s.imageByte a := by
  simp only [State.imageByte, hb, hn]
  split
  · next hle =>
    cases hr : regAt s.nCtx ((a - s.base) / 8 * 8) with
    | none => rfl
    | some r => simp [h r hr hle]
  · rfl

end Sys2Proof.Machine
end

