-- ==== Sys2Proof/Tests/Slice0.lean ====
section
/-! SUPPORT. The model's own tests, in four parts: the WellFormed smoke test, decoding of words written
out from the spec, single steps against the vectors of 95_test_vectors.md, and for every statement with
hypotheses a witness that meets them (for each clause, at the edges of its range). -/

namespace Sys2Proof.Tests

open Sys2Proof Sys2Proof.Machine

/-! ## Helpers -/

/-- A configuration in the notation of 95_test_vectors.md. -/
def config (bits poly init : Word) (refin refout : Bool) (xorout : Word) : CrcConfig :=
  ⟨bits, poly, init, xorout, BitVec.ofBool refout ++ BitVec.ofBool refin⟩

/-- 95_test_vectors.md section 1.1. -/
def crc8 : CrcConfig := config 8 0x07 0 false false 0
def crc32 : CrcConfig := config 32 0x04C11DB7 0xFFFFFFFF true true 0xFFFFFFFF
def crc64we : CrcConfig :=
  config 64 0x42F0E1EBA9EA3693 0xFFFFFFFFFFFFFFFF false false 0xFFFFFFFFFFFFFFFF

/-- 95_test_vectors.md section 2.6. -/
def crc5 : CrcConfig := config 5 0x05 0x1F true true 0x1F
def crc5n : CrcConfig := config 5 0x15 0 false false 0

/-- A CRCU of two contexts at 0x1000 that has committed `k` (and has it staged), with these contexts. -/
def committed (k : CrcConfig) (x y : Ctx) : State :=
  { State.resetOf 2 0x1000 with
    cfgValid := true, stg := k, cfg := k, table := k.makeTable, ctxs := [x, y] }

/-- A CRCU of two contexts at 0x1000 right after reset, but for the staged configuration. -/
def staged (k : CrcConfig) : State := { State.resetOf 2 0x1000 with stg := k }

/-- The same state with host entries to serve. -/
def serving (s : State) (l : List HostEvent) : State := { s with pending := l }

/-- Something seen in the next state, none where there is no next state. -/
def seen {α : Type} (o : Outcome) (f : State → α) : Option α :=
  match o with
  | .next t => some (f t)
  | .fault _ => none
  | .refused _ => none

/-- STATUS after a command. -/
def statusAfter (o : Outcome) : Option Word := seen o fun t => t.statusWord

/-- A context after a command. -/
def ctxAfter (o : Outcome) (c : Nat) : Option Ctx := seen o fun t => t.ctx c

/-! ## WellFormed: the one check refuses an ill-formed command of every kind it guards -/

theorem test_wellFormed_refuses_ctxStart_256 : (Instr.ctxStart 256).wellFormed = false := by decide
theorem test_wellFormed_refuses_ctxFold_256 : (Instr.ctxFold 256 0).wellFormed = false := by decide
theorem test_wellFormed_refuses_ctxFinal_256 : (Instr.ctxFinal 256).wellFormed = false := by decide
theorem test_wellFormed_accepts_255 :
    (Instr.ctxStart 255).wellFormed = true ∧ (Instr.ctxFold 255 0xFF).wellFormed = true ∧
      (Instr.ctxFinal 255).wellFormed = true := by decide

/-! ## Decoding: words written out from 30_encoding.md R70, R72 and 95_test_vectors.md 2.9 -/

-- HI = 0, OPC = 00000000, CTX = 0, RSV = 0, IMM8 = 0
theorem test_decode_nop :
    decode 0b0000000000000000_0000000000000000_00000000_00000000_00000000_00000000 =
      .command .nop := by decide
-- OPC = 00000001
theorem test_decode_cfgCommit :
    decode 0b0000000000000000_0000000000000000_00000001_00000000_00000000_00000000 =
      .command .cfgCommit := by decide
-- OPC = 00000010
theorem test_decode_errClr :
    decode 0b0000000000000000_0000000000000000_00000010_00000000_00000000_00000000 =
      .command .errClr := by decide
-- OPC = 00010000, CTX = 11111111
theorem test_decode_ctxStart :
    decode 0b0000000000000000_0000000000000000_00010000_11111111_00000000_00000000 =
      .command (.ctxStart 255) := by decide
-- OPC = 00010001, CTX = 00000111, IMM8 = 10101011
theorem test_decode_ctxFold :
    decode 0b0000000000000000_0000000000000000_00010001_00000111_00000000_10101011 =
      .command (.ctxFold 7 0xAB) := by decide
-- OPC = 00010010, CTX = 00000101
theorem test_decode_ctxFinal :
    decode 0b0000000000000000_0000000000000000_00010010_00000101_00000000_00000000 =
      .command (.ctxFinal 5) := by decide

-- the illegal words of 95_test_vectors.md 2.9
theorem test_decode_illegal :
    decode 0x0000000000000100 = .illegal .rsvNonzero ∧
    decode 0x0000000000010000 = .illegal .ctxNonzero ∧
    decode 0x0000000001000001 = .illegal .immNonzero ∧
    decode 0x0000000003000000 = .illegal .reservedOpcode ∧
    decode 0x000000000F000000 = .illegal .reservedOpcode ∧
    decode 0x0000000010000001 = .illegal .immNonzero ∧
    decode 0x0000000011000100 = .illegal .rsvNonzero ∧
    decode 0x0000000012000080 = .illegal .immNonzero ∧
    decode 0x0000000013000000 = .illegal .reservedOpcode ∧
    decode 0x00000000FF000000 = .illegal .reservedOpcode ∧
    decode 0x0000000110000000 = .illegal .hiNonzero ∧
    decode 0x8000000000000000 = .illegal .hiNonzero ∧
    decode 0xFFFFFFFFFFFFFFFF = .illegal .hiNonzero := by decide

theorem test_decodeTableWord :
    decodeTableWord 64 0x110700AB = some (.ctxFold 7 0xAB) ∧ decodeTableWord 64 0x13000000 = none := by
  decide

/-! ## Single steps: expected values from 95_test_vectors.md -/

-- 2.1
theorem test_reflect :
    reflect 0x1F0 8 = 0x0F ∧ reflect 0x123 12 = 0xC48 ∧ reflect 0x04C11DB7 32 = 0xEDB88320 ∧
      reflect 0x42F0E1EBA9EA3693 64 = 0xC96C5795D7870F42 := by decide +kernel
theorem test_maskw : maskw 0x1FF 8 = 0xFF ∧ fullmask 64 = 0xFFFFFFFFFFFFFFFF ∧ fullmask 5 = 0x1F := by
  decide
theorem test_serialize :
    serialize 0x1AB 9 = [0x01, 0xAB] ∧ serialize 0xDAF 12 = [0x0D, 0xAF] ∧
      serialize 0x995DC9BBDF1939FA 64 = [0x99, 0x5D, 0xC9, 0xBB, 0xDF, 0x19, 0x39, 0xFA] := by decide

-- 2.8
theorem test_nop_status :
    statusAfter (exec .nop { committed crc8 Ctx.idle Ctx.idle with
      cfgValid := false, errSticky := true, lastErr := .cfgBitsRange }) = some 0x2 := by decide
theorem test_errClr_status :
    statusAfter (exec .errClr { committed crc5 Ctx.idle Ctx.idle with
      errSticky := true, lastErr := .ctxState }) = some 0x1 := by decide

-- 2.2: the check order, and a success in byte mode
theorem test_cfgCommit_order :
    statusAfter (exec .cfgCommit (staged (config 0 0x107 0x100 false false 0x1FF))) = some 0x1002 ∧
    statusAfter (exec .cfgCommit (staged (config 8 0x107 0x100 false false 0x1FF))) = some 0x1102 ∧
    statusAfter (exec .cfgCommit (staged (config 8 0x07 0x100 false false 0x1FF))) = some 0x1202 ∧
    statusAfter (exec .cfgCommit (staged (config 8 0x07 0xFF false false 0x1FF))) = some 0x1302 ∧
    statusAfter (exec .cfgCommit (staged (config 8 0x07 0xFF false false 0xFF))) = some 0x5 := by
  decide +kernel
-- 2.3: entries 1, 0x31, 0x80 and 0xFF of four tables
theorem test_cfgCommit_table :
    [1, 0x31, 0x80, 0xFF].map (tableEntry 8 0x07 false) = [0x07, 0x97, 0x89, 0xF3] ∧
    [1, 0x31, 0x80, 0xFF].map (tableEntry 16 0x8005 true) = [0xC0C1, 0xD4C1, 0xA001, 0x4040] ∧
    [1, 0x31, 0x80, 0xFF].map (tableEntry 64 0x42F0E1EBA9EA3693 false) =
      [0x42F0E1EBA9EA3693, 0xE8B768EB18C8B8A2, 0xF6FAE5C07D3274CD, 0x9AFCE626CE85B507] ∧
    [0, 1, 2, 0xFF].map (tableEntry 7 0x09 true) = [0, 0x48, 0, 0] := by decide +kernel

-- 2.4: a restart of a DONE context, reflected; NO_CONFIG after reset
theorem test_ctxStart_restart :
    ctxAfter (exec (.ctxStart 1) (committed (config 12 0x80F 0x123 true true 0) Ctx.idle ⟨.done, 0x5⟩)) 1 =
      some ⟨.active, 0xC48⟩ := by decide +kernel
theorem test_ctxStart_noConfig :
    statusAfter (exec (.ctxStart 0) (staged CrcConfig.zero)) = some 0x302 := by decide

-- 2.5: byte mode, non-reflected (bits above the width remain) and reflected
theorem test_ctxFold_byte :
    ctxAfter (exec (.ctxFold 0 0x32) (committed crc8 ⟨.active, 0x97⟩ Ctx.idle)) 0 =
      some ⟨.active, 0x9772⟩ ∧
    ctxAfter (exec (.ctxFold 1 0x31) (committed crc32 Ctx.idle ⟨.active, 0xFFFFFFFF⟩)) 1 =
      some ⟨.active, 0x7C231048⟩ ∧
    ctxAfter (exec (.ctxFold 0 0x31) (committed crc64we ⟨.active, 0xFFFFFFFFFFFFFFFF⟩ Ctx.idle)) 0 =
      some ⟨.active, 0x8DB4713229B2F2A5⟩ := by decide +kernel
-- 2.6: bit mode, reflected and not
theorem test_ctxFold_bit :
    ctxAfter (exec (.ctxFold 0 0x31) (committed crc5 ⟨.active, 0x1F⟩ Ctx.idle)) 0 =
      some ⟨.active, 0x03⟩ ∧
    ctxAfter (exec (.ctxFold 0 0x31) (committed crc5n ⟨.active, 0⟩ Ctx.idle)) 0 =
      some ⟨.active, 0x2CB⟩ := by decide +kernel

-- 2.7: mixed reflection, with bits above the width in HASH
theorem test_ctxFinal_mixed :
    ctxAfter (exec (.ctxFinal 0)
      (committed (config 8 0x07 0 false true 0xFF) ⟨.active, 0x72C0C2CBFD78C7F4⟩ Ctx.idle)) 0 =
      some ⟨.done, 0xD0⟩ ∧
    ctxAfter (exec (.ctxFinal 0)
      (committed (config 7 0x09 0x7F false true 0) ⟨.active, 0x69E7295B881F34D0⟩ Ctx.idle)) 0 =
      some ⟨.done, 0x05⟩ := by decide +kernel
theorem test_ctxFinal_not_active :
    statusAfter (exec (.ctxFinal 0) (committed crc5 ⟨.done, 0x02⟩ Ctx.idle)) = some 0x403 := by decide

-- 1.1: RESULT_BE of CRC-32, and the bytes on the bus
theorem test_resultBE :
    (committed crc32 ⟨.done, 0xCBF43926⟩ Ctx.idle).readReg (.ctxResultBE 0) = 0x2639F4CB ∧
    [0, 1, 2, 3].map (fun k => (committed crc32 ⟨.done, 0xCBF43926⟩ Ctx.idle).imageByte (0x1110 + k)) =
      [some 0xCB, some 0xF4, some 0x39, some 0x26] := by decide +kernel

-- 2.10: one access served in one step
theorem test_bus :
    seen (step (serving (staged CrcConfig.zero) [.access (.read 0x1000 8)])) (·.responses) =
      some [.data 0x43520207] ∧
    seen (step (serving (staged CrcConfig.zero) [.access (.read 0x1140 8)])) (·.responses) =
      some [.busError] ∧
    seen (step (serving (staged CrcConfig.zero) [.access (.write 0x1010 4 0)])) (·.responses) =
      some [.busError] ∧
    seen (step (serving (staged CrcConfig.zero) [.access (.write 0x1060 8 0xFFFFFFFFFFFFFFFF)]))
      (·.readReg .stgFlags) = some 3 := by decide
-- 2.9: decoding comes before the range check
theorem test_illegal_before_range :
    statusAfter (issue 0x11090100 (committed crc8 Ctx.idle Ctx.idle)) = some 0x107 := by decide

-- section 3: lines of a host program, tokens and accesses as 30_encoding.md R78, R79 say
theorem test_assembler :
    assembleText 0x1000 ["WR STG_POLY, 0x07   ; the polynomial".toList, "CTX.FOLD 1, 'A'".toList,
      "CTX.FOLDS 0, \"12\"".toList, "RD CTX1.RESULT_LEN".toList, "CHK".toList] =
      some [.access (.write 0x1048 8 0x07), .access (.write 0x1010 8 0x11010041),
        .access (.write 0x1010 8 0x11000031), .access (.write 0x1010 8 0x11000032),
        .access (.read 0x1138 8), .access (.read 0x1008 8)] := by decide +kernel

-- the model's choices of log 13: context names up to CTX7, and a double quote always ends a text
theorem test_assembler_choices :
    regOf "CTX7.STATE".toList = some (.ctxState 7) ∧ regOf "CTX8.STATE".toList = none ∧
    regOf "CTX56.STATE".toList = none ∧
    parseLine "CTX.FOLDS 0, \"'a'\"".toList = some [.ctxFolds 0 [0x27, 0x61, 0x27]] ∧
    parseLine "CTX.FOLDS 0, \"'\"'\"".toList = none := by decide +kernel

/-! ## Witnesses: states and operands that meet the hypotheses of each statement

`witness_<statement>` meets them all together; where a statement has several clauses over one input,
its conjuncts meet each clause, at the edges of the clause's range. -/

/-- A state of two contexts, one DONE, in bit mode. -/
def bitState : State := committed crc5 ⟨.active, 0x1F⟩ ⟨.done, 0x1F⟩

/-- A state of two contexts in byte mode, one ACTIVE with HASH above the width. -/
def byteState : State := committed crc8 ⟨.active, 0x9772⟩ ⟨.done, 0xF4⟩

/-- A state of eight contexts, the last one DONE, at the widest configuration. -/
def wideState : State :=
  { committed crc64we Ctx.idle Ctx.idle with
    ctxs := List.replicate 7 Ctx.idle ++ [⟨.done, 0x62EC59E3F1A4F00A⟩] }

/-- Statements over an invariant speak of real states. -/
theorem bitState_inv : bitState.Inv where
  nCtx_legal := by decide
  base_aligned := by decide
  config_valid := fun _ => by decide
  config_zero := fun h => absurd h (by decide)
  table_built := fun _ => rfl
  table_zero := fun h => absurd h (by decide)
  ctxs_idle := fun h => absurd h (by decide)
  idle_hash := by decide
  done_fits := by decide
  refl_fits := fun _ _ => by decide
  err_sticky := by decide

theorem byteState_inv : byteState.Inv where
  nCtx_legal := by decide
  base_aligned := by decide
  config_valid := fun _ => by decide
  config_zero := fun h => absurd h (by decide)
  table_built := fun _ => rfl
  table_zero := fun h => absurd h (by decide)
  ctxs_idle := fun h => absurd h (by decide)
  idle_hash := by decide
  done_fits := by decide
  refl_fits := fun _ h => absurd h (by decide)
  err_sticky := by decide

/-! ### Encoding and decoding -/

theorem witness_DecodeOfEncodeIsTheCommand :
    (Instr.ctxFold 0 0).wellFormed = true ∧ (Instr.ctxFold 255 0xFF).wellFormed = true := by decide

theorem witness_EncodeOfDecodeIsTheWord : decode 0x11FF00FF = .command (.ctxFold 255 0xFF) := by decide

theorem witness_DecodeFollowsMatchAndMask :
    decode 0x11FF00FF = .command (.ctxFold 255 0xFF) ∧
    (∃ r ∈ opcodeRows, (0x12FF0000 : Word) &&& r.mask = r.pattern) ∧
    ∀ r ∈ opcodeRows, (0x12FF0001 : Word) &&& r.mask ≠ r.pattern := by decide

theorem witness_IllegalWordsRaiseIllegalCmdOnly :
    decode 0x0201FF00 = .illegal .rsvNonzero ∧
    decode 0x11010000 = .command (.ctxFold 1 0) ∧ 1 < byteState.nCtx ∧
    decode 0x11020000 = .command (.ctxFold 2 0) ∧ byteState.nCtx ≤ 2 := by decide

theorem witness_StepRunsTheDecodedCommand :
    (serving byteState [.access (.write 0x1010 8 0x11000031)]).pending =
      .access (.write (byteState.base + 0x010) 8 0x11000031) :: [] ∧
    decode 0x11000031 = .command (.ctxFold 0 0x31) ∧
    decodeTableWord 64 0x11000031 = some (.ctxFold 0 0x31) := by decide

/-! ### Bit primitives -/

theorem witness_ReflectReversesTheLowBits :
    (∀ i < 8, (0x1F0 : Word).getLsbD i = (0x0F0 : Word).getLsbD i) ∧ 1 ≤ 1 ∧ 64 ≤ 64 := by decide

theorem witness_MaskwKeepsTheLowBits : maskw 0xFF 1 = 1 ∧ maskw 0xFFFFFFFFFFFFFFFF 63 = 0x7FFFFFFFFFFFFFFF ∧
    maskw 0xFFFFFFFFFFFFFFFF 64 = 0xFFFFFFFFFFFFFFFF := by decide

theorem witness_SerializeIsBigEndian :
    (1 : Word) ≤ fullmask 1 ∧ (0x1AB : Word) ≤ fullmask 9 ∧ (0xFFFFFFFFFFFFFFFF : Word) ≤ fullmask 64 ∧
    (wideState.ctx 7).state = .done ∧ wideState.cfg.bits.toNat ≤ 64 := by decide

/-! ### Registers the host reads -/

theorem witness_IdIsTheBuildConstant : wideState.nCtx ≤ 8 ∧ byteState.nCtx = 2 := by decide

theorem witness_ResultViewsPresentTheBytes :
    ((wideState.ctx 7).state = .done ∧ 1 ≤ wideState.cfg.bits.toNat ∧ wideState.cfg.bits.toNat ≤ 64 ∧
      7 < wideState.nCtx ∧ wideState.nCtx ≤ 8) ∧
    ((bitState.ctx 1).state = .done ∧ (bitState.cfg.bits.toNat + 7) / 8 = 1) ∧
    (bitState.ctx 0).state ≠ .done ∧ (bitState.ctx 2).state ≠ .done := by decide

/-! ### The register window -/

theorem witness_RegisterMapIsExact :
    regAt 8 0x1F8 = some (.ctxResultLen 7) ∧ regAt 1 0x118 = some (.ctxResultLen 0) ∧
    regAt 2 0x0A0 = some .cfgFlags ∧ regAt 2 0xFF8 = some (.tableEntry 255) ∧ regAt 2 0x801 = none ∧
    [0x018, 0x03F, 0x068, 0x07F, 0x0A8, 0x0FF, 0x200, 0x7FF, 0x1000].all
      (fun off => regAt 8 off == none) = true ∧
    -- a context's window at N_CTX itself, its first and last offset
    regAt 2 0x140 = none ∧ regAt 2 0x15F = none := by decide

theorem witness_OnlyAdmittedAccessesAreServed :
    (serving byteState [.access (.read 0x1FF8 8)]).pending = .access (.read 0x1FF8 8) :: [] ∧
    (byteState.nCtx ≤ 8 ∧ byteState.base ≤ 0x1FF8 ∧ 0x1FF8 - byteState.base ≤ 0xFF8 ∧ (0x1FF8 - byteState.base) % 8 = 0 ∧
      (Reg.tableEntry 255).present byteState.nCtx = true ∧
      (Reg.tableEntry 255).offset = 0x1FF8 - byteState.base) ∧
    -- not admitted: a size, an alignment, a hole, context 2's window, the last byte of the window
    [(0x1008, 4), (0x1004, 8), (0x1018, 8), (0x1140, 8), (0x1FFF, 8)].all
      (fun a => byteState.admitted a.1 a.2 == none) = true := by decide

theorem witness_AccessesOutsideTheWindowAreBusErrors :
    (serving byteState [.access (.write 0x0FF8 8 0)]).pending = .access (.write 0x0FF8 8 0) :: [] ∧
    0x0FF8 < byteState.base ∧ byteState.base + 0xFFF < 0x2000 := by decide

theorem witness_RegistersFollowTheirAccessType :
    Reg.id ∉ [Reg.cmd, .stgBits, .stgPoly, .stgInit, .stgXorout, .stgFlags] ∧
    Reg.stgXorout ∈ [Reg.stgBits, .stgPoly, .stgInit, .stgXorout] := by decide

theorem witness_StagingWritesTouchOnlyTheirRegister :
    (∃ t, writeReg .stgFlags 0xFFFFFFFFFFFFFFFF byteState = .next t) ∧
    (∃ t, writeReg .stgBits 0x108 byteState = .next t) ∧ Reg.stgBits ≠ Reg.stgFlags :=
  ⟨⟨_, rfl⟩, ⟨_, rfl⟩, by decide⟩

theorem witness_BusLanesAreLittleEndian :
    wideState.nCtx ≤ 8 ∧ (Reg.ctxResultLen 7).present wideState.nCtx = true ∧
      wideState.imageByte (0x1000 + 0x1F8 + 0) = some 8 ∧
      wideState.imageByte (0x1000 + 0x1F8 + 7) = some 0 := by decide +kernel

theorem witness_TableWindowIsMappedInFull :
    (serving bitState [.access (.read 0x1FF8 8)]).pending =
      .access (.read (bitState.base + 0x800 + 8 * (255 : Fin 256).val) 8) :: [] ∧
    bitState.Inv ∧ bitState.cfg.bits.toNat < 8 ∧ 2 ≤ (2 : Fin 256).val :=
  ⟨rfl, bitState_inv, by decide, by decide⟩

theorem witness_AccessesAreServedInIssueOrder :
    (serving byteState [.access (.read 0x1000 8), .access (.write 0x1010 8 0)]).pending =
      ([.read 0x1000 8] ++ [.write 0x1010 8 0] : List Access).map .access := rfl

/-! ### Control commands -/

theorem witness_NopReportsSuccessOnly :
    { staged CrcConfig.zero with errSticky := true, lastErr := .cfgBitsRange }.statusWord = 0x1002 ∧
    (1 : Word) ≠ 0 ∧ (1 : Word).toNat / 2 ^ 24 % 256 = 0 := by decide

theorem witness_ErrClrClearsTheStickyFlag :
    { bitState with errSticky := true, lastErr := .ctxState }.statusWord = 0x0403 ∧
    (0x02010000 : Word) ≠ 0x02000000 ∧ (0x02010000 : Word).toNat / 2 ^ 24 % 256 = 2 := by decide

/-! ### Configuration and table -/

theorem witness_ValidationAcceptsExactlyValidConfigurations :
    validate (config 1 1 1 true true 1) = none ∧ validate crc64we = none ∧
    validate (config 65 0 0 false false 0) = some .cfgBitsRange ∧
    validate (config 1 2 0 false false 0) = some .cfgPolyWidth := by decide

theorem witness_CfgCommitLatchesOrRaises :
    (staged (config 1 1 1 true true 1)).stg.Valid ∧ (staged crc64we).stg.Valid ∧
    (staged CrcConfig.zero).stg.bits.toNat < 1 ∧
    (staged (config 65 0 0 false false 0)).stg.bits.toNat > 64 ∧
    (staged (config 1 2 2 false false 2)).stg.poly > fullmask 1 ∧
    ((staged (config 1 1 2 false false 2)).stg.poly ≤ fullmask 1 ∧
      (staged (config 1 1 2 false false 2)).stg.init > fullmask 1) ∧
    ((staged (config 1 1 1 false false 2)).stg.init ≤ fullmask 1 ∧
      (staged (config 1 1 1 false false 2)).stg.xorout > fullmask 1) ∧
    ((0x01010000 : Word) ≠ 0x01000000 ∧ (0x01010000 : Word).toNat / 2 ^ 24 % 256 = 1) := by decide

theorem witness_DivisionStepsNeverMoveHighBitsDown :
    maskw 0x180 8 = maskw 0xFF80 8 ∧ maskw 1 1 = maskw 3 1 := by decide

theorem witness_TableEntriesFitTheWidth :
    (generateTable 1 1 false)[(1 : Fin 256)] = 1 ∧
    (generateTable 64 0x42F0E1EBA9EA3693 true)[(0xFF : Fin 256)] = 0xE0ADA17364673F59 := by
  decide +kernel

theorem witness_TableClosedForms :
    (1 : Word) ≤ fullmask 1 ∧ (0x7F : Word) ≤ fullmask 7 ∧ (0xFF : Word) ≤ fullmask 8 ∧
    (0xFFFFFFFFFFFFFFFF : Word) ≤ fullmask 64 ∧ (1 : Byte).toNat < tableSize 7 ∧
    (0xFF : Byte).toNat < tableSize 8 := by decide

/-! ### The fold engine -/

theorem witness_CtxStartSeedsTheContext :
    (1 < bitState.nCtx ∧ bitState.cfgValid = true ∧ bitState.cfg.Valid) ∧ bitState.nCtx ≤ 2 ∧
    ((1 < (staged crc5).nCtx) ∧ (staged crc5).cfgValid = false) ∧
    ((0x100000FF : Word).toNat / 2 ^ 24 % 256 = 0x10 ∧ (0x100000FF : Word).toNat % 256 ≠ 0) := by decide

theorem witness_CtxFoldFoldsOneByte :
    (0 < byteState.nCtx ∧ byteState.cfgValid = true ∧ (byteState.ctx 0).state = .active) ∧
    byteState.nCtx ≤ 2 ∧ ((1 < (staged crc5).nCtx) ∧ (staged crc5).cfgValid = false) ∧
    (1 < byteState.nCtx ∧ (byteState.ctx 1).state ≠ .active) ∧
    ((0x11000100 : Word).toNat / 2 ^ 24 % 256 = 0x11 ∧ (0x11000100 : Word).toNat / 2 ^ 8 % 256 ≠ 0) := by
  decide

theorem witness_ByteModeFoldIsOneLookup :
    (0 < byteState.nCtx ∧ byteState.cfgValid = true ∧ (byteState.ctx 0).state = .active ∧
      8 ≤ byteState.cfg.bits.toNat ∧ byteState.cfg.bits.toNat ≤ 64 ∧ byteState.cfg.refin = false) ∧
    ((committed crc32 ⟨.active, 0xFFFFFFFF⟩ Ctx.idle).cfg.refin = true ∧
      (0xFFFFFFFF : Word) ≤ fullmask crc32.bits.toNat ∧
      (committed crc32 ⟨.active, 0xFFFFFFFF⟩ Ctx.idle).readReg (.tableEntry 0xCE) ≤
        fullmask crc32.bits.toNat) := by decide +kernel

theorem witness_BitModeFoldIsEightLookups :
    (0 < bitState.nCtx ∧ bitState.cfgValid = true ∧ (bitState.ctx 0).state = .active ∧
      bitState.cfg.bits.toNat < 8 ∧ bitState.cfg.refin = true) ∧
    ((committed crc5n ⟨.active, 0⟩ Ctx.idle).cfg.refin = false ∧
      (committed crc5n ⟨.active, 0⟩ Ctx.idle).cfg.bits.toNat < 8) := by decide

theorem witness_AccumulatorRange :
    (crc5.Valid ∧ crc5.refin = true ∧ (0x1F : Word) ≤ fullmask crc5.bits.toNat) ∧
    (crc8.Valid ∧ crc8.refin = false ∧ maskw 0x97 crc8.bits.toNat = maskw 0x1197 crc8.bits.toNat) ∧
    -- 95_test_vectors.md 2.5: HASH leaves the width
    ((0x97 : Word) ≤ fullmask crc8.bits.toNat ∧ fold crc8 crc8.makeTable 0x97 0x32 = 0x9772) := by
  decide +kernel

theorem witness_CtxFinalFinishesTheFold :
    (0 < bitState.nCtx ∧ bitState.cfgValid = true ∧ (bitState.ctx 0).state = .active ∧
      1 ≤ bitState.cfg.bits.toNat ∧ bitState.cfg.bits.toNat ≤ 64) ∧
    bitState.nCtx ≤ 2 ∧ ((1 < (staged crc5).nCtx) ∧ (staged crc5).cfgValid = false) ∧
    (1 < bitState.nCtx ∧ (bitState.ctx 1).state ≠ .active) ∧
    ((0x112000000 : Word).toNat / 2 ^ 24 % 256 = 0x12 ∧ (0x112000000 : Word).toNat / 2 ^ 32 ≠ 0) := by decide

/-- An ACTIVE context, a failing commit to come, and between its own folds a staging write, an illegal
word, an access that is not admitted and a command of the other context. -/
def foldingState : State :=
  serving { byteState with stg := CrcConfig.zero }
    [.access (.write 0x1010 8 0x11000031), .access (.write 0x1010 8 0x01000000),
     .access (.write 0x1050 8 5), .access (.write 0x1010 8 0x13000000), .access (.read 0x1004 8),
     .access (.write 0x1010 8 0x10010000), .access (.write 0x1010 8 0x11000032)]

theorem foldingState_keeps :
    ∀ j < 7, ∀ u : State, Host.Core.run core j foldingState = .next u → u.keepsFold 0 := by
  intro j hj u hu
  interval_cases j <;> (injection hu with hu; subst hu) <;>
    exact ⟨by decide, by decide, fun w hw => by cases hw <;> decide⟩

theorem witness_ContextFoldsItsOwnBytesInOrder :
    (∀ j < 7, ∀ u : State, Host.Core.run core j foldingState = .next u → u.keepsFold 0) ∧
    0 < foldingState.nCtx ∧ foldingState.cfgValid = true ∧ (foldingState.ctx 0).state = .active ∧
    (foldingState.pending.take 7).filterMap (foldingState.byteFor 0) = [0x31, 0x32] ∧
    -- no step, and a context that is not ACTIVE
    (∀ j < 0, ∀ u : State, Host.Core.run core j byteState = .next u → u.keepsFold 1) ∧
    (byteState.ctx 1).state ≠ .active :=
  ⟨foldingState_keeps, by decide, rfl, rfl, by decide, fun _ h => absurd h (Nat.not_lt_zero _), by decide⟩

theorem witness_EqualInputsGiveEqualResults :
    0 < byteState.nCtx ∧ 1 < (committed crc8 Ctx.idle Ctx.idle).nCtx ∧ byteState.cfgValid = true ∧
    (committed crc8 Ctx.idle Ctx.idle).cfgValid = true ∧
    byteState.cfg = (committed crc8 Ctx.idle Ctx.idle).cfg ∧
    byteState.table = (committed crc8 Ctx.idle Ctx.idle).table :=
  ⟨by decide, by decide, rfl, rfl, rfl, rfl⟩

theorem witness_CommandSequenceComputes :
    1 < bitState.nCtx ∧ bitState.cfgValid = true ∧ bitState.cfg.Valid ∧
    bitState.table = generateTable bitState.cfg.bits.toNat bitState.cfg.poly bitState.cfg.refin :=
  ⟨by decide, rfl, by decide, rfl⟩

theorem witness_EmptyInputResult :
    (config 12 0x80F 0x123 false true 0x0F0).Valid ∧
    computeHash (config 12 0x80F 0x123 false true 0x0F0) [] = 0xCB8 ∧
    computeHash (config 12 0x80F 0x123 true false 0x0F0) [] = 0x1D3 := by decide +kernel

-- the bit-serial CRC against 95_test_vectors.md 2.6 and 1.1
theorem witness_TableDrivenEqualsBitSerial :
    crc5.Valid ∧ naiveCrc crc5 [0x31, 0x32, 0x33, 0x34, 0x35, 0x36, 0x37, 0x38, 0x39] = [0x19] ∧
    crc32.Valid ∧ naiveCrc crc32 [0x31, 0x32, 0x33, 0x34, 0x35, 0x36, 0x37, 0x38, 0x39] =
      [0xCB, 0xF4, 0x39, 0x26] := by decide +kernel

/-! ### Errors -/

theorem witness_FirstFailureIsReportedAndChangesNothingElse :
    reportedCode 0x11090100 byteState = 0x01 ∧ reportedCode 0x11020000 byteState = 0x02 ∧
    reportedCode 0x11020000 (staged crc8) = 0x02 ∧ reportedCode 0x11010000 (staged crc8) = 0x03 ∧
    reportedCode 0x11010000 byteState = 0x04 ∧ reportedCode 0x11000000 byteState = 0x00 ∧
    reportedCode 0x02000000 byteState = 0x00 := by decide

theorem witness_ErrStickyRecordsEveryError :
    (∃ t, step (serving byteState [.access (.write 0x1010 8 0x13000000)]) = .next t) ∧
    (serving byteState [.access (.write 0x1010 8 0x13000000)]).issuing = some 0x13000000 ∧
    reportedCode 0x13000000 byteState ≠ 0 ∧
    (serving { byteState with errSticky := true } [.access (.write 0x1010 8 0x02000000)]).issuing =
      some 0x02000000 ∧
    (serving byteState [.reset]).resetting = true ∧
    (serving byteState [.access (.read 0x1004 8)]).issuing = none ∧ byteState.errSticky = false :=
  ⟨⟨_, rfl⟩, by decide, by decide, by decide, by decide, by decide, by decide⟩

theorem witness_LastErrIsTheLatestOutcome :
    (serving byteState [.access (.write 0x1010 8 0x12010000)]).issuing = some 0x12010000 ∧
    (serving byteState [.access (.write 0x1008 8 0xFFFF)]).issuing = none ∧
    (serving byteState [.access (.write 0x1008 8 0xFFFF)]).resetting = false ∧
    (∃ t, step (serving byteState [.access (.write 0x1008 8 0xFFFF)]) = .next t) :=
  ⟨by decide, by decide, by decide, ⟨_, rfl⟩⟩

theorem witness_ErrorsNeverInfluenceLaterCommands :
    (∃ t, issue 0x11000031 byteState = .next t) ∧
    (∃ t, issue 0x11000031 { byteState with lastErr := .ctxState, errSticky := true } = .next t) ∧
    ∀ w ∈ [(0x10000000 : Word), 0x13000000, 0x12000000], w ≠ 0x02000000 :=
  ⟨issue_next _ _, issue_next _ _, by simp⟩

/-! ### Whole-machine rules -/

/-- A state about to run a successful commit, the one about to run a failing one, and the one about to
be reset. -/
theorem witness_CfgValidIsSetByCommitOnly :
    (serving (staged crc8) [.access (.write 0x1010 8 0x01000000)]).committing ∧
    (serving byteState [.reset]).resetting = true ∧
    ¬ (serving (staged CrcConfig.zero) [.access (.write 0x1010 8 0x01000000)]).committing ∧
    (serving (staged CrcConfig.zero) [.access (.write 0x1010 8 0x01000000)]).resetting = false := by decide

theorem witness_OnlyCommitReplacesTheConfiguration :
    (serving byteState [.access (.write 0x1010 8 0x01000000)]).committing ∧
    ¬ (serving byteState [.access (.write 0x1010 8 0x11000031)]).committing ∧
    (serving byteState [.access (.write 0x1010 8 0x11000031)]).resetting = false ∧
    (∃ t, step (serving byteState [.access (.write 0x1010 8 0x11000031)]) = .next t) :=
  ⟨by decide, by decide, by decide, ⟨_, rfl⟩⟩

theorem witness_ContextStateTransitions :
    (∃ t, step (serving byteState [.access (.write 0x1010 8 0x12000000)]) = .next t ∧
      (t.ctx 0).state ≠ (byteState.ctx 0).state) ∧ 0 < byteState.nCtx ∧ 1 < byteState.nCtx :=
  ⟨⟨_, rfl, by decide +kernel⟩, by decide, by decide⟩

theorem witness_ContextsAreIndependent :
    ctxOperand (.ctxFold 0 0x31) = some 0 ∧ (∃ t, exec (.ctxFold 0 0x31) byteState = .next t) ∧
    (∃ t', exec (.ctxFold 0 0x31) { byteState with errSticky := true } = .next t') ∧
    byteState.ctx 0 = ({ byteState with errSticky := true } : State).ctx 0 ∧
    ctxOperand (.ctxStart 1) = some 1 ∧
    (∃ t, runCommands [.ctxFold 0 0x31, .ctxStart 1] byteState = .next t) ∧
    (∃ t', runCommands [.ctxStart 1, .ctxFold 0 0x31] byteState = .next t') :=
  ⟨rfl, ⟨_, rfl⟩, ⟨_, rfl⟩, rfl, rfl, ⟨_, rfl⟩, ⟨_, rfl⟩⟩

theorem witness_CommandFrames :
    byteState.nCtx ≤ 8 ∧ (∃ t, exec .nop byteState = .next t) ∧
    (∃ t, exec (.ctxFinal 0) byteState = .next t) ∧ (∃ t, exec .cfgCommit byteState = .next t) ∧
    -- the last byte before and the first byte after STATUS, and the same of context 0's window
    [0x1007, 0x1010].all (fun a => !(0x1008 ≤ a && a < 0x1010)) = true ∧
    [0x10FF, 0x1120].all (fun a => !(0x1100 ≤ a && a < 0x1120)) = true :=
  ⟨by decide, ⟨_, rfl⟩, ⟨_, rfl⟩, ⟨_, rfl⟩, by decide, by decide⟩

theorem witness_CommitEndsEveryFold :
    (∃ t, exec .cfgCommit byteState = .next t) ∧ byteState.stg.Valid ∧ 1 < byteState.nCtx ∧
    (∃ t, exec .cfgCommit (staged CrcConfig.zero) = .next t) ∧ ¬ (staged CrcConfig.zero).stg.Valid :=
  ⟨⟨_, rfl⟩, by decide, by decide, ⟨_, rfl⟩, by decide⟩

theorem witness_ResultStaysUntilDiscarded :
    (∃ t, step (serving byteState [.access (.write 0x1010 8 0x12010000)]) = .next t) ∧
    1 < byteState.nCtx ∧ (byteState.ctx 1).state = .done ∧
    (serving byteState [.access (.write 0x1010 8 0x12010000)]).issuing = some 0x12010000 ∧
    decode 0x12010000 ≠ .command (.ctxStart 1) ∧
    (serving byteState [.access (.write 0x1010 8 0x10010000)]).issuing = some 0x10010000 ∧
    decode 0x10010000 = .command (.ctxStart 1) ∧ byteState.cfgValid = true ∧
    (serving byteState [.access (.write 0x1010 8 0x01000000)]).committing ∧
    (serving byteState [.resetDuringCmd 0x01000000]).resetting = true :=
  ⟨⟨_, rfl⟩, by decide, by decide, by decide, by decide, by decide, by decide, by decide, by decide,
    by decide⟩

/-! ### Reset and the invariant -/

theorem witness_ResetValues : State.reset.nCtx ≤ 8 ∧ 0 < State.reset.nCtx := by decide

theorem witness_ResetAbandonsTheStalledCommand :
    (serving byteState [.reset]).pending = .reset :: [] ∧
    (serving byteState [.resetDuringCmd 0x11000031]).pending = .resetDuringCmd 0x11000031 :: [] := by decide

theorem witness_NoConfigUntilACommitSucceeds :
    ((∃ t, step (serving byteState [.reset]) = .next t) ∧ (serving byteState [.reset]).resetting = true) ∧
    -- STG_BITS 0, and a write to another staging register, a refused write to STG_BITS, a failing commit
    ((serving (staged CrcConfig.zero) [.access (.write 0x1048 8 7)]).stg.bits = 0 ∧
      (∃ t, step (serving (staged CrcConfig.zero) [.access (.write 0x1048 8 7)]) = .next t) ∧
      (serving (staged CrcConfig.zero) [.access (.write 0x1048 8 7)]).writing = some .stgPoly ∧
      (serving (staged CrcConfig.zero) [.access (.write 0x1040 4 8)]).writing = none ∧
      (serving (staged CrcConfig.zero) [.access (.write 0x1010 8 0x01000000)]).writing = some .cmd ∧
      -- the one write that is shut out
      (serving (staged CrcConfig.zero) [.access (.write 0x1040 8 8)]).writing = some .stgBits) ∧
    ((staged crc8).cfgValid = false ∧ ctxOperand (.ctxFold 1 0) = some 1 ∧ 1 < (staged crc8).nCtx ∧
      (∃ t, step (serving (staged crc8) [.access (.write 0x1010 8 0x10000000)]) = .next t) ∧
      ¬ (serving (staged crc8) [.access (.write 0x1010 8 0x10000000)]).committing) :=
  ⟨⟨⟨_, rfl⟩, rfl⟩, ⟨rfl, ⟨_, rfl⟩, by decide, by decide, by decide, by decide⟩,
    ⟨rfl, rfl, by decide, ⟨_, rfl⟩, by decide⟩⟩

theorem witness_InvariantHoldsAtReset : 1 ≤ 1 ∧ 8 ≤ 8 ∧ 0xFF000 % 4096 = 0 := by decide

theorem witness_StepKeepsTheInvariant :
    (serving byteState [.access (.write 0x1010 8 0x12000000)]).Inv ∧
    ∃ t, step (serving byteState [.access (.write 0x1010 8 0x12000000)]) = .next t :=
  ⟨⟨byteState_inv.nCtx_legal, byteState_inv.base_aligned, byteState_inv.config_valid,
    byteState_inv.config_zero, byteState_inv.table_built, byteState_inv.table_zero,
    byteState_inv.ctxs_idle, byteState_inv.idle_hash, byteState_inv.done_fits, byteState_inv.refl_fits,
    byteState_inv.err_sticky⟩, ⟨_, rfl⟩⟩

/-! ### Host programs -/

theorem witness_PseudoInstructionsExpand :
    (assemble 0x1000 [.crc 255 [0, 255]]).isSome = true ∧ (assemble 0x1000 [.crc 256 []]).isSome = false ∧
    (assemble 0x1000 [.basic (.ctxFold 0 256)]).isSome = false := by decide

theorem witness_HostProgramComputesTheCrc :
    crc5.Valid ∧ 1 < byteState.nCtx ∧ byteState.nCtx ≤ 8 ∧
    ∃ events, assemble byteState.base
      [.cfgLoad crc5.bits.toNat crc5.poly.toNat crc5.init.toNat crc5.refin.toNat crc5.refout.toNat
        crc5.xorout.toNat, .chk, .crc 1 (([0x31] : List Byte).map (·.toNat)),
        .basic (.rd (.ctxHash 1)), .basic (.rd (.ctxResultLen 1))] = some events ∧
      (serving byteState events).pending = events :=
  ⟨by decide, by decide, by decide, ⟨_, rfl, rfl⟩⟩

end Sys2Proof.Tests
end

section
/-! The bit primitives as arithmetic: `reflect` and `maskw` as the numbers 00_scope.md R11 and R12 give. -/

namespace Sys2Proof.Machine

/-! ## reflect as a sum of powers of two -/

/-- The number below 2^n with the low n bits of x, read off bit by bit. -/
theorem sum_testBit_mul_two_pow (x n : Nat) :
    ∑ i ∈ Finset.range n, (x.testBit i).toNat * 2 ^ i = x % 2 ^ n := by
  induction n with
  | zero => simp [Nat.mod_one]
  | succ n ih => rw [Finset.sum_range_succ, ih, Nat.toNat_testBit, Nat.mod_pow_succ, Nat.mul_comm]

/-- Bit i of v weighs 2^(n-1-i) in `reflect(v, n)` (00_scope.md R11): the bits of the reflection, summed
from the top down. -/
theorem reflect_toNat_eq_sum (v : Word) {n : Nat} (hn : n ≤ 64) :
    (reflect v n).toNat = ∑ i ∈ Finset.range n, (v.getLsbD i).toNat * 2 ^ (n - 1 - i) := by
  calc (reflect v n).toNat
      = ∑ i ∈ Finset.range n, ((reflect v n).getLsbD i).toNat * 2 ^ i :=
        ((sum_testBit_mul_two_pow _ n).trans (Nat.mod_eq_of_lt (reflect_toNat_lt hn))).symm
    _ = ∑ i ∈ Finset.range n, ((reflect v n).getLsbD (n - 1 - i)).toNat * 2 ^ (n - 1 - i) :=
        (Finset.sum_range_reflect _ n).symm
    _ = ∑ i ∈ Finset.range n, (v.getLsbD i).toNat * 2 ^ (n - 1 - i) := by
        refine Finset.sum_congr rfl fun i hi => ?_
        have hi : i < n := Finset.mem_range.mp hi
        rw [reflect_getLsbD hn, decide_eq_true (by omega : n - 1 - i < n), Bool.true_and,
          show n - 1 - (n - 1 - i) = i by omega]

/-- Two values that agree on the bits below n have the same reflection within n bits. -/
theorem reflect_congr {v w : Word} {n : Nat} (hn : n ≤ 64)
    (h : ∀ i < n, v.getLsbD i = w.getLsbD i) : reflect v n = reflect w n := by
  rw [← reflect_maskw hn (v := v), maskw_eq_iff.mpr h, reflect_maskw hn]

/-- Settles O7: the sum is the binary expansion of the reflection, taken from its top bit down, and the
bits at n and above are masked away. A sum over `Finset.range n` is by definition the sum over
`List.range n`. -/
theorem reflectReversesTheLowBits : Obligations.ReflectReversesTheLowBits := by
  intro v n _ hn
  exact ⟨reflect_toNat_eq_sum v hn, reflect_toNat_lt hn, fun _ h => reflect_congr hn h⟩

/-! ## maskw by the two cases of its width -/

/-- Below 64 bits `maskw` is the conjunction with `(1 << n) - 1` (00_scope.md R12). -/
theorem maskw_of_lt {v : Word} {n : Nat} (hn : n < 64) : maskw v n = v &&& ((1#64 <<< n) - 1#64) :=
  if_pos hn

/-- At 64 bits `maskw` keeps the whole value (00_scope.md R12). -/
@[simp] theorem maskw_sixtyFour (v : Word) : maskw v 64 = v :=
  if_neg (Nat.lt_irrefl 64)

/-- Settles O8: the remainder and the bound are `maskw_toNat` and `le_fullmask_iff`, the rest the cases
of the definitions. -/
theorem maskwKeepsTheLowBits : Obligations.MaskwKeepsTheLowBits := by
  intro v n _ hn
  refine ⟨maskw_toNat v n, maskw_of_lt, ?_, rfl, le_fullmask_iff hn⟩
  rintro rfl
  exact maskw_sixtyFour v

end Sys2Proof.Machine
end

section
/-! The fold engine stays within the width: the entries of a generated table, and in the reflected modes
the accumulator from its seed through every fold (40_config_table.md R108; 41_fold_engine.md R133). -/

namespace Sys2Proof.Machine

/-- A table entry has no bit at the width or above (40_config_table.md R108). -/
theorem tableEntry_le_fullmask {bits : Nat} (hn : bits ≤ 64) (poly : Word) (refin : Bool) (x : Nat) :
    tableEntry bits poly refin x ≤ fullmask bits := by
  obtain hx | hx := Nat.lt_or_ge x (tableSize bits)
  · rw [tableEntry_of_lt poly refin hx]
    exact maskw_le_fullmask hn
  · rw [tableEntry_of_ge poly refin hx]
    exact BitVec.le_def.mpr (Nat.zero_le _)

/-- Every lookup in the table of a configuration fits its width. -/
theorem makeTable_lookup_le_fullmask {k : CrcConfig} (hn : k.bits.toNat ≤ 64) (i : Word) :
    k.makeTable.lookup i ≤ fullmask k.bits.toNat := by
  rw [Table.lookup, CrcConfig.makeTable, generateTable_getElem]
  exact tableEntry_le_fullmask hn _ _ _

/-- With `refin` the seed fits the width (41_fold_engine.md R121). -/
theorem seed_le_fullmask {k : CrcConfig} (hn : k.bits.toNat ≤ 64) (hr : k.refin = true) :
    seed k ≤ fullmask k.bits.toNat := by
  rw [seed, if_pos hr]
  exact reflect_le_fullmask hn

/-- A right shift and a lookup keep a value within a width that the table's entries fit: the one step
that both reflected forms of Fold repeat (41_fold_engine.md R129, R131). -/
theorem shiftRight_xor_lookup_le_fullmask {t : Table} {n : Nat} (hn : n ≤ 64)
    (ht : ∀ i, t.lookup i ≤ fullmask n) {h : Word} (hh : h ≤ fullmask n) (k : Nat) (i : Word) :
    (h >>> k) ^^^ t.lookup i ≤ fullmask n :=
  xor_le_fullmask hn (shiftRight_le_fullmask hn hh) (ht i)

/-- So do any number of bit steps. -/
theorem foldl_foldBitRefl_le_fullmask {t : Table} {n : Nat} (hn : n ≤ 64)
    (ht : ∀ i, t.lookup i ≤ fullmask n) (b : Byte) (js : List Nat) {h : Word} (hh : h ≤ fullmask n) :
    js.foldl (foldBitRefl t b) h ≤ fullmask n := by
  induction js generalizing h with
  | nil => exact hh
  | cons j js ih => exact ih (shiftRight_xor_lookup_le_fullmask hn ht hh 1 _)

/-- With `refin`, Fold keeps the accumulator within the width (41_fold_engine.md R133). -/
theorem fold_le_fullmask {k : CrcConfig} (hn : k.bits.toNat ≤ 64) (hr : k.refin = true) {h : Word}
    (hh : h ≤ fullmask k.bits.toNat) (b : Byte) :
    fold k k.makeTable h b ≤ fullmask k.bits.toNat := by
  have ht := makeTable_lookup_le_fullmask hn
  unfold fold
  rw [if_pos hr, if_pos hr]
  split
  · exact shiftRight_xor_lookup_le_fullmask hn ht hh 8 _
  · exact foldl_foldBitRefl_le_fullmask hn ht b _ hh

/-- A result fits the width (41_fold_engine.md R139). -/
theorem finalize_le_fullmask {k : CrcConfig} (hn : k.bits.toNat ≤ 64) (h : Word) :
    finalize k h ≤ fullmask k.bits.toNat :=
  maskw_le_fullmask hn

/-! ## Validation -/

/-- A value is above the full mask exactly when it does not fit. -/
theorem fullmask_lt_iff {v : Word} {n : Nat} (hn : n ≤ 64) : fullmask n < v ↔ 2 ^ n ≤ v.toNat := by
  rw [← BitVec.not_le, le_fullmask_iff hn, Nat.not_lt]

/-- The width check as numbers (40_config_table.md R92). -/
theorem bits_out_of_range_iff {w : Word} : (w < 1 ∨ 64 < w) ↔ (w.toNat < 1 ∨ w.toNat > 64) := by
  rw [BitVec.lt_def, BitVec.lt_def]
  rfl

/-- Validation passes exactly for the valid configurations (40_config_table.md R92). -/
theorem validate_eq_none_iff {k : CrcConfig} : validate k = none ↔ k.Valid := by
  unfold validate CrcConfig.Valid
  simp only [bits_out_of_range_iff, ← BitVec.not_lt]
  by_cases hb : k.bits.toNat < 1 ∨ k.bits.toNat > 64
  · simp only [if_pos hb, reduceCtorEq, false_iff]
    omega
  · simp only [if_neg hb, show 1 ≤ k.bits.toNat ∧ k.bits.toNat ≤ 64 by omega, true_and]
    split_ifs <;> simp [*]

end Sys2Proof.Machine
end

section
/-! What issuing a word and a step can do, in the form the rules about the whole machine use: which
commands the two words of CFG_COMMIT and ERR_CLR are, and the three kinds of a step that ends in a given
state. -/

namespace Sys2Proof

/-- A word that decodes is the word of its command (30_encoding.md R70, R74). -/
theorem eq_encode_of_decode {w : Word} {i : Instr} (h : decode w = .command i) : w = encode i := by
  obtain ⟨hh, hr, hi⟩ := decode_cases h
  rw [← wordOfFields_fields hh hr]
  obtain ⟨rfl, ho, hc, hm⟩ | ⟨rfl, ho, hc, hm⟩ | ⟨rfl, ho, hc, hm⟩ | ⟨rfl, ho, hm⟩ | ⟨rfl, ho⟩ |
    ⟨rfl, ho, hm⟩ := hi <;> simp [encode, *]

/-- The one word of CFG_COMMIT (30_encoding.md R80). -/
theorem decode_eq_cfgCommit_iff {w : Word} : decode w = .command .cfgCommit ↔ w = 0x0000000001000000 :=
  ⟨eq_encode_of_decode, fun h => h ▸ by decide⟩

/-- The one word of ERR_CLR (30_encoding.md R80). -/
theorem decode_eq_errClr_iff {w : Word} : decode w = .command .errClr ↔ w = 0x0000000002000000 :=
  ⟨eq_encode_of_decode, fun h => h ▸ by decide⟩

end Sys2Proof

namespace Sys2Proof.Machine

/-- The three kinds of a step that ends in t: one that issues no command and changes at most the host's
lists and the staging registers; a reset; and one that issues a command. -/
theorem step_next_cases {s t : State} (h : step s = .next t) :
    (s.issuing = none ∧ s.resetting = false ∧
      ∃ p rs k, t = { s with pending := p, responses := rs, stg := k }) ∨
    (s.issuing = none ∧ s.resetting = true ∧
      ∃ p rs, t = { State.resetOf s.nCtx s.base with pending := p, responses := rs }) ∨
    ∃ w p rs, s.issuing = some w ∧ s.resetting = false ∧
      issue w { s with pending := p, responses := rs } = .next t := by
  obtain ⟨-, hi, hr, hs⟩ | ⟨hi, hr, _, _, -, hs⟩ | ⟨hi, hr, _, _, _, -, hs, -⟩ |
    ⟨hr, w, _, _, _, hi, -, -, hs⟩ := step_cases s <;> rw [hs] at h
  · injection h with h
    exact .inl ⟨hi, hr, s.pending, s.responses, s.stg, h.symm⟩
  · injection h with h
    exact .inr (.inl ⟨hi, hr, _, _, h.symm⟩)
  · injection h with h
    exact .inl ⟨hi, hr, _, _, _, h.symm⟩
  · exact .inr (.inr ⟨w, _, _, hi, hr, h⟩)

end Sys2Proof.Machine
end

section
/-! The invariant: it holds after reset, and each update a step is made of keeps it. -/

namespace Sys2Proof.Machine

/-- The invariant does not speak of the host's lists and the staging registers. -/
theorem State.Inv.hostSide {s : State} (h : s.Inv) (p : List HostEvent) (rs : List Response)
    (k : CrcConfig) : ({ s with pending := p, responses := rs, stg := k } : State).Inv :=
  { h with }

/-- It holds after reset, whatever the host's lists are. -/
theorem State.Inv.resetOf {nCtx base : Nat} (hn : 1 ≤ nCtx ∧ nCtx ≤ 8) (hb : base % 4096 = 0) :
    (State.resetOf nCtx base).Inv where
  nCtx_legal := by rwa [resetOf_nCtx]
  base_aligned := hb
  config_valid h := nomatch h
  config_zero _ := rfl
  table_built h := nomatch h
  table_zero _ := rfl
  ctxs_idle _ := List.forall_mem_replicate.mpr (.inr rfl)
  idle_hash := List.forall_mem_replicate.mpr (.inr fun _ => rfl)
  done_fits := List.forall_mem_replicate.mpr (.inr fun h => nomatch h)
  refl_fits h := nomatch h
  err_sticky h := absurd rfl h

theorem State.Inv.raiseError {s : State} (h : s.Inv) (code : ErrCode) : (raiseError code s).Inv :=
  { h with err_sticky := fun _ => rfl }

theorem State.Inv.complete {s : State} (h : s.Inv) : (complete s).Inv :=
  { h with err_sticky := fun hne => absurd rfl hne }

/-- ERR_CLR and the success it reports. -/
theorem State.Inv.complete_clearSticky {s : State} (h : s.Inv) :
    (Machine.complete { s with errSticky := false }).Inv :=
  { h with err_sticky := fun hne => absurd rfl hne }

/-- A commit of a valid configuration. -/
theorem State.Inv.latchConfig {s : State} (h : s.Inv) (hv : s.stg.Valid) : (latchConfig s).Inv where
  nCtx_legal := by rw [latchConfig_nCtx]; exact h.nCtx_legal
  base_aligned := h.base_aligned
  config_valid _ := hv
  config_zero h := nomatch h
  table_built _ := rfl
  table_zero h := nomatch h
  ctxs_idle h := nomatch h
  idle_hash := List.forall_mem_replicate.mpr (.inr fun _ => rfl)
  done_fits := List.forall_mem_replicate.mpr (.inr fun h => nomatch h)
  refl_fits _ _ := List.forall_mem_replicate.mpr (.inr (BitVec.le_def.mpr (Nat.zero_le _)))
  err_sticky := h.err_sticky

/-- Writing a context under a committed configuration, with a context that is not IDLE, whose HASH fits
where the invariant asks for it. -/
theorem State.Inv.setCtx {s : State} (h : s.Inv) (hv : s.cfgValid = true) {x : Ctx}
    (hidle : x.state ≠ .idle) (hdone : x.state = .done → x.hash ≤ fullmask s.cfg.bits.toNat)
    (hrefl : s.cfg.refin = true → x.hash ≤ fullmask s.cfg.bits.toNat) (c : Nat) :
    (s.setCtx c x).Inv := by
  have hmem : ∀ P : Ctx → Prop, P x → (∀ y ∈ s.ctxs, P y) → ∀ y ∈ (s.setCtx c x).ctxs, P y :=
    fun P hx hs y hy => (List.mem_or_eq_of_mem_set hy).elim (hs y) (fun e => e ▸ hx)
  exact {
    nCtx_legal := by rw [setCtx_nCtx]; exact h.nCtx_legal
    base_aligned := h.base_aligned
    config_valid := h.config_valid
    config_zero := h.config_zero
    table_built := h.table_built
    table_zero := h.table_zero
    ctxs_idle := fun hf => nomatch hv.symm.trans hf
    idle_hash := hmem _ (fun hi => absurd hi hidle) h.idle_hash
    done_fits := hmem _ hdone h.done_fits
    refl_fits := fun _ hr => hmem _ (hrefl hr) (h.refl_fits hv hr)
    err_sticky := h.err_sticky }

/-- A command keeps the invariant: the seed, a fold and a result fit where they must
(41_fold_engine.md R133, R139). -/
theorem State.Inv.exec {s t : State} (h : s.Inv) {i : Instr} (he : exec i s = .next t) : t.Inv := by
  have hw : s.cfgValid = true → s.cfg.bits.toNat ≤ 64 := fun hv => (h.config_valid hv).2.1
  obtain ⟨code, -, rfl⟩ | ⟨-, rfl⟩ | ⟨-, rfl⟩ | ⟨-, hk, rfl⟩ | ⟨c, -, -, hv, rfl⟩ |
    ⟨c, b, -, hc, hv, -, rfl⟩ | ⟨c, -, -, hv, -, rfl⟩ := exec_cases he
  · exact h.raiseError code
  · exact h.complete
  · exact h.complete_clearSticky
  · exact (h.latchConfig (validate_eq_none_iff.mp hk)).complete
  · exact (h.setCtx hv (by simp) (by simp) (seed_le_fullmask (hw hv)) c).complete
  · refine (h.setCtx hv (by simp) (by simp) (fun hr => ?_) c).complete
    rw [h.table_built hv]
    exact fold_le_fullmask (hw hv) hr (h.refl_fits hv hr _ (ctx_mem hc)) b
  · have hf := finalize_le_fullmask (hw hv) (s.ctx c).hash
    exact (h.setCtx hv (by simp) (fun _ => hf) (fun _ => hf) c).complete

/-- Issuing a word keeps the invariant, legal or not. -/
theorem State.Inv.issue {s t : State} (h : s.Inv) {w : Word} (hi : issue w s = .next t) : t.Inv := by
  obtain ⟨-, rfl⟩ | ⟨i, -, he⟩ := issue_cases hi
  · exact h.raiseError _
  · exact h.exec he

/-- Settles O55: the host's side of a step is not seen by the invariant, a reset establishes it, and
every command keeps it. -/
theorem stepKeepsTheInvariant : Obligations.StepKeepsTheInvariant := by
  intro s t hs h
  obtain ⟨-, -, p, rs, k, rfl⟩ | ⟨-, -, p, rs, rfl⟩ | ⟨w, p, rs, -, -, hi⟩ := step_next_cases h
  · exact hs.hostSide p rs k
  · exact (State.Inv.resetOf hs.nCtx_legal hs.base_aligned).hostSide p rs CrcConfig.zero
  · exact (hs.hostSide p rs s.stg).issue hi

/-- Settles O54: the reset state, and the one of the model's own build parameters. -/
theorem invariantHoldsAtReset : Obligations.InvariantHoldsAtReset :=
  ⟨fun _ _ h1 h8 hb => .resetOf ⟨h1, h8⟩ hb, .resetOf (by decide) (by decide)⟩

end Sys2Proof.Machine
end

section
/-! The outcome of a command: LAST_ERR and ERR_STICKY after it (10_state.md R24, R25), and the outcome
code of 60_exceptions.md R160 and R161 that it is reported with. -/

namespace Sys2Proof.Machine

/-- Success is the only outcome with code 0 (60_exceptions.md R160). -/
theorem ErrCode.code_eq_zero_iff {e : ErrCode} : e.code = 0x00 ↔ e = .ok := by
  cases e <;> decide

/-- The first check a command fails, in the order of 60_exceptions.md R161; `exec_eq_endCommand` ties
it to `exec`. -/
def failureOf (s : State) : Instr → Option ErrCode
  | .nop => none
  | .errClr => none
  | .cfgCommit => validate s.stg
  | .ctxStart c => startFailure c s
  | .ctxFold c _ => activeFailure c s
  | .ctxFinal c => activeFailure c s

/-! ## LAST_ERR -/

/-- Every command ends by the first of its checks that fails. -/
theorem exec_eq_endCommand (i : Instr) (s : State) :
    ∃ effect, exec i s = endCommand (failureOf s i) effect s := by
  cases i with
  | nop => exact ⟨id, rfl⟩
  | errClr => exact ⟨fun s => { s with errSticky := false }, rfl⟩
  | cfgCommit => exact ⟨_, exec_cfgCommit s⟩
  | ctxStart c => exact ⟨_, exec_ctxStart c s⟩
  | ctxFold c b => exact ⟨_, exec_ctxFold c b s⟩
  | ctxFinal c => exact ⟨_, exec_ctxFinal c s⟩

/-- A command leaves LAST_ERR at the check that failed, or at success (00_scope.md R15). -/
theorem exec_lastErr {i : Instr} {s t : State} (h : exec i s = .next t) :
    t.lastErr = (failureOf s i).getD .ok := by
  obtain ⟨effect, he⟩ := exec_eq_endCommand i s
  rw [he] at h
  obtain ⟨code, hf, rfl⟩ | ⟨hf, rfl⟩ := endCommand_cases h <;> rw [hf] <;> rfl

/-! ## The outcome code -/

theorem startFailure_code (c : Nat) (s : State) :
    ((startFailure c s).getD .ok).code =
      if c ≥ s.nCtx then 0x02 else if s.cfgValid = false then 0x03 else 0x00 := by
  unfold startFailure
  split_ifs <;> rfl

theorem activeFailure_code (c : Nat) (s : State) :
    ((activeFailure c s).getD .ok).code =
      if c ≥ s.nCtx then 0x02 else if s.cfgValid = false then 0x03
      else if (s.ctx c).state ≠ .active then 0x04 else 0x00 := by
  unfold activeFailure
  split_ifs <;> rfl

/-- The outcome of a validation, its comparisons as numbers (40_config_table.md R101). -/
theorem validate_code (k : CrcConfig) :
    ((validate k).getD .ok).code =
      if k.bits.toNat < 1 ∨ k.bits.toNat > 64 then 0x10
      else if k.poly.toNat ≥ 2 ^ k.bits.toNat then 0x11
      else if k.init.toNat ≥ 2 ^ k.bits.toNat then 0x12
      else if k.xorout.toNat ≥ 2 ^ k.bits.toNat then 0x13
      else 0x00 := by
  unfold validate
  simp only [bits_out_of_range_iff]
  by_cases hb : k.bits.toNat < 1 ∨ k.bits.toNat > 64
  · rw [if_pos hb, if_pos hb]; rfl
  · have hn : k.bits.toNat ≤ 64 := by omega
    simp only [fullmask_lt_iff hn, ge_iff_le]
    split_ifs <;> rfl

/-- The reported code of a legal word is that of the first check its command fails. -/
theorem reportedCode_command {w : Word} {i : Instr} (h : decode w = .command i) (s : State) :
    reportedCode w s = ((failureOf s i).getD .ok).code := by
  simp only [reportedCode, h]
  cases i with
  | nop => rfl
  | errClr => rfl
  | cfgCommit => exact (validate_code s.stg).symm
  | ctxStart c => exact (startFailure_code c s).symm
  | ctxFold c b => exact (activeFailure_code c s).symm
  | ctxFinal c => exact (activeFailure_code c s).symm

theorem reportedCode_illegal {w : Word} {why : IllegalReason} (h : decode w = .illegal why) (s : State) :
    reportedCode w s = 0x01 := by
  simp only [reportedCode, h]

/-- A word leaves its reported code in LAST_ERR. -/
theorem issue_lastErr_code {w : Word} {s t : State} (h : issue w s = .next t) :
    t.lastErr.code = reportedCode w s := by
  obtain ⟨⟨why, hd⟩, rfl⟩ | ⟨i, hd, he⟩ := issue_cases h
  · exact (reportedCode_illegal hd s).symm
  · rw [reportedCode_command hd, exec_lastErr he]

/-! ## ERR_STICKY -/

/-- The word of ERR_CLR leaves ERR_STICKY 0 (42_control.md R151). -/
theorem issue_errClr_errSticky {s t : State} (h : issue 0x0000000002000000 s = .next t) :
    t.errSticky = false := by
  rw [issue_command (decode_eq_errClr_iff.mpr rfl), exec_errClr] at h
  injection h with h
  rw [← h]
  rfl

/-- Every other word sets ERR_STICKY when it ends in an error, and else leaves it alone. -/
theorem issue_errSticky {w : Word} {s t : State} (h : issue w s = .next t)
    (hw : w ≠ 0x0000000002000000) :
    t.errSticky = (decide (reportedCode w s ≠ 0x00) || s.errSticky) := by
  rw [← issue_lastErr_code h]
  obtain ⟨-, rfl⟩ | ⟨i, hd, he⟩ := issue_cases h
  · rfl
  · have hi : i ≠ .errClr := fun e => hw (decode_eq_errClr_iff.mp (e ▸ hd))
    obtain ⟨code, hc, rfl⟩ | ⟨-, rfl⟩ | ⟨rfl, -⟩ | ⟨-, -, rfl⟩ | ⟨_, -, -, -, rfl⟩ |
      ⟨_, _, -, -, -, -, rfl⟩ | ⟨_, -, -, -, -, rfl⟩ := exec_cases he
    · have hne : code.code ≠ 0x00 := mt ErrCode.code_eq_zero_iff.mp hc
      rw [raiseError_lastErr, decide_eq_true hne]
      rfl
    · rfl
    · exact absurd rfl hi
    all_goals rfl

/-- Settles O40: a step without a command leaves ERR_STICKY alone or resets it, and a command sets it
exactly when its reported code is an error, unless it is ERR_CLR. -/
theorem errStickyRecordsEveryError : Obligations.ErrStickyRecordsEveryError := by
  intro s t h
  obtain ⟨hi, hr, _, _, _, rfl⟩ | ⟨hi, hr, _, _, rfl⟩ | ⟨w, p, rs, hi, hr, h⟩ := step_next_cases h
  · simp +contextual [hi, hr]
  · simp [hi, hr, State.resetOf]
  · by_cases hw : w = 0x02000000#64
    · subst hw
      have ht := issue_errClr_errSticky h
      have h0 : reportedCode 0x02000000#64 s = 0#8 := rfl
      simp [hi, ht, h0]
    · have ht : t.errSticky = (decide (reportedCode w s ≠ 0x00) || s.errSticky) :=
        (issue_errSticky h hw).trans rfl
      simp +contextual [hi, hr, hw, ht]

/-- Settles O41: by `issue_lastErr_code` for a command; every other step but reset writes no field of
STATUS. -/
theorem lastErrIsTheLatestOutcome : Obligations.LastErrIsTheLatestOutcome := by
  intro s t h
  obtain ⟨hi, hr, _, _, _, rfl⟩ | ⟨hi, hr, _, _, rfl⟩ | ⟨w, p, rs, hi, hr, h⟩ := step_next_cases h
  · simp [hi]
  · simp [hi, hr]
  · have hc : t.lastErr.code = reportedCode w s := (issue_lastErr_code h).trans rfl
    simp [hi, hc]

end Sys2Proof.Machine
end

section
/-! The committed configuration over a step: a successful CFG_COMMIT, a reset, or no change
(10_state.md R23, R33). -/

namespace Sys2Proof.Machine

/-- A command that is no CFG_COMMIT of a valid configuration leaves the configuration, its table and
CFG_VALID alone. -/
theorem exec_config_frame {i : Instr} {s t : State} (h : exec i s = .next t)
    (hc : ¬ (i = .cfgCommit ∧ s.stg.Valid)) :
    t.cfgValid = s.cfgValid ∧ t.cfg = s.cfg ∧ t.table = s.table := by
  obtain ⟨_, -, rfl⟩ | ⟨-, rfl⟩ | ⟨-, rfl⟩ | ⟨rfl, hk, -⟩ | ⟨_, -, -, -, rfl⟩ |
    ⟨_, _, -, -, -, -, rfl⟩ | ⟨_, -, -, -, -, rfl⟩ := exec_cases h
  case inr.inr.inr.inl => exact absurd ⟨rfl, validate_eq_none_iff.mp hk⟩ hc
  all_goals exact ⟨rfl, rfl, rfl⟩

/-- So does every word that is no successful CFG_COMMIT. -/
theorem issue_config_frame {w : Word} {s t : State} (h : issue w s = .next t)
    (hc : ¬ (w = 0x0000000001000000 ∧ s.stg.Valid)) :
    t.cfgValid = s.cfgValid ∧ t.cfg = s.cfg ∧ t.table = s.table := by
  obtain ⟨-, rfl⟩ | ⟨i, hd, he⟩ := issue_cases h
  · exact ⟨rfl, rfl, rfl⟩
  · exact exec_config_frame he fun ⟨hi, hv⟩ => hc ⟨decode_eq_cfgCommit_iff.mp (hi ▸ hd), hv⟩

/-- The word of CFG_COMMIT under a valid staged configuration latches it (40_config_table.md R100). -/
theorem issue_cfgCommit_of_valid {s : State} (hv : s.stg.Valid) :
    issue 0x0000000001000000 s = .next (complete (latchConfig s)) := by
  rw [issue_command (decode_eq_cfgCommit_iff.mpr rfl), exec_cfgCommit, validate_eq_none_iff.mpr hv,
    endCommand_none]

/-- A step that issues no command is no successful CFG_COMMIT. -/
theorem not_committing_of_issuing_none {s : State} (h : s.issuing = none) : ¬ s.committing := by
  simp [State.committing, h]

/-- What a step does to the configuration: it is a successful CFG_COMMIT, a reset, or changes nothing
of it. -/
theorem step_config {s t : State} (h : step s = .next t) :
    (s.committing ∧ s.resetting = false ∧ t.cfgValid = true ∧ t.cfg = s.stg ∧
      t.table = s.stg.makeTable) ∨
    (¬ s.committing ∧ s.resetting = true ∧ t.cfgValid = false) ∨
    (¬ s.committing ∧ s.resetting = false ∧
      t.cfgValid = s.cfgValid ∧ t.cfg = s.cfg ∧ t.table = s.table) := by
  obtain ⟨hi, hr, _, _, _, rfl⟩ | ⟨hi, hr, _, _, rfl⟩ | ⟨w, p, rs, hi, hr, h⟩ := step_next_cases h
  · exact .inr (.inr ⟨not_committing_of_issuing_none hi, hr, rfl, rfl, rfl⟩)
  · exact .inr (.inl ⟨not_committing_of_issuing_none hi, hr, rfl⟩)
  · by_cases hc : s.committing
    · obtain ⟨hw, hv⟩ := hc
      obtain rfl : w = 0x0000000001000000 := Option.some.inj (hi.symm.trans hw)
      rw [issue_cfgCommit_of_valid (s := { s with pending := p, responses := rs }) hv] at h
      injection h with h
      subst h
      exact .inl ⟨⟨hw, hv⟩, hr, rfl, rfl, rfl⟩
    · have hf := issue_config_frame h fun ⟨hw, hv⟩ => hc ⟨hw ▸ hi, hv⟩
      exact .inr (.inr ⟨hc, hr, hf⟩)

/-- Settles O43: by the three cases of `step_config`. -/
theorem cfgValidIsSetByCommitOnly : Obligations.CfgValidIsSetByCommitOnly := by
  refine ⟨fun _ _ => rfl, fun s t h => ?_⟩
  obtain ⟨hc, hr, hv, -⟩ | ⟨hc, hr, hv⟩ | ⟨hc, hr, hv, -⟩ := step_config h <;> simp [hc, hr, hv]

/-- Settles O44: by the three cases of `step_config`. -/
theorem onlyCommitReplacesTheConfiguration : Obligations.OnlyCommitReplacesTheConfiguration := by
  intro s t h
  obtain ⟨hc, hr, -, hk, ht⟩ | ⟨hc, hr, -⟩ | ⟨hc, hr, -, hk, ht⟩ := step_config h
  · exact ⟨fun _ => ⟨hk, ht⟩, fun h => absurd hc h⟩
  · exact ⟨fun h => absurd h hc, fun _ h => nomatch hr.symm.trans h⟩
  · exact ⟨fun h => absurd h hc, fun _ _ => ⟨hk, ht⟩⟩

end Sys2Proof.Machine
end

section
/-! The state of a context over a step (10_state.md R34). -/

namespace Sys2Proof.Machine

/-- STATE reads 0, 1 or 2 (10_state.md R34). -/
theorem CtxState.code_toNat_le (x : CtxState) : x.code.toNat ≤ 2 := by
  cases x <;> decide

/-- Writing a context changes the STATE of that context only, and only to the written one. -/
theorem setCtx_state_changes {s : State} {c d : Nat} {x : Ctx} (hd : d < s.nCtx)
    (h : ((s.setCtx d x).ctx c).state ≠ (s.ctx c).state) :
    c = d ∧ ((s.setCtx d x).ctx c).state = x.state := by
  obtain rfl | hne := eq_or_ne c d
  · exact ⟨rfl, by rw [setCtx_ctx_self hd]⟩
  · exact absurd (by rw [setCtx_ctx_other hne]) h

/-- A command that changes the STATE of a context is a successful CFG_COMMIT, or CTX_START or CTX_FINAL
of that context. -/
theorem exec_state_changes {i : Instr} {s t : State} {c : Nat} (h : exec i s = .next t)
    (hne : (t.ctx c).state ≠ (s.ctx c).state) :
    (i = .cfgCommit ∧ s.stg.Valid ∧ (t.ctx c).state = .idle) ∨
    (i = .ctxStart c ∧ (t.ctx c).state = .active) ∨
    (i = .ctxFinal c ∧ (s.ctx c).state = .active ∧ (t.ctx c).state = .done) := by
  obtain ⟨_, -, rfl⟩ | ⟨-, rfl⟩ | ⟨-, rfl⟩ | ⟨hi, hk, rfl⟩ | ⟨d, hi, hd, -, rfl⟩ |
    ⟨d, _, -, hd, -, ha, rfl⟩ | ⟨d, hi, hd, -, ha, rfl⟩ := exec_cases h
  · exact absurd rfl hne
  · exact absurd rfl hne
  · exact absurd rfl hne
  · exact .inl ⟨hi, validate_eq_none_iff.mp hk, by rw [complete_ctx, latchConfig_ctx]; rfl⟩
  · obtain ⟨rfl, hx⟩ := setCtx_state_changes hd hne
    exact .inr (.inl ⟨hi, hx⟩)
  · obtain ⟨rfl, hx⟩ := setCtx_state_changes hd hne
    exact absurd (hx.trans ha.symm) hne
  · obtain ⟨rfl, hx⟩ := setCtx_state_changes hd hne
    exact .inr (.inr ⟨hi, ha, hx⟩)

/-- What a step that changes the STATE of a context is, and which STATE it leaves. -/
theorem step_state_changes {s t : State} {c : Nat} (h : step s = .next t)
    (hne : (t.ctx c).state ≠ (s.ctx c).state) :
    ((s.resetting = true ∨ s.committing) ∧ (t.ctx c).state = .idle) ∨
    ∃ w, s.issuing = some w ∧
      ((decode w = .command (.ctxStart c) ∧ (t.ctx c).state = .active) ∨
       (decode w = .command (.ctxFinal c) ∧ (s.ctx c).state = .active ∧ (t.ctx c).state = .done)) := by
  obtain ⟨-, -, _, _, _, rfl⟩ | ⟨-, hr, _, _, rfl⟩ | ⟨w, p, rs, hi, -, h⟩ := step_next_cases h
  · exact absurd rfl hne
  · exact .inl ⟨.inl hr, congrArg Ctx.state (replicate_ctx rfl c)⟩
  · obtain ⟨-, rfl⟩ | ⟨i, hd, he⟩ := issue_cases h
    · exact absurd rfl hne
    · obtain ⟨rfl, hv, hx⟩ | ⟨rfl, hx⟩ | ⟨rfl, ha, hx⟩ := exec_state_changes he hne
      · exact .inl ⟨.inr ⟨decode_eq_cfgCommit_iff.mp hd ▸ hi, hv⟩, hx⟩
      · exact .inr ⟨w, hi, .inl ⟨hd, hx⟩⟩
      · exact .inr ⟨w, hi, .inr ⟨hd, ha, hx⟩⟩

/-- Settles O45: `step_state_changes`, with the names of the states as register values. -/
theorem contextStateTransitions : Obligations.ContextStateTransitions := by
  intro s t h c _
  refine ⟨CtxState.code_toNat_le _, fun hne => ?_⟩
  simp only [State.readReg]
  obtain ⟨hc, hx⟩ | ⟨w, hi, ⟨hd, hx⟩ | ⟨hd, ha, hx⟩⟩ := step_state_changes h hne
  · exact .inl ⟨hc, by rw [hx]; rfl⟩
  · exact .inr ⟨w, hi, .inl ⟨hd, by rw [hx]; rfl⟩⟩
  · exact .inr ⟨w, hi, .inr ⟨hd, by rw [ha]; rfl, by rw [hx]; rfl⟩⟩

end Sys2Proof.Machine
end

section
/-! The registers that are views of the state: ID, STATUS and the two views of a result, and every
register after reset (10_state.md R21, R22, R26, R38 to R40). -/

namespace Sys2Proof.Machine

/-! ## ID -/

/-- ID as one number (10_state.md R21). -/
theorem idWord_toNat {s : State} (h : s.nCtx ≤ 8) : s.idWord.toNat = 0x43520007 + 0x100 * s.nCtx := by
  simp only [State.idWord, BitVec.toNat_append, BitVec.toNat_ofNat]
  rw [← Nat.shiftLeft_add_eq_or_of_lt (by omega), ← Nat.shiftLeft_add_eq_or_of_lt (by omega),
    ← Nat.shiftLeft_add_eq_or_of_lt (by omega)]
  simp only [Nat.shiftLeft_eq]
  omega

/-- ID reads nothing but N_CTX. -/
theorem idWord_congr {s t : State} (h : t.nCtx = s.nCtx) : t.idWord = s.idWord := by
  rw [State.idWord, State.idWord, h]

/-- Settles O10: the fields are read off the number. -/
theorem idIsTheBuildConstant : Obligations.IdIsTheBuildConstant := by
  refine ⟨fun s h => ?_, fun s => idWord_congr (applyReset_nCtx s), fun s h => ?_⟩
  · have hid : (s.readReg .id).toNat = 0x43520007 + 0x100 * s.nCtx := idWord_toNat h
    refine ⟨hid, ?_, ?_, ?_, ?_⟩ <;>
      simp only [← BitVec.toNat_inj, BitVec.extractLsb'_toNat, BitVec.toNat_ofNat,
        Nat.shiftRight_eq_div_pow, hid] <;> omega
  · rw [State.readReg, State.idWord, h]
    rfl

/-! ## STATUS -/

/-- A flag shifted to position k is bit k. -/
theorem flagBit_shiftLeft_getLsbD (b : Bool) {k : Nat} (hk : k < 64) (i : Nat) :
    (flagBit b <<< k).getLsbD i = (decide (i = k) && b) := by
  have h0 : ∀ j, (flagBit b).getLsbD j = (decide (j = 0) && b) := fun j => by cases j <;> simp [flagBit]
  rw [BitVec.getLsbD_shiftLeft, h0]
  obtain h | rfl | h := lt_trichotomy i k
  · simp [h, h.ne]
  · simp [hk]
  · simp [h.ne', show ¬ i - k = 0 by omega]

/-- A byte shifted to position k, clear of the word's end, stands from bit k on. -/
theorem toWord_shiftLeft_getLsbD (x : Byte) {k : Nat} (hk : k ≤ 56) (i : Nat) :
    (x.toWord <<< k).getLsbD i = (decide (k ≤ i) && x.getLsbD (i - k)) := by
  rw [BitVec.getLsbD_shiftLeft, BitVec.getLsbD_setWidth]
  obtain h | h := Nat.lt_or_ge i k
  · simp [h, show ¬ k ≤ i by omega]
  · obtain h64 | h64 := Nat.lt_or_ge i 64
    · simp [h64, h, show ¬ i < k by omega, show i - k < 64 by omega]
    · simp [BitVec.getLsbD_of_ge x (i - k) (by omega)]

/-- STATUS bit by bit (10_state.md R22). -/
theorem statusWord_getLsbD (s : State) (i : Nat) :
    s.statusWord.getLsbD i =
      (decide (i = 0) && s.cfgValid || decide (i = 1) && s.errSticky || decide (i = 2) && s.byteMode ||
        decide (8 ≤ i) && s.lastErr.code.getLsbD (i - 8)) := by
  rw [State.statusWord, ← BitVec.shiftLeft_zero (x := flagBit s.cfgValid)]
  simp only [BitVec.getLsbD_or]
  rw [flagBit_shiftLeft_getLsbD _ (by decide), flagBit_shiftLeft_getLsbD _ (by decide),
    flagBit_shiftLeft_getLsbD _ (by decide), toWord_shiftLeft_getLsbD _ (by decide)]

theorem byteMode_eq_true_iff {s : State} :
    s.byteMode = true ↔ s.cfgValid = true ∧ 8 ≤ s.cfg.bits.toNat := by
  rw [State.byteMode, Bool.and_eq_true, decide_eq_true_iff, BitVec.le_def]
  rfl

/-- Settles O11: each bit is one case of `statusWord_getLsbD`. -/
theorem statusFieldsReadAsSpecified : Obligations.StatusFieldsReadAsSpecified := by
  intro s
  simp only [State.readReg]
  refine ⟨?_, ?_, ?_, fun i h3 h7 => ?_, ?_, fun i h => ?_⟩
  · exact (statusWord_getLsbD s 0).trans (by simp)
  · exact (statusWord_getLsbD s 1).trans (by simp)
  · rw [← byteMode_eq_true_iff, statusWord_getLsbD]
    simp
  · simp [statusWord_getLsbD, show i ≠ 0 by omega, show i ≠ 1 by omega, show i ≠ 2 by omega,
      show ¬ 8 ≤ i by omega]
  · apply BitVec.eq_of_getLsbD_eq
    intro i hi
    rw [BitVec.getLsbD_extractLsb', statusWord_getLsbD]
    simp [hi, show 8 + i ≠ 1 by omega, show 8 + i ≠ 2 by omega]
  · simp [statusWord_getLsbD, show i ≠ 0 by omega, show i ≠ 1 by omega, show i ≠ 2 by omega,
      BitVec.getLsbD_of_ge s.lastErr.code (i - 8) (by omega)]

/-! ## RESULT_LEN and RESULT_BE -/

/-- A width of at most 64 has at most eight result bytes (10_state.md R39). -/
theorem resultLen_le {bits : Nat} (h : bits ≤ 64) : resultLen bits ≤ 8 := by
  unfold resultLen
  omega

theorem resultLenWord_of_done {s : State} {c : Nat} (hd : (s.ctx c).state = .done)
    (h : s.cfg.bits.toNat ≤ 64) : (s.resultLenWord c).toNat = resultLen s.cfg.bits.toNat := by
  have := resultLen_le h
  rw [State.resultLenWord, if_pos hd, BitVec.toNat_ofNat, Nat.mod_eq_of_lt (by omega)]

/-- Lane k of RESULT_BE is byte k of the result, and 0 past its end (10_state.md R38). -/
theorem resultBE_lane {s : State} {c k : Nat} (hd : (s.ctx c).state = .done) (hk : k ≤ 7) :
    lane (s.resultBE c) k = (serialize (s.ctx c).hash s.cfg.bits.toNat).getD k 0 := by
  rw [State.resultBE, if_pos hd, wordOfLanes_lane _ k hk]

/-- The memory image at the register of a context shows its lanes in order (20_memory.md R54). -/
theorem imageByte_ctxResultBE {s : State} {c k : Nat} (hc : c < s.nCtx) (h8 : c < 8) (hk : k ≤ 7) :
    s.imageByte (s.base + 0x100 + 0x20 * c + 0x10 + k) = some (lane (s.resultBE c) k) := by
  rw [State.imageByte, if_pos (by omega),
    show (s.base + 0x100 + 0x20 * c + 0x10 + k - s.base) / 8 * 8 = 0x100 + 0x20 * c + 0x10 by omega,
    show (s.base + 0x100 + 0x20 * c + 0x10 + k - s.base) % 8 = k by omega,
    regAt_ctx hc h8 (by omega)]
  rfl

/-- Settles O12: the lanes of RESULT_BE are the serialised bytes, at the register and in the window's
image; a context that is not DONE shows neither view. -/
theorem resultViewsPresentTheBytes : Obligations.ResultViewsPresentTheBytes := by
  intro s c
  simp only [State.readReg]
  refine ⟨fun hd _ hw L out hL hout => ?_, fun hd => ⟨if_neg hd, if_neg hd⟩⟩
  have hlen : L = resultLen s.cfg.bits.toNat := hL
  have h8 : L ≤ 8 := hlen ▸ resultLen_le hw
  have hout_len : out.length = L := by rw [hout, serialize_length, hlen]
  have hlane : ∀ k ≤ 7, lane (s.resultBE c) k = out.getD k 0 := fun k hk => hout ▸ resultBE_lane hd hk
  refine ⟨hlen ▸ resultLenWord_of_done hd hw, h8, hout_len, fun k hk => hlane k (by omega),
    fun k hk h7 => ?_, fun hc hn k hk => ?_⟩
  · rw [hlane k h7, List.getD_eq_default _ _ (by omega)]
  · rw [imageByte_ctxResultBE hc (by omega) (by omega), hlane k (by omega)]

/-! ## After reset -/

/-- Every register but ID reads 0 after reset (10_state.md R40). -/
theorem resetOf_readReg (nCtx base : Nat) {r : Reg} (h : r ≠ .id) :
    (State.resetOf nCtx base).readReg r = 0 := by
  have hctx : ∀ c, (State.resetOf nCtx base).ctx c = Ctx.idle := replicate_ctx rfl
  cases r with
  | id => exact absurd rfl h
  | ctxState c => simp only [State.readReg, hctx]; rfl
  | ctxHash c => simp only [State.readReg, hctx]; rfl
  | ctxResultBE c => simp only [State.readReg, State.resultBE, hctx]; rfl
  | ctxResultLen c => simp only [State.readReg, State.resultLenWord, hctx]; rfl
  | tableEntry i => exact zeroTable_getElem i.val i.isLt
  | status =>
    exact (by decide : flagBit false ||| flagBit false <<< 1 ||| flagBit false <<< 2 |||
      ErrCode.ok.code.toWord <<< 8 = 0)
  | _ => rfl

/-- Settles O51: the registers read 0, the contexts are IDLE, and the staged width 0 is out of range. -/
theorem resetValues : Obligations.ResetValues := by
  intro nCtx base
  have hn := resetOf_nCtx nCtx base
  refine ⟨hn, rfl, fun h8 => ?_, fun r => resetOf_readReg nCtx base, fun c hc => replicate_ctx rfl c, ?_⟩
  · rw [State.readReg, idWord_toNat (by omega), hn]
  · have hz : validate CrcConfig.zero = some .cfgBitsRange := by decide
    rw [exec_cfgCommit, show (State.resetOf nCtx base).stg = CrcConfig.zero from rfl, hz, endCommand_some]
    rfl

end Sys2Proof.Machine
end

section
/-! The map of the window: the register at an offset, in both directions, and the bytes of a register
in the window's memory image (20_memory.md R54, R57 to R59). -/

namespace Sys2Proof.Machine

/-! ## The register at an offset -/

/-- What a list of rows answers is one of its rows. -/
theorem mem_of_lookup_eq_some {rows : List (Nat × Reg)} {off : Nat} {r : Reg}
    (h : rows.lookup off = some r) : (off, r) ∈ rows := by
  obtain ⟨before, after, hrows, -⟩ := List.lookup_eq_some_iff.mp h
  rw [hrows]
  exact List.mem_append_right _ List.mem_cons_self

/-- A register of a CRCU with fewer contexts is one of a CRCU with more. -/
theorem present_mono {m n : Nat} (hmn : m ≤ n) {r : Reg} (h : r.present m = true) :
    r.present n = true := by
  cases r with
  | ctxState c | ctxHash c | ctxResultBE c | ctxResultLen c =>
    exact decide_eq_true (Nat.lt_of_lt_of_le (of_decide_eq_true h) hmn)
  | _ => rfl

/-- A fixed row names a register of every CRCU, at its own offset. -/
theorem fixedRegs_row {off : Nat} {r : Reg} (h : (off, r) ∈ fixedRegs) :
    r.offset = off ∧ ∀ nCtx, r.present nCtx = true := by
  have hrows : ∀ row ∈ fixedRegs, row.2.offset = row.1 ∧ row.2.present 0 = true := by decide
  obtain ⟨hoff, hp⟩ := hrows _ h
  exact ⟨hoff, fun nCtx => present_mono (Nat.zero_le nCtx) hp⟩

/-- A row of context c's window names a register of that context, at its own offset. -/
theorem ctxRegs_row {c j : Nat} {r : Reg} (h : (j, r) ∈ ctxRegs c) :
    r.offset = 0x100 + 0x20 * c + j ∧ ∀ nCtx, c < nCtx → r.present nCtx = true := by
  simp only [ctxRegs, List.mem_cons, List.not_mem_nil, or_false, Prod.mk.injEq] at h
  rcases h with ⟨rfl, rfl⟩ | ⟨rfl, rfl⟩ | ⟨rfl, rfl⟩ | ⟨rfl, rfl⟩ <;>
    exact ⟨rfl, fun _ hc => decide_eq_true hc⟩

/-- A mapped offset is that of a register the CRCU has, and the map holds no context past the eighth:
`r.present 8` (20_memory.md R57, R58). -/
theorem regAt_sound {nCtx off : Nat} {r : Reg} (h : regAt nCtx off = some r) :
    r.present nCtx = true ∧ r.present 8 = true ∧ r.offset = off := by
  unfold regAt at h
  split_ifs at h
  · obtain ⟨hoff, hp⟩ := fixedRegs_row (mem_of_lookup_eq_some h)
    exact ⟨hp nCtx, hp 8, hoff⟩
  · obtain ⟨hoff, hp⟩ := ctxRegs_row (mem_of_lookup_eq_some h)
    exact ⟨hp nCtx (by assumption), hp 8 (by omega), by omega⟩
  · obtain rfl := Option.some.inj h
    refine ⟨rfl, rfl, ?_⟩
    simp only [Reg.offset]
    omega

/-- Every register the CRCU has is mapped at its offset (20_memory.md R57). -/
theorem regAt_offset {nCtx : Nat} {r : Reg} (hn : r.present nCtx = true) (h8 : r.present 8 = true) :
    regAt nCtx r.offset = some r := by
  cases r with
  | ctxState c => exact regAt_ctx (j := 0x00) (of_decide_eq_true hn) (of_decide_eq_true h8) (by decide)
  | ctxHash c => exact regAt_ctx (j := 0x08) (of_decide_eq_true hn) (of_decide_eq_true h8) (by decide)
  | ctxResultBE c =>
    exact regAt_ctx (j := 0x10) (of_decide_eq_true hn) (of_decide_eq_true h8) (by decide)
  | ctxResultLen c =>
    exact regAt_ctx (j := 0x18) (of_decide_eq_true hn) (of_decide_eq_true h8) (by decide)
  | tableEntry i => exact regAt_table nCtx i
  | _ => rfl

/-- The map, for every number of contexts: the registers present, each at its own offset. -/
theorem regAt_eq_some_iff {nCtx off : Nat} {r : Reg} :
    regAt nCtx off = some r ↔ r.present nCtx = true ∧ r.present 8 = true ∧ r.offset = off :=
  ⟨regAt_sound, fun ⟨hn, h8, hoff⟩ => hoff ▸ regAt_offset hn h8⟩

/-- Where the map has registers: three fixed groups, the contexts' windows and the table
(20_memory.md R57). -/
theorem offset_ranges {r : Reg} (h8 : r.present 8 = true) :
    r.offset < 0x018 ∨ (0x040 ≤ r.offset ∧ r.offset < 0x068) ∨ (0x080 ≤ r.offset ∧ r.offset < 0x0A8) ∨
    (0x100 ≤ r.offset ∧ r.offset < 0x200) ∨ (0x800 ≤ r.offset ∧ r.offset < 0x1000) := by
  cases r with
  | ctxState c | ctxHash c | ctxResultBE c | ctxResultLen c =>
    have hc : c < 8 := of_decide_eq_true h8
    simp only [Reg.offset]
    omega
  | tableEntry i =>
    have hi := i.isLt
    simp only [Reg.offset]
    omega
  | _ => simp [Reg.offset]

/-- Every offset is a multiple of 8 (20_memory.md R57). -/
theorem offset_mod_eight (r : Reg) : r.offset % 8 = 0 := by
  cases r with
  | ctxState c | ctxHash c | ctxResultBE c | ctxResultLen c | tableEntry i =>
    simp only [Reg.offset]
    omega
  | _ => rfl

/-- Settles O13: the map is `regAt_eq_some_iff`; no register stands in a gap by `offset_ranges`, and none
in the window of a context at N_CTX or above by `regAt_ctx_absent`. -/
theorem registerMapIsExact : Obligations.RegisterMapIsExact := by
  refine ⟨fun nCtx off hn r => ?_, fun off hgap nCtx => ?_, fun nCtx c off hc hlo hhi h2 => ?_⟩
  · rw [regAt_eq_some_iff]
    exact ⟨fun ⟨hp, _, hoff⟩ => ⟨hp, hoff⟩, fun ⟨hp, hoff⟩ => ⟨hp, present_mono hn hp, hoff⟩⟩
  · rw [Option.eq_none_iff_forall_ne_some]
    intro r h
    obtain ⟨-, h8, hoff⟩ := regAt_sound h
    have := offset_ranges h8
    omega
  · have h := regAt_ctx_absent hc (by omega) (show off - (0x100 + 0x20 * c) < 0x20 by omega)
    rwa [show 0x100 + 0x20 * c + (off - (0x100 + 0x20 * c)) = off by omega] at h

/-! ## The window's memory image -/

/-- Byte k of a register present is lane k of its value (20_memory.md R54). -/
theorem imageByte_offset {s : State} {r : Reg} {k : Nat} (hn : s.nCtx ≤ 8)
    (hp : r.present s.nCtx = true) (hk : k ≤ 7) :
    s.imageByte (s.base + r.offset + k) = some (lane (s.readReg r) k) := by
  have hmod := offset_mod_eight r
  rw [State.imageByte, if_pos (by omega), show (s.base + r.offset + k - s.base) / 8 * 8 = r.offset by omega,
    show (s.base + r.offset + k - s.base) % 8 = k by omega, regAt_offset hp (present_mono hn hp)]
  rfl

/-- Settles O18: `imageByte_offset`, where lane k is by definition bits 8k+7 to 8k. -/
theorem busLanesAreLittleEndian : Obligations.BusLanesAreLittleEndian :=
  fun _ _ _ hn hp hk => imageByte_offset hn hp hk

/-- A byte of the window is unchanged when the register that covers it reads as before. -/
theorem imageByte_eq_of_readReg {s t : State} {a : Nat} (hb : t.base = s.base) (hn : t.nCtx = s.nCtx)
    (h : ∀ r : Reg, r.present 8 = true → s.base + r.offset ≤ a → a < s.base + r.offset + 8 →
      t.readReg r = s.readReg r) :
    t.imageByte a = s.imageByte a := by
  refine imageByte_congr hb hn a fun r hr hle => ?_
  obtain ⟨-, h8, hoff⟩ := regAt_sound hr
  exact h r h8 (by omega) (by omega)

end Sys2Proof.Machine
end

section
/-! One access of the host: which are admitted, and the step that serves it (20_memory.md R51 to R53,
R62). -/

namespace Sys2Proof.Machine

/-! ## Admission -/

/-- What is admitted: an 8-byte access at the offset of a register present (20_memory.md R51). -/
theorem admitted_eq_some_iff {s : State} {addr n : Nat} {r : Reg} :
    s.admitted addr n = some r ↔
      n = 8 ∧ s.base ≤ addr ∧ r.present s.nCtx = true ∧ r.present 8 = true ∧
        r.offset = addr - s.base := by
  unfold State.admitted
  split
  · next h =>
    obtain ⟨h8, hle, -, -⟩ := h
    rw [regAt_eq_some_iff]
    exact ⟨fun hr => ⟨h8, hle, hr⟩, fun ⟨_, _, hr⟩ => hr⟩
  · next h =>
    refine ⟨fun hr => (nomatch hr), fun ⟨hn, hle, _, h8, hoff⟩ => absurd ⟨hn, hle, ?_, ?_⟩ h⟩
    · have := offset_ranges h8
      have := offset_mod_eight r
      omega
    · exact hoff ▸ offset_mod_eight r

/-- An access outside the window is not admitted. -/
theorem admitted_outside {s : State} {addr : Nat} (h : addr < s.base ∨ s.base + 0xFFF < addr) (n : Nat) :
    s.admitted addr n = none :=
  if_neg (by omega)

/-! ## The step that serves an access -/

/-- A step answers the access at the head of the host's list from the state it finds, and then has the
access's effect. -/
theorem step_access {s : State} {a : Access} {rest : List HostEvent}
    (h : s.pending = .access a :: rest) :
    step s =
      accessEffect a { s with pending := rest, responses := s.responses ++ [s.answer a] } := by
  rw [step_cons h]
  cases a <;> rfl

/-- An admitted read returns the register's value (20_memory.md R51). -/
theorem step_read {s : State} {addr n : Nat} {rest : List HostEvent} {r : Reg}
    (h : s.pending = .access (.read addr n) :: rest) (ha : s.admitted addr n = some r) :
    step s = .next { s with pending := rest, responses := s.responses ++ [.data (s.readReg r)] } := by
  rw [step_access h, State.answer, ha]
  rfl

/-- An admitted write completes with its register's effect (20_memory.md R53). -/
theorem step_write {s : State} {addr n : Nat} {v : Word} {rest : List HostEvent} {r : Reg}
    (h : s.pending = .access (.write addr n v) :: rest) (ha : s.admitted addr n = some r) :
    step s = writeReg r v { s with pending := rest, responses := s.responses ++ [.done] } := by
  have ha' : ∀ rs, ({ s with pending := rest, responses := rs } : State).admitted addr n = some r :=
    fun _ => ha
  rw [step_access h, accessEffect, ha', State.answer, ha]

/-- Every other access is answered BusError and has no effect (20_memory.md R52). -/
theorem step_busError {s : State} {a : Access} {addr n : Nat} {rest : List HostEvent}
    (h : s.pending = .access a :: rest) (haddr : a = .read addr n ∨ ∃ v, a = .write addr n v)
    (hna : s.admitted addr n = none) :
    step s = .next { s with pending := rest, responses := s.responses ++ [.busError] } := by
  have hna' : ∀ rs, ({ s with pending := rest, responses := rs } : State).admitted addr n = none :=
    fun _ => hna
  rw [step_access h]
  obtain rfl | ⟨v, rfl⟩ := haddr
  · rw [accessEffect, State.answer, hna]
  · rw [accessEffect, hna', State.answer, hna]

/-- Settles O14: `admitted_eq_some_iff` says which accesses are admitted, and `step_read`, `step_write`
and `step_busError` what each access does. -/
theorem onlyAdmittedAccessesAreServed : Obligations.OnlyAdmittedAccessesAreServed := by
  intro s a addr n rest hn hp ha hbase _
  refine ⟨fun r h8 _ _ hr hoff => ?_, fun hno => step_busError hp ha ?_⟩
  · have hadm : s.admitted addr n = some r :=
      admitted_eq_some_iff.mpr ⟨h8, hbase, hr, present_mono hn hr, hoff⟩
    exact ⟨fun hread => step_read (hread ▸ hp) hadm, fun v hwrite => step_write (hwrite ▸ hp) hadm⟩
  · rw [Option.eq_none_iff_forall_ne_some]
    intro r hadm
    obtain ⟨h8, -, hr, hr8, hoff⟩ := admitted_eq_some_iff.mp hadm
    have := offset_ranges hr8
    have := offset_mod_eight r
    exact hno ⟨h8, by omega, by omega, r, hr, hoff⟩

/-- Settles O15: no access outside the window is admitted. -/
theorem accessesOutsideTheWindowAreBusErrors : Obligations.AccessesOutsideTheWindowAreBusErrors :=
  fun _ _ _ n _ hp ha hout => step_busError hp ha (admitted_outside hout n)

/-- The command a table row's number reads as is that of its word (30_encoding.md R71). -/
theorem decode_tableWord {nbits w : Nat} {i : Instr} (h : decodeTableWord nbits w = some i) :
    decode (tableWord nbits w) = .command i := by
  unfold decodeTableWord at h
  split at h
  · split at h
    next hd => rw [hd, Option.some.inj h]
    next => exact nomatch h
  · exact nomatch h

/-- Settles O6: the write at the head of the list is admitted to CMD, and the word is issued; the write
of `withFetchWord` is such a one. -/
theorem stepRunsTheDecodedCommand : Obligations.StepRunsTheDecodedCommand := by
  have hserve : ∀ (s : State) (w : Word) (i : Instr) (rest : List HostEvent),
      s.pending = .access (.write (s.base + 0x010) 8 w) :: rest → decode w = .command i →
      step s = exec i { s with pending := rest, responses := s.responses ++ [.done] } := by
    intro s w i rest hp hd
    rw [step_write hp (admitted_cmd s)]
    exact issue_command hd _
  exact ⟨hserve, fun s w i hd => hserve (s.withFetchWord 64 w) _ i s.pending rfl (decode_tableWord hd)⟩

/-! ## The table window -/

/-- The table window is admitted in every state (20_memory.md R59). -/
theorem admitted_table (s : State) (i : Fin 256) :
    s.admitted (s.base + 0x800 + 8 * i.val) 8 = some (.tableEntry i) := by
  refine admitted_eq_some_iff.mpr ⟨rfl, by omega, rfl, rfl, ?_⟩
  simp only [Reg.offset]
  omega

/-- In bit mode the unused entries of the machine's table are 0 (10_state.md R36). -/
theorem State.Inv.table_unused {s : State} (h : s.Inv) (hb : s.cfg.bits.toNat < 8) {i : Fin 256}
    (hi : 2 ≤ i.val) : s.table[i] = 0 := by
  rw [Fin.getElem_fin]
  cases hv : s.cfgValid with
  | false => rw [h.table_zero hv, zeroTable_getElem]
  | true =>
    rw [h.table_built hv, CrcConfig.makeTable, generateTable_getElem]
    exact tableEntry_of_ge _ _ (by rwa [tableSize_bit hb])

/-- Settles O19: the read is admitted to the table entry, whatever the mode. -/
theorem tableWindowIsMappedInFull : Obligations.TableWindowIsMappedInFull :=
  fun s i _ hp => ⟨step_read hp (admitted_table s i), fun hinv hb hi => hinv.table_unused hb hi⟩

/-! ## Access types -/

/-- A write to a register that is neither CMD nor STG_* is ignored (20_memory.md R53). -/
theorem writeReg_readOnly {r : Reg} (hr : r ∉ [.cmd, .stgBits, .stgPoly, .stgInit, .stgXorout, .stgFlags])
    (v : Word) (s : State) : writeReg r v s = .next s := by
  cases r with
  | cmd | stgBits | stgPoly | stgInit | stgXorout | stgFlags => simp at hr
  | _ => rfl

/-- A write to a staging register that keeps all its bits stores the value, and storing it again changes
nothing more (10_state.md R28). -/
theorem writeReg_staging {r : Reg} (hr : r ∈ [Reg.stgBits, .stgPoly, .stgInit, .stgXorout]) (v : Word)
    (s : State) : ∃ t, writeReg r v s = .next t ∧ t.readReg r = v ∧ writeReg r v t = .next t := by
  simp only [List.mem_cons, List.not_mem_nil, or_false] at hr
  rcases hr with rfl | rfl | rfl | rfl <;> exact ⟨_, rfl, rfl, rfl⟩

/-- The two implemented bits of STG_FLAGS, read back (10_state.md R29). -/
theorem setWidth_two_eq_and (v : Word) : (v.setWidth 2).setWidth 64 = v &&& 3 := by
  apply BitVec.eq_of_toNat_eq
  rw [BitVec.toNat_and, show (3 : Word).toNat = 2 ^ 2 - 1 by decide, Nat.and_two_pow_sub_one_eq_mod,
    BitVec.toNat_setWidth, BitVec.toNat_setWidth, Nat.mod_eq_of_lt (by omega)]

/-- A CRCU of one context, reached from reset by staging CRC-8, CFG_COMMIT and CTX_START 0. -/
def oneActiveContext : State :=
  complete ((latchConfig { State.resetOf 1 0 with stg := ⟨8, 0x07, 0, 0, 0⟩ }).setCtx 0 ⟨.active, 0⟩)

/-- The first CTX_FINAL there succeeds and leaves the context DONE. -/
theorem ctxFinal_oneActiveContext : exec (.ctxFinal 0) oneActiveContext =
    .next (complete (oneActiveContext.setCtx 0 ⟨.done, finalize oneActiveContext.cfg 0⟩)) := rfl

/-- Settles O16: by the access types, and CTX_FINAL written twice is a success and then CTX_STATE. -/
theorem registersFollowTheirAccessType : Obligations.RegistersFollowTheirAccessType := by
  refine ⟨fun _ _ _ => rfl, fun s v => ⟨fun r hr => writeReg_readOnly hr v s,
    fun r hr => writeReg_staging hr v s, ⟨_, rfl, setWidth_two_eq_and v, rfl⟩, rfl, rfl⟩, ?_⟩
  have hd : decode 0x12000000 = .command (.ctxFinal 0) := by decide
  refine ⟨oneActiveContext, _, raiseError .ctxState _, 0x12000000,
    (issue_command hd _).trans ctxFinal_oneActiveContext, issue_command hd _, fun h => ?_⟩
  exact nomatch congrArg State.lastErr h

end Sys2Proof.Machine
end

section
/-! What a command leaves unchanged: the build's parameters and the host's lists, and every register but
STATUS and those of its own rule (20_memory.md R67). -/

namespace Sys2Proof.Machine

/-- No command changes BASE, N_CTX, the host's list and its answers. -/
theorem exec_host_frame {i : Instr} {s t : State} (h : exec i s = .next t) :
    t.base = s.base ∧ t.nCtx = s.nCtx ∧ t.pending = s.pending ∧ t.responses = s.responses := by
  obtain ⟨_, -, rfl⟩ | ⟨-, rfl⟩ | ⟨-, rfl⟩ | ⟨-, -, rfl⟩ | ⟨_, -, -, -, rfl⟩ |
    ⟨_, _, -, -, -, -, rfl⟩ | ⟨_, -, -, -, -, rfl⟩ := exec_cases h <;>
    refine ⟨rfl, ?_, rfl, rfl⟩ <;> simp [State.nCtx]

theorem exec_nCtx {i : Instr} {s t : State} (h : exec i s = .next t) : t.nCtx = s.nCtx := by
  obtain ⟨-, hn, -⟩ := exec_host_frame h
  exact hn

/-- No word changes them, legal or not. -/
theorem issue_host_frame {w : Word} {s t : State} (h : issue w s = .next t) :
    t.base = s.base ∧ t.nCtx = s.nCtx ∧ t.pending = s.pending ∧ t.responses = s.responses := by
  obtain ⟨-, rfl⟩ | ⟨i, -, he⟩ := issue_cases h
  · exact ⟨rfl, rfl, rfl, rfl⟩
  · exact exec_host_frame he

/-- ERR_STICKY is read in STATUS only. -/
theorem readReg_errSticky {r : Reg} (h : r ≠ .status) (b : Bool) (s : State) :
    ({ s with errSticky := b } : State).readReg r = s.readReg r := by
  cases r with
  | status => exact absurd rfl h
  | _ => rfl

/-- A commit is read in STATUS, CFG_*, the contexts' windows and the table only
(40_config_table.md R100). -/
theorem readReg_latchConfig {r : Reg} (h8 : r.present 8 = true) (hst : r ≠ .status)
    (hcfg : ¬ (0x080 ≤ r.offset ∧ r.offset < 0x0A8)) (hctx : ¬ (0x100 ≤ r.offset ∧ r.offset < 0x200))
    (htab : ¬ (0x800 ≤ r.offset ∧ r.offset < 0x1000)) (s : State) :
    (latchConfig s).readReg r = s.readReg r := by
  cases r with
  | id => exact idWord_congr (latchConfig_nCtx s)
  | status => exact absurd rfl hst
  | cfgBits | cfgPoly | cfgInit | cfgXorout | cfgFlags => exact absurd (by decide) hcfg
  | ctxState c | ctxHash c | ctxResultBE c | ctxResultLen c =>
    have hc : c < 8 := of_decide_eq_true h8
    simp only [Reg.offset] at hctx
    omega
  | tableEntry i =>
    have hi := i.isLt
    simp only [Reg.offset] at htab
    omega
  | _ => rfl

/-- Writing a context is read in that context's window only. -/
theorem readReg_setCtx_outside {c : Nat} {r : Reg}
    (h : ¬ (0x100 + 0x20 * c ≤ r.offset ∧ r.offset < 0x120 + 0x20 * c)) (s : State) (x : Ctx) :
    (s.setCtx c x).readReg r = s.readReg r := by
  apply readReg_setCtx <;> rintro rfl <;> simp only [Reg.offset] at h <;> omega

/-- The registers a command can change, by their offsets: STATUS, the window of the context it names,
and for CFG_COMMIT those that `readReg_latchConfig` leaves open. -/
theorem exec_readReg {i : Instr} {s t : State} {r : Reg} (h : exec i s = .next t)
    (h8 : r.present 8 = true) (hst : r ≠ .status)
    (hctx : ∀ c, ctxOperand i = some c →
      ¬ (0x100 + 0x20 * c ≤ r.offset ∧ r.offset < 0x120 + 0x20 * c))
    (hcommit : i = .cfgCommit → ¬ (0x080 ≤ r.offset ∧ r.offset < 0x0A8) ∧
      ¬ (0x100 ≤ r.offset ∧ r.offset < 0x200) ∧ ¬ (0x800 ≤ r.offset ∧ r.offset < 0x1000)) :
    t.readReg r = s.readReg r := by
  obtain ⟨code, -, rfl⟩ | ⟨-, rfl⟩ | ⟨-, rfl⟩ | ⟨hi, -, rfl⟩ | ⟨c, rfl, -, -, rfl⟩ |
    ⟨c, _, rfl, -, -, -, rfl⟩ | ⟨c, rfl, -, -, -, rfl⟩ := exec_cases h
  · exact readReg_raiseError hst code s
  · exact readReg_complete hst s
  · rw [readReg_complete hst, readReg_errSticky hst]
  · obtain ⟨h1, h2, h3⟩ := hcommit hi
    rw [readReg_complete hst, readReg_latchConfig h8 hst h1 h2 h3]
  all_goals rw [readReg_complete hst, readReg_setCtx_outside (hctx c rfl)]

/-- Settles O47: a byte belongs to one register, and `exec_readReg` says which registers a command can
change. -/
theorem commandFrames : Obligations.CommandFrames := by
  intro i s t a _ h
  obtain ⟨hb, hn, hp, hr⟩ := exec_host_frame h
  refine ⟨⟨hb, hn, hp, hr⟩, fun hst => ?_⟩
  have hne : ∀ r : Reg, s.base + r.offset ≤ a → a < s.base + r.offset + 8 → r ≠ .status := by
    rintro r hlo hhi rfl
    exact hst ⟨hlo, hhi⟩
  refine ⟨fun hnone hi => ?_, fun c hc hout => ?_, fun hi hcfg hctx htab => ?_⟩ <;>
    refine imageByte_eq_of_readReg hb hn fun r h8 hlo hhi => exec_readReg h h8 (hne r hlo hhi) ?_ ?_
  · exact fun c hc => nomatch hnone.symm.trans hc
  · exact fun e => absurd e hi
  · intro d hd
    obtain rfl : c = d := Option.some.inj (hc.symm.trans hd)
    have := offset_mod_eight r
    omega
  · rintro rfl
    exact nomatch hc
  · rintro c hc
    subst hi
    exact nomatch hc
  · have := offset_mod_eight r
    exact fun _ => by omega

end Sys2Proof.Machine
end

section
/-! Serving a list of accesses, one answer each, in the order issued (20_memory.md R62). -/

namespace Sys2Proof.Machine

/-- A write to any register leaves the host's list and its answers alone. -/
theorem writeReg_host_frame {r : Reg} {v : Word} {s t : State} (h : writeReg r v s = .next t) :
    t.pending = s.pending ∧ t.responses = s.responses := by
  by_cases hr : r = .cmd
  · subst hr
    obtain ⟨-, -, hp, hrs⟩ := issue_host_frame h
    exact ⟨hp, hrs⟩
  · obtain ⟨k, hk⟩ := writeReg_quiet hr v s
    injection hk.symm.trans h with ht
    subst ht
    exact ⟨rfl, rfl⟩

/-- Every write ends in a next state. -/
theorem writeReg_next (r : Reg) (v : Word) (s : State) : ∃ t, writeReg r v s = .next t := by
  by_cases hr : r = .cmd
  · subst hr
    exact issue_next v s
  · exact (writeReg_quiet hr v s).imp' _ fun _ h => h

/-- A step that serves an access takes it from the list and gives it one answer. -/
theorem step_access_answers {s : State} {a : Access} {rest : List HostEvent}
    (h : s.pending = .access a :: rest) :
    ∃ t, step s = .next t ∧ t.pending = rest ∧ t.responses = s.responses ++ [s.answer a] := by
  cases a with
  | read addr n => exact ⟨_, step_access h, rfl, rfl⟩
  | write addr n v =>
    cases ha : s.admitted addr n with
    | none => exact ⟨_, step_busError h (.inr ⟨v, rfl⟩) ha, rfl, by rw [State.answer, ha]⟩
    | some r =>
      rw [step_write h ha, State.answer, ha]
      obtain ⟨t, ht⟩ := writeReg_next r v { s with pending := rest, responses := s.responses ++ [.done] }
      exact ⟨t, ht, writeReg_host_frame ht⟩

/-- Running m steps and then n is running m + n. -/
theorem run_add {m : Nat} (n : Nat) {s t : State} (h : Host.Core.run core m s = .next t) :
    Host.Core.run core (m + n) s = Host.Core.run core n t := by
  induction m generalizing s with
  | zero =>
    injection h with h
    rw [Nat.zero_add, ← h]
  | succ m ih =>
    cases hs : step s with
    | next u =>
      rw [run_succ hs] at h
      rw [Nat.add_right_comm, run_succ hs, ih h]
    | fault r => exact nomatch r
    | refused r => simp [Host.Core.run, show core.step s = .refused r from hs] at h

/-- Serving the accesses at the head of the host's list: each is answered once, the first of them from
the state the run starts in. -/
theorem run_accesses (accesses : List Access) {s : State} {rest : List HostEvent}
    (h : s.pending = accesses.map .access ++ rest) :
    ∃ t answers, Host.Core.run core accesses.length s = .next t ∧ t.pending = rest ∧
      t.responses = s.responses ++ answers ∧ answers.length = accesses.length ∧
      answers.head? = accesses.head?.map s.answer := by
  induction accesses generalizing s with
  | nil => exact ⟨s, [], rfl, h, (List.append_nil _).symm, rfl, rfl⟩
  | cons a as ih =>
    obtain ⟨u, hstep, hp, hr⟩ := step_access_answers h
    obtain ⟨t, answers, hrun, hpt, hrt, hlen, -⟩ := ih hp
    refine ⟨t, s.answer a :: answers, (run_succ hstep _).trans hrun, hpt, ?_, congrArg _ hlen, rfl⟩
    rw [hrt, hr, List.append_assoc]
    rfl

/-- Settles O20: the two runs are two uses of `run_accesses`, composed by `run_add`. -/
theorem accessesAreServedInIssueOrder : Obligations.AccessesAreServedInIssueOrder := by
  intro s first second h
  rw [List.map_append] at h
  obtain ⟨t, answers, hrun, hpt, hrt, hlen, -⟩ := run_accesses first h
  obtain ⟨u, later, hrun', hpu, hru, -, hhead⟩ :=
    run_accesses (rest := []) second (hpt.trans (List.append_nil _).symm)
  refine ⟨t, u, hrun, hpt, hrun', ?_, hpu, ⟨answers, hrt, hlen⟩, ?_⟩
  · rw [List.length_append, run_add _ hrun, hrun']
  · rintro a more rfl
    obtain ⟨tail, rfl⟩ := List.head?_eq_some_iff.mp hhead
    exact ⟨tail, hru⟩

end Sys2Proof.Machine
end

section
/-! A context command reads and writes its own context, and nothing of another (20_memory.md R67). -/

namespace Sys2Proof.Machine

/-- What a successful context command writes into the context it names; `exec_ctxOperand` ties it to
`exec`. The commands that name no context write none. -/
def writtenCtx (s : State) : Instr → Ctx
  | .ctxStart _ => ⟨.active, seed s.cfg⟩
  | .ctxFold c b => ⟨.active, fold s.cfg s.table (s.ctx c).hash b⟩
  | .ctxFinal c => ⟨.done, finalize s.cfg (s.ctx c).hash⟩
  | .nop => Ctx.idle
  | .cfgCommit => Ctx.idle
  | .errClr => Ctx.idle

/-- A context command is its checks, and then one write to the context it names. -/
theorem exec_ctxOperand {i : Instr} {c : Nat} (hc : ctxOperand i = some c) (s : State) :
    exec i s = endCommand (failureOf s i) (fun s => s.setCtx c (writtenCtx s i)) s := by
  cases i with
  | nop | cfgCommit | errClr => exact nomatch hc
  | ctxStart d | ctxFold d b | ctxFinal d =>
    obtain rfl : d = c := Option.some.inj hc
    rfl

/-- The checks of a context command pass only for a context the machine has (60_exceptions.md R161). -/
theorem lt_nCtx_of_failureOf {i : Instr} {c : Nat} (hc : ctxOperand i = some c) {s : State}
    (h : failureOf s i = none) : c < s.nCtx := by
  cases i with
  | nop | cfgCommit | errClr => exact nomatch hc
  | ctxStart d =>
    obtain rfl : d = c := Option.some.inj hc
    exact (startFailure_eq_none.mp h).1
  | ctxFold d b | ctxFinal d =>
    obtain rfl : d = c := Option.some.inj hc
    exact (activeFailure_eq_none.mp h).1

/-- A context command ends in an error entry, or its context holds what it wrote. -/
theorem exec_ctxOperand_cases {i : Instr} {c : Nat} (hc : ctxOperand i = some c) {s t : State}
    (h : exec i s = .next t) :
    (∃ code, failureOf s i = some code ∧ t = raiseError code s) ∨
      (failureOf s i = none ∧ c < s.nCtx ∧ t = complete (s.setCtx c (writtenCtx s i))) := by
  rw [exec_ctxOperand hc] at h
  obtain hfail | ⟨hf, ht⟩ := endCommand_cases h
  · exact .inl hfail
  · exact .inr ⟨hf, lt_nCtx_of_failureOf hc hf, ht⟩

/-- A context command changes no other context. -/
theorem exec_ctx_other {i : Instr} {c d : Nat} (hc : ctxOperand i = some c) {s t : State}
    (h : exec i s = .next t) (hd : d ≠ c) : t.ctx d = s.ctx d := by
  obtain ⟨_, -, rfl⟩ | ⟨-, -, rfl⟩ := exec_ctxOperand_cases hc h
  · rfl
  · exact setCtx_ctx_other hd s _

/-- Nor the shared state: N_CTX, CFG_VALID, the configuration, the table and the staging registers. -/
theorem exec_ctxOperand_shared {i : Instr} {c : Nat} (hc : ctxOperand i = some c) {s t : State}
    (h : exec i s = .next t) :
    t.nCtx = s.nCtx ∧ t.cfgValid = s.cfgValid ∧ t.cfg = s.cfg ∧ t.table = s.table ∧ t.stg = s.stg := by
  obtain ⟨_, -, rfl⟩ | ⟨-, -, rfl⟩ := exec_ctxOperand_cases hc h
  · exact ⟨rfl, rfl, rfl, rfl, rfl⟩
  · exact ⟨setCtx_nCtx s c _, rfl, rfl, rfl, rfl⟩

/-- What a context command reads: N_CTX, CFG_VALID, the configuration, the table and its context. -/
structure SameInputs (c : Nat) (s s' : State) : Prop where
  nCtx : s.nCtx = s'.nCtx
  cfgValid : s.cfgValid = s'.cfgValid
  cfg : s.cfg = s'.cfg
  table : s.table = s'.table
  ctx : s.ctx c = s'.ctx c

/-- A command of one context leaves the inputs of a command of another. -/
theorem exec_sameInputs {i : Instr} {c d : Nat} (hc : ctxOperand i = some c) {s t : State}
    (h : exec i s = .next t) (hd : d ≠ c) : SameInputs d t s := by
  obtain ⟨hn, hv, hk, ht, -⟩ := exec_ctxOperand_shared hc h
  exact ⟨hn, hv, hk, ht, exec_ctx_other hc h hd⟩

/-- The checks of a context command read its inputs only. -/
theorem failureOf_congr {i : Instr} {c : Nat} (hc : ctxOperand i = some c) {s s' : State}
    (h : SameInputs c s s') : failureOf s i = failureOf s' i := by
  cases i with
  | nop | cfgCommit | errClr => exact nomatch hc
  | ctxStart d => exact startFailure_congr h.nCtx h.cfgValid
  | ctxFold d b | ctxFinal d =>
    obtain rfl : d = c := Option.some.inj hc
    exact activeFailure_congr h.nCtx h.cfgValid h.ctx

/-- So does what it writes. -/
theorem writtenCtx_congr {i : Instr} {c : Nat} (hc : ctxOperand i = some c) {s s' : State}
    (h : SameInputs c s s') : writtenCtx s i = writtenCtx s' i := by
  cases i with
  | nop | cfgCommit | errClr => exact nomatch hc
  | ctxStart d | ctxFold d b | ctxFinal d =>
    obtain rfl : d = c := Option.some.inj hc
    simp only [writtenCtx, h.cfg, h.table, h.ctx]

/-- A context command from the same inputs leaves the same context. -/
theorem exec_ctx_congr {i : Instr} {c : Nat} (hc : ctxOperand i = some c) {s s' t t' : State}
    (hin : SameInputs c s s') (h : exec i s = .next t) (h' : exec i s' = .next t') :
    t.ctx c = t'.ctx c := by
  have hf := failureOf_congr hc hin
  obtain ⟨_, he, rfl⟩ | ⟨he, hlt, rfl⟩ := exec_ctxOperand_cases hc h <;>
    obtain ⟨_, he', rfl⟩ | ⟨he', hlt', rfl⟩ := exec_ctxOperand_cases hc h'
  · exact hin.ctx
  · exact nomatch he.symm.trans (hf.trans he')
  · exact nomatch he'.symm.trans (hf.symm.trans he)
  · rw [complete_ctx, complete_ctx, setCtx_ctx_self hlt, setCtx_ctx_self hlt', writtenCtx_congr hc hin]

/-- And the same outcome. -/
theorem exec_lastErr_congr {i : Instr} {c : Nat} (hc : ctxOperand i = some c) {s s' t t' : State}
    (hin : SameInputs c s s') (h : exec i s = .next t) (h' : exec i s' = .next t') :
    t.lastErr = t'.lastErr := by
  rw [exec_lastErr h, exec_lastErr h', failureOf_congr hc hin]

/-! ## Two commands of different contexts -/

/-- Two commands in a row are two executions. -/
theorem runCommands_pair {i j : Instr} {s t : State} (h : runCommands [i, j] s = .next t) :
    ∃ u, exec i s = .next u ∧ exec j u = .next t := by
  obtain ⟨u, hu⟩ := exec_next i s
  obtain ⟨v, hv⟩ := exec_next j u
  simp only [runCommands, hu, hv] at h
  injection h with h
  exact ⟨u, hu, h ▸ hv⟩

/-- Whether a command of another context runs after or before a context command makes no difference to
the context it names. -/
theorem exec_ctx_of_swap {i j : Instr} {c d : Nat} (hi : ctxOperand i = some c)
    (hj : ctxOperand j = some d) (hcd : c ≠ d) {s u t u' t' : State}
    (hu : exec i s = .next u) (ht : exec j u = .next t)
    (hu' : exec j s = .next u') (ht' : exec i u' = .next t') : t.ctx c = t'.ctx c :=
  calc t.ctx c = u.ctx c := exec_ctx_other hj ht hcd
    _ = t'.ctx c := (exec_ctx_congr hi (exec_sameInputs hj hu' hcd) ht' hu).symm

/-- The contexts of two machines are the same when each one is. -/
theorem ctxs_ext {s t : State} (hn : s.nCtx = t.nCtx) (h : ∀ c, s.ctx c = t.ctx c) :
    s.ctxs = t.ctxs := by
  refine List.ext_getElem hn fun c hs ht => ?_
  have hc := h c
  simpa [State.ctx, hs, ht] using hc

/-- Settles O46: the frame of a context command, its dependence on its inputs only, and the two
together for the two orders. -/
theorem contextsAreIndependent : Obligations.ContextsAreIndependent := by
  refine ⟨fun i c s t hc h => ⟨fun d hd => exec_ctx_other hc h hd, exec_ctxOperand_shared hc h⟩,
    fun i c s s' t t' hc hn hv hk htab hx h h' => ?_, fun i j c d s t t' hi hj hcd h h' => ?_⟩
  · have hin : SameInputs c s s' := ⟨hn, hv, hk, htab, hx⟩
    exact ⟨exec_ctx_congr hc hin h h', exec_lastErr_congr hc hin h h'⟩
  · obtain ⟨u, hu, ht⟩ := runCommands_pair h
    obtain ⟨u', hu', ht'⟩ := runCommands_pair h'
    refine ctxs_ext (by rw [exec_nCtx ht, exec_nCtx hu, exec_nCtx ht', exec_nCtx hu']) fun e => ?_
    by_cases hec : e = c
    · rw [hec]
      exact exec_ctx_of_swap hi hj hcd hu ht hu' ht'
    by_cases hed : e = d
    · rw [hed]
      exact (exec_ctx_of_swap hj hi hcd.symm hu' ht' hu ht).symm
    · rw [exec_ctx_other hj ht hed, exec_ctx_other hi hu hec, exec_ctx_other hi ht' hec,
        exec_ctx_other hj hu' hed]

end Sys2Proof.Machine
end

section
/-! Decoding and encoding are inverse to each other (30_encoding.md R70 to R76). -/

namespace Sys2Proof

/-- A word decodes to a command exactly when its fields are those of the command (30_encoding.md R74,
R76); the forward direction is `decode_cases`. -/
theorem decode_eq_command_iff {w : Word} {i : Instr} : decode w = .command i ↔
    hiField w = 0 ∧ rsvField w = 0 ∧
    ((i = .nop ∧ opcField w = 0x00 ∧ ctxField w = 0 ∧ immField w = 0) ∨
     (i = .cfgCommit ∧ opcField w = 0x01 ∧ ctxField w = 0 ∧ immField w = 0) ∨
     (i = .errClr ∧ opcField w = 0x02 ∧ ctxField w = 0 ∧ immField w = 0) ∨
     (i = .ctxStart (ctxField w).toNat ∧ opcField w = 0x10 ∧ immField w = 0) ∨
     (i = .ctxFold (ctxField w).toNat (immField w) ∧ opcField w = 0x11) ∨
     (i = .ctxFinal (ctxField w).toNat ∧ opcField w = 0x12 ∧ immField w = 0)) := by
  refine ⟨decode_cases, ?_⟩
  rintro ⟨hh, hr, ⟨rfl, ho, hc, hm⟩ | ⟨rfl, ho, hc, hm⟩ | ⟨rfl, ho, hc, hm⟩ | ⟨rfl, ho, hm⟩ |
    ⟨rfl, ho⟩ | ⟨rfl, ho, hm⟩⟩ <;> simp [decode, decodeNoOperand, decodeCtxOperand, *]

/-- Settles O1: the fields of the word are those of the command, and CTX holds a context operand up to
255 whole. -/
theorem decodeOfEncodeIsTheCommand : Obligations.DecodeOfEncodeIsTheCommand := by
  intro i hw
  rw [decode_eq_command_iff]
  have ctx_fits {c : Nat} (hc : c ≤ 255) : c = (BitVec.ofNat 8 c).toNat :=
    (Nat.mod_eq_of_lt (Nat.lt_succ_of_le hc)).symm
  cases i with
  | nop | cfgCommit | errClr => simp [encode]
  | ctxStart c => simpa [encode] using ctx_fits ((wellFormed_ctxStart c).mp hw)
  | ctxFold c b => simpa [encode] using ctx_fits ((wellFormed_ctxFold c b).mp hw)
  | ctxFinal c => simpa [encode] using ctx_fits ((wellFormed_ctxFinal c).mp hw)

/-- A decoded command is well formed: its context operand is a field of 8 bits (30_encoding.md R70). -/
theorem wellFormed_of_decode {w : Word} {i : Instr} (h : decode w = .command i) : i.wellFormed = true := by
  have ctx_le : (ctxField w).toNat ≤ 255 := Nat.le_of_lt_succ (ctxField w).isLt
  obtain ⟨-, -, ⟨rfl, -⟩ | ⟨rfl, -⟩ | ⟨rfl, -⟩ | ⟨rfl, -⟩ | ⟨rfl, -⟩ | ⟨rfl, -⟩⟩ := decode_cases h
  · rfl
  · rfl
  · rfl
  · exact (wellFormed_ctxStart _).mpr ctx_le
  · exact (wellFormed_ctxFold _ _).mpr ctx_le
  · exact (wellFormed_ctxFinal _).mpr ctx_le

/-- Settles O2: a word is the word of the command it decodes to, and the CTX field bounds the operand. -/
theorem encodeOfDecodeIsTheWord : Obligations.EncodeOfDecodeIsTheWord :=
  fun _ _ h => ⟨(eq_encode_of_decode h).symm, wellFormed_of_decode h⟩

/-- Settles O5: the seven legal words are encodings, read back by O1; each illegal one has its cause. -/
theorem encodingExamplesDecode : Obligations.EncodingExamplesDecode :=
  ⟨decodeOfEncodeIsTheCommand .nop rfl,
   decodeOfEncodeIsTheCommand .cfgCommit rfl,
   decodeOfEncodeIsTheCommand .errClr rfl,
   decodeOfEncodeIsTheCommand (.ctxStart 0) rfl,
   decodeOfEncodeIsTheCommand (.ctxFold 0 0x31) rfl,
   decodeOfEncodeIsTheCommand (.ctxFold 1 0xFF) rfl,
   decodeOfEncodeIsTheCommand (.ctxFinal 3) rfl,
   ⟨.reservedOpcode, by decide⟩, ⟨.immNonzero, by decide⟩, ⟨.hiNonzero, by decide⟩⟩

end Sys2Proof
end

section
/-! The match and mask table of 30_encoding.md R77 in the fields of a word. -/

namespace Sys2Proof

/-- A word is given by its five fields. -/
theorem word_ext {v w : Word} (hh : hiField v = hiField w) (ho : opcField v = opcField w)
    (hc : ctxField v = ctxField w) (hr : rsvField v = rsvField w) (hm : immField v = immField w) :
    v = w := by
  apply BitVec.eq_of_toNat_eq
  rw [← BitVec.toNat_inj, hiField_toNat, hiField_toNat] at hh
  rw [byteField_eq_iff, opcField_toNat, opcField_toNat] at ho
  rw [byteField_eq_iff, ctxField_toNat, ctxField_toNat] at hc
  rw [byteField_eq_iff, rsvField_toNat, rsvField_toNat] at hr
  rw [byteField_eq_iff, immField_toNat, immField_toNat] at hm
  omega

/-- A word under a mask that fixes HI, OPC and RSV is a pattern of the table, an opcode without operands,
exactly when those fields are the pattern's and no bit of CTX and IMM8 under the mask is set. -/
theorem and_eq_wordOfFields_iff {mask : Word} (hhi : hiField mask = BitVec.allOnes 32)
    (hopc : opcField mask = BitVec.allOnes 8) (hrsv : rsvField mask = BitVec.allOnes 8) {w : Word}
    {opc : Byte} : w &&& mask = wordOfFields opc 0 0 ↔
      hiField w = 0 ∧ rsvField w = 0 ∧ opcField w = opc ∧ ctxField w &&& ctxField mask = 0 ∧
        immField w &&& immField mask = 0 := by
  have hh : hiField (w &&& mask) = hiField w := by
    rw [hiField, BitVec.extractLsb'_and, ← hiField, ← hiField, hhi, BitVec.and_allOnes]
  have ho : opcField (w &&& mask) = opcField w := by
    rw [opcField, BitVec.extractLsb'_and, ← opcField, ← opcField, hopc, BitVec.and_allOnes]
  have hr : rsvField (w &&& mask) = rsvField w := by
    rw [rsvField, BitVec.extractLsb'_and, ← rsvField, ← rsvField, hrsv, BitVec.and_allOnes]
  have hc : ctxField (w &&& mask) = ctxField w &&& ctxField mask := BitVec.extractLsb'_and
  have hm : immField (w &&& mask) = immField w &&& immField mask := BitVec.extractLsb'_and
  rw [← hh, ← ho, ← hr, ← hc, ← hm]
  constructor
  · intro h
    simp [h]
  · rintro ⟨hhi, hrsv, hopc, hctx, himm⟩
    exact word_ext (by simpa using hhi) (by simpa using hopc) (by simpa using hctx)
      (by simpa using hrsv) (by simpa using himm)

/-- The mask of the commands without operands fixes every field. -/
theorem and_noOperandMask_iff {w : Word} {opc : Byte} :
    w &&& 0xFFFFFFFFFFFFFFFF = wordOfFields opc 0 0 ↔
      hiField w = 0 ∧ rsvField w = 0 ∧ opcField w = opc ∧ ctxField w = 0 ∧ immField w = 0 := by
  rw [and_eq_wordOfFields_iff rfl rfl rfl, show ctxField 0xFFFFFFFFFFFFFFFF = BitVec.allOnes 8 from rfl,
    show immField 0xFFFFFFFFFFFFFFFF = BitVec.allOnes 8 from rfl, BitVec.and_allOnes, BitVec.and_allOnes]

/-- The mask of CTX_START and CTX_FINAL leaves CTX free. -/
theorem and_ctxMask_iff {w : Word} {opc : Byte} :
    w &&& 0xFFFFFFFFFF00FFFF = wordOfFields opc 0 0 ↔
      hiField w = 0 ∧ rsvField w = 0 ∧ opcField w = opc ∧ immField w = 0 := by
  rw [and_eq_wordOfFields_iff rfl rfl rfl, show ctxField 0xFFFFFFFFFF00FFFF = 0 from rfl,
    show immField 0xFFFFFFFFFF00FFFF = BitVec.allOnes 8 from rfl, BitVec.and_allOnes]
  simp

/-- The mask of CTX_FOLD leaves CTX and IMM8 free. -/
theorem and_ctxImmMask_iff {w : Word} {opc : Byte} :
    w &&& 0xFFFFFFFFFF00FF00 = wordOfFields opc 0 0 ↔
      hiField w = 0 ∧ rsvField w = 0 ∧ opcField w = opc := by
  rw [and_eq_wordOfFields_iff rfl rfl rfl, show ctxField 0xFFFFFFFFFF00FF00 = 0 from rfl,
    show immField 0xFFFFFFFFFF00FF00 = 0 from rfl]
  simp

/-! ## The row of a command -/

/-- The row of a command in 30_encoding.md R77; `row_mem` ties it to the table. -/
def Instr.row (i : Instr) : OpcodeRow :=
  match i with
  | .nop => ⟨i.mnemonic, 0x0000000000000000, 0xFFFFFFFFFFFFFFFF⟩
  | .cfgCommit => ⟨i.mnemonic, 0x0000000001000000, 0xFFFFFFFFFFFFFFFF⟩
  | .errClr => ⟨i.mnemonic, 0x0000000002000000, 0xFFFFFFFFFFFFFFFF⟩
  | .ctxStart _ => ⟨i.mnemonic, 0x0000000010000000, 0xFFFFFFFFFF00FFFF⟩
  | .ctxFold _ _ => ⟨i.mnemonic, 0x0000000011000000, 0xFFFFFFFFFF00FF00⟩
  | .ctxFinal _ => ⟨i.mnemonic, 0x0000000012000000, 0xFFFFFFFFFF00FFFF⟩

theorem row_mem (i : Instr) : i.row ∈ opcodeRows := by
  cases i <;> simp [opcodeRows, Instr.row, Instr.mnemonic]

@[simp] theorem row_mnemonic (i : Instr) : i.row.mnemonic = i.mnemonic := by
  cases i <;> rfl

/-- The row of a word's command selects the word. -/
theorem row_selects_of_decode {w : Word} {i : Instr} (h : decode w = .command i) :
    w &&& i.row.mask = i.row.pattern := by
  obtain ⟨hh, hr, ⟨rfl, ho, hc, hm⟩ | ⟨rfl, ho, hc, hm⟩ | ⟨rfl, ho, hc, hm⟩ | ⟨rfl, ho, hm⟩ |
    ⟨rfl, ho⟩ | ⟨rfl, ho, hm⟩⟩ := decode_cases h
  · exact and_noOperandMask_iff.mpr ⟨hh, hr, ho, hc, hm⟩
  · exact and_noOperandMask_iff.mpr ⟨hh, hr, ho, hc, hm⟩
  · exact and_noOperandMask_iff.mpr ⟨hh, hr, ho, hc, hm⟩
  · exact and_ctxMask_iff.mpr ⟨hh, hr, ho, hm⟩
  · exact and_ctxImmMask_iff.mpr ⟨hh, hr, ho⟩
  · exact and_ctxMask_iff.mpr ⟨hh, hr, ho, hm⟩

/-- A word that a row selects decodes to a command of that row. -/
theorem decode_of_row_selects {w : Word} {r : OpcodeRow} (hr : r ∈ opcodeRows)
    (h : w &&& r.mask = r.pattern) : ∃ i, decode w = .command i ∧ i.row = r := by
  simp only [opcodeRows, List.mem_cons, List.not_mem_nil, or_false] at hr
  simp only [decode_eq_command_iff]
  obtain rfl | rfl | rfl | rfl | rfl | rfl := hr
  · obtain ⟨hh, hr, ho, hc, hm⟩ := (and_noOperandMask_iff (opc := 0x00)).mp h
    exact ⟨.nop, ⟨hh, hr, .inl ⟨rfl, ho, hc, hm⟩⟩, rfl⟩
  · obtain ⟨hh, hr, ho, hc, hm⟩ := (and_noOperandMask_iff (opc := 0x01)).mp h
    exact ⟨.cfgCommit, ⟨hh, hr, .inr (.inl ⟨rfl, ho, hc, hm⟩)⟩, rfl⟩
  · obtain ⟨hh, hr, ho, hc, hm⟩ := (and_noOperandMask_iff (opc := 0x02)).mp h
    exact ⟨.errClr, ⟨hh, hr, .inr (.inr (.inl ⟨rfl, ho, hc, hm⟩))⟩, rfl⟩
  · obtain ⟨hh, hr, ho, hm⟩ := (and_ctxMask_iff (opc := 0x10)).mp h
    exact ⟨.ctxStart _, ⟨hh, hr, .inr (.inr (.inr (.inl ⟨rfl, ho, hm⟩)))⟩, rfl⟩
  · obtain ⟨hh, hr, ho⟩ := (and_ctxImmMask_iff (opc := 0x11)).mp h
    exact ⟨.ctxFold _ _, ⟨hh, hr, .inr (.inr (.inr (.inr (.inl ⟨rfl, ho⟩))))⟩, rfl⟩
  · obtain ⟨hh, hr, ho, hm⟩ := (and_ctxMask_iff (opc := 0x12)).mp h
    exact ⟨.ctxFinal _, ⟨hh, hr, .inr (.inr (.inr (.inr (.inr ⟨rfl, ho, hm⟩))))⟩, rfl⟩

/-- The context operand of a decoded command is the number of the CTX field (30_encoding.md R73). -/
theorem ctxOperand_of_decode {w : Word} {i : Instr} (h : decode w = .command i) {c : Nat}
    (hc : Machine.ctxOperand i = some c) : c = w.toNat / 2 ^ 16 % 256 := by
  rw [← ctxField_toNat]
  obtain ⟨-, -, ⟨rfl, -⟩ | ⟨rfl, -⟩ | ⟨rfl, -⟩ | ⟨rfl, -⟩ | ⟨rfl, -⟩ | ⟨rfl, -⟩⟩ := decode_cases h
  iterate 3 exact nomatch hc
  all_goals exact (Option.some.inj hc).symm

/-- The byte of a decoded CTX_FOLD is the number of the IMM8 field (30_encoding.md R73). -/
theorem foldByte_of_decode {w : Word} {c : Nat} {b : Byte} (h : decode w = .command (.ctxFold c b)) :
    b.toNat = w.toNat % 256 := by
  rw [← immField_toNat, eq_encode_of_decode h, encode, immField_wordOfFields]

/-- A word is illegal exactly when it decodes to no command (30_encoding.md R76). -/
theorem decode_illegal_iff {w : Word} :
    (∃ why, decode w = .illegal why) ↔ ¬ ∃ i, decode w = .command i := by
  cases h : decode w <;> simp

/-- Settles O3: a word selects the row of its command (`row_selects_of_decode`), and no other, since the
command of any row that selects it is the one it decodes to (`decode_of_row_selects`). -/
theorem decodeFollowsMatchAndMask : Obligations.DecodeFollowsMatchAndMask := by
  intro w
  refine ⟨fun i hi => ⟨⟨i.row, row_mem i, row_mnemonic i, row_selects_of_decode hi, ?_⟩,
    fun c => ctxOperand_of_decode hi, ?_⟩, ?_, ?_⟩
  · intro r hr hsel
    obtain ⟨j, hj, rfl⟩ := decode_of_row_selects hr hsel
    rw [Decoded.command.inj (hj.symm.trans hi)]
  · rintro c b rfl
    exact foldByte_of_decode hi
  · intro r hr hsel
    obtain ⟨i, hi, rfl⟩ := decode_of_row_selects hr hsel
    exact ⟨i, hi, (row_mnemonic i).symm⟩
  · intro hnone
    exact decode_illegal_iff.mpr fun ⟨i, hi⟩ => hnone i.row (row_mem i) (row_selects_of_decode hi)

end Sys2Proof
end

section
/-! Illegal words (30_encoding.md R75), and a context operand the machine has no context for. -/

namespace Sys2Proof

/-- Which words decode to a command, in the numbers of the fields (30_encoding.md R74, R75). -/
theorem decodes_iff {w : Word} : (∃ i, decode w = .command i) ↔
    w.toNat / 2 ^ 32 = 0 ∧ w.toNat / 2 ^ 8 % 256 = 0 ∧
      ((w.toNat / 2 ^ 24 % 256 ∈ [0x00, 0x01, 0x02] ∧ w.toNat / 2 ^ 16 % 256 = 0 ∧ w.toNat % 256 = 0) ∨
        (w.toNat / 2 ^ 24 % 256 ∈ [0x10, 0x12] ∧ w.toNat % 256 = 0) ∨
        w.toNat / 2 ^ 24 % 256 = 0x11) := by
  simp only [decode_eq_command_iff, exists_and_left, exists_or, exists_eq_left, ← BitVec.toNat_inj,
    hiField_toNat, opcField_toNat, ctxField_toNat, rsvField_toNat, immField_toNat, List.mem_cons,
    List.not_mem_nil, or_false, BitVec.ofNat_eq_ofNat, BitVec.toNat_ofNat]
  omega

end Sys2Proof

namespace Sys2Proof.Machine

/-- A command of a context the machine does not have fails with CTX_RANGE (60_exceptions.md R161). -/
theorem exec_ctxRange {i : Instr} {c : Nat} (hi : ctxOperand i = some c) {s : State} (hc : s.nCtx ≤ c) :
    exec i s = .next (raiseError .ctxRange s) := by
  have hf : failureOf s i = some .ctxRange := by
    cases i with
    | nop | cfgCommit | errClr => exact nomatch hi
    | ctxStart d | ctxFold d b | ctxFinal d =>
      obtain rfl : d = c := Option.some.inj hi
      exact if_pos hc
  rw [exec_ctxOperand hi, hf, endCommand_some]

/-- A decoded word of a context opcode names the context of its CTX field. -/
theorem ctxOperand_of_opcode {w : Word} {i : Instr} (h : decode w = .command i)
    (ho : w.toNat / 2 ^ 24 % 256 ∈ [0x10, 0x11, 0x12]) : ctxOperand i = some (w.toNat / 2 ^ 16 % 256) := by
  rw [← opcField_toNat] at ho
  rw [← ctxField_toNat]
  obtain ⟨-, -, ⟨rfl, h0, -⟩ | ⟨rfl, h0, -⟩ | ⟨rfl, h0, -⟩ | ⟨rfl, -⟩ | ⟨rfl, -⟩ | ⟨rfl, -⟩⟩ :=
    decode_cases h
  iterate 3 exact absurd (h0 ▸ ho) (by decide)
  all_goals rfl

/-- Settles O4: by `decodes_iff`; a context command of c ≥ N_CTX is `exec_ctxRange`. -/
theorem illegalWordsRaiseIllegalCmdOnly : Obligations.IllegalWordsRaiseIllegalCmdOnly := by
  rintro w s _ _ _ _ _ rfl rfl rfl rfl rfl
  refine ⟨?_, fun ⟨why, h⟩ => issue_illegal h s, fun ⟨i, h⟩ ho hc => ?_⟩
  · rw [decode_illegal_iff, decodes_iff]
    simp only [List.mem_cons, List.not_mem_nil, or_false]
    omega
  · rw [issue_command h, exec_ctxRange (ctxOperand_of_opcode h ho) hc]
    rfl

end Sys2Proof.Machine
end

section
/-! Host programs: the accesses of a program whose statements the assembler accepts, and the expansions of
30_encoding.md R79. -/

namespace Sys2Proof.Machine

/-- A program assembles to the accesses of the statements it expands to. -/
theorem assemble_of_accesses {base : Nat} {program : List Stmt} {accesses : List Access}
    (h : (program.flatMap Stmt.expand).map (Basic.access base) = accesses.map some) :
    assemble base program = some (accesses.map .access) := by
  have hm : (program.flatMap Stmt.expand).mapM (Basic.access base) = some accesses :=
    calc (program.flatMap Stmt.expand).mapM (Basic.access base)
        = ((program.flatMap Stmt.expand).map (Basic.access base)).mapM id := (List.mapM_map (g := id)).symm
      _ = (accesses.map some).mapM id := by rw [h]
      _ = accesses.mapM pure := List.mapM_map
      _ = some accesses := by rw [List.mapM_pure, List.map_id']; rfl
  rw [assemble, hm]
  rfl

theorem assemble_singleton {base : Nat} {st : Stmt} {accesses : List Access}
    (h : st.expand.map (Basic.access base) = accesses.map some) :
    assemble base [st] = some (accesses.map .access) :=
  assemble_of_accesses (by rw [List.flatMap_singleton, h])

/-- A statement without an access is rejected. -/
theorem assemble_singleton_none {base : Nat} {b : Basic} (h : b.access base = none) :
    assemble base [.basic b] = none := by
  simp [assemble, Stmt.expand, h]

/-! ## The access of one statement (R78) -/

theorem access_wr (base : Nat) (r : Reg) (v : Word) :
    (Basic.wr r v.toNat).access base = some (.write (base + r.offset) 8 v) := by
  rw [Basic.access, if_pos v.isLt, BitVec.ofNat_toNat, BitVec.setWidth_eq]

/-- The host access that issues a command: a write of its word to CMD. -/
def cmdAccess (base : Nat) (i : Instr) : Access := .write (base + 0x010) 8 (encode i)

/-- A statement of a command writes the command's word to CMD. -/
theorem access_of_command (base : Nat) {b : Basic} {i : Instr} (h : b.command = some i) :
    b.access base = some (cmdAccess base i) := by
  cases b with
  | wr r v | rd r => exact nomatch h
  | nop | cfgCommit | errClr | ctxStart c | ctxFold c b | ctxFinal c =>
    exact congrArg (Option.map (cmdAccess base)) h

theorem command_ctxStart {c : Nat} (hc : c ≤ 255) : (Basic.ctxStart c).command = some (.ctxStart c) :=
  if_pos hc

theorem command_ctxFinal {c : Nat} (hc : c ≤ 255) : (Basic.ctxFinal c).command = some (.ctxFinal c) :=
  if_pos hc

theorem command_ctxFold {c : Nat} (hc : c ≤ 255) (b : Byte) :
    (Basic.ctxFold c b.toNat).command = some (.ctxFold c b) := by
  rw [Basic.command, if_pos ⟨hc, Nat.le_of_lt_succ b.isLt⟩, BitVec.ofNat_toNat, BitVec.setWidth_eq]

theorem access_ctxStart_none (base : Nat) {c : Nat} (hc : 255 < c) :
    (Basic.ctxStart c).access base = none :=
  congrArg (Option.map (cmdAccess base)) (if_neg hc.not_ge)

theorem access_ctxFinal_none (base : Nat) {c : Nat} (hc : 255 < c) :
    (Basic.ctxFinal c).access base = none :=
  congrArg (Option.map (cmdAccess base)) (if_neg hc.not_ge)

theorem access_ctxFold_none (base : Nat) {c b : Nat} (h : 255 < c ∨ 255 < b) :
    (Basic.ctxFold c b).access base = none :=
  congrArg (Option.map (cmdAccess base))
    (if_neg fun ⟨hc, hb⟩ => h.elim hc.not_gt hb.not_gt)

/-- The word of a CTX_FOLD as a sum of its opcode and operands (30_encoding.md R70, R72). -/
theorem encode_ctxFold {c : Nat} (hc : c ≤ 255) (b : Byte) :
    encode (.ctxFold c b) = 0x11000000 + BitVec.ofNat 64 (0x10000 * c + b.toNat) := by
  apply BitVec.eq_of_toNat_eq
  have hb := b.isLt
  rw [encode, wordOfFields_toNat]
  simp only [BitVec.ofNat_eq_ofNat, BitVec.toNat_add, BitVec.toNat_ofNat]
  omega

/-! ## The expansions (R79) -/

/-- CTX.FOLDS is one CTX_FOLD per byte, in order. -/
theorem map_access_ctxFolds (base : Nat) {c : Nat} (hc : c ≤ 255) (data : List Byte) :
    (Stmt.ctxFolds c (data.map (·.toNat))).expand.map (Basic.access base) =
      ((data.map (.ctxFold c)).map (cmdAccess base)).map some := by
  simp only [Stmt.expand, List.map_map]
  exact List.map_congr_left fun b _ => access_of_command base (command_ctxFold hc b)

/-- CRC is the commands of one `compute` (41_fold_engine.md R141). -/
theorem map_access_crc (base : Nat) {c : Nat} (hc : c ≤ 255) (data : List Byte) :
    (Stmt.crc c (data.map (·.toNat))).expand.map (Basic.access base) =
      ((computeCommands c data).map (cmdAccess base)).map some := by
  have hfolds : ((data.map (·.toNat)).map (Basic.ctxFold c)).map (Basic.access base) =
      ((data.map (Instr.ctxFold c)).map (cmdAccess base)).map some := map_access_ctxFolds base hc data
  simp only [Stmt.expand, computeCommands, List.map_cons, List.map_append, List.map_nil, hfolds,
    access_of_command base (command_ctxStart hc), access_of_command base (command_ctxFinal hc)]

/-- CFG.LOAD is five staging writes and a CFG_COMMIT. -/
theorem map_access_cfgLoad (base : Nat) (bits poly init xorout : Word) (refin refout : Bool) :
    (Stmt.cfgLoad bits.toNat poly.toNat init.toNat refin.toNat refout.toNat xorout.toNat).expand.map
        (Basic.access base) =
      ([.write (base + 0x040) 8 bits, .write (base + 0x048) 8 poly, .write (base + 0x050) 8 init,
        .write (base + 0x058) 8 xorout,
        .write (base + 0x060) 8 (BitVec.ofNat 64 (refin.toNat + 2 * refout.toNat)),
        cmdAccess base .cfgCommit] : List Access).map some := by
  have hflags : (Basic.wr .stgFlags (refin.toNat + 2 * refout.toNat)).access base =
      some (.write (base + 0x060) 8 (BitVec.ofNat 64 (refin.toNat + 2 * refout.toNat))) :=
    if_pos (by have := refin.toNat_le; have := refout.toNat_le; omega)
  simp only [Stmt.expand, List.map_cons, List.map_nil, access_wr, hflags]
  rfl

/-- Settles O56: each program assembles to the accesses of its expansion (`assemble_singleton`), and a
command of an operand above 255 has no access. -/
theorem pseudoInstructionsExpand : Obligations.PseudoInstructionsExpand := by
  intro base
  refine ⟨fun bits poly init xorout refin refout => ?_, fun c data hc => ⟨?_, ?_, ?_⟩, rfl,
    fun c b hc => ⟨assemble_singleton_none (access_ctxStart_none base hc),
      assemble_singleton_none (access_ctxFinal_none base hc),
      assemble_singleton_none (access_ctxFold_none base (.inl hc)),
      assemble_singleton_none (access_ctxFold_none base (.inr hc))⟩⟩
  · exact assemble_singleton (map_access_cfgLoad base bits poly init xorout refin refout)
  · rw [assemble_singleton (map_access_ctxFolds base hc data), List.map_map, List.map_map]
    simp only [Function.comp_def, cmdAccess, encode_ctxFold hc]
  · simp only [assemble, List.flatMap_cons, List.flatMap_nil, Stmt.expand, List.cons_append,
      List.nil_append, List.append_nil]
  · rw [assemble_singleton (map_access_crc base hc data)]
    rfl

end Sys2Proof.Machine
end

section
/-! Validation (40_config_table.md R92, R101), the words of a command without operands, and CFG_COMMIT
(R100 to R103). -/

namespace Sys2Proof.Machine

/-! ## Validation -/

/-- The valid configurations as numbers (40_config_table.md R92). -/
theorem CrcConfig.valid_iff {k : CrcConfig} : k.Valid ↔
    1 ≤ k.bits.toNat ∧ k.bits.toNat ≤ 64 ∧ k.poly.toNat < 2 ^ k.bits.toNat ∧
      k.init.toNat < 2 ^ k.bits.toNat ∧ k.xorout.toNat < 2 ^ k.bits.toNat :=
  and_congr_right fun _ => and_congr_right fun hn => by simp only [le_fullmask_iff hn]

/-- Settles O23: `validate_eq_none_iff`, with the valid configurations as numbers; no check reads the
flags. -/
theorem validationAcceptsExactlyValidConfigurations :
    Obligations.ValidationAcceptsExactlyValidConfigurations := fun _ =>
  ⟨validate_eq_none_iff.trans CrcConfig.valid_iff, validate_eq_none_iff, fun _ => rfl⟩

/-- A width outside 1 to 64 is the first failure (40_config_table.md R101). -/
theorem validate_of_bits_out_of_range {k : CrcConfig} (h : k.bits.toNat < 1 ∨ k.bits.toNat > 64) :
    validate k = some .cfgBitsRange :=
  if_pos (bits_out_of_range_iff.mpr h)

/-- With a width of 1 to 64 the other three checks follow in order (40_config_table.md R101). -/
theorem validate_of_bits_in_range {k : CrcConfig} (h1 : 1 ≤ k.bits.toNat) (h64 : k.bits.toNat ≤ 64) :
    validate k =
      if fullmask k.bits.toNat < k.poly then some .cfgPolyWidth
      else if fullmask k.bits.toNat < k.init then some .cfgInitWidth
      else if fullmask k.bits.toNat < k.xorout then some .cfgXoroutWidth
      else none :=
  if_neg (mt bits_out_of_range_iff.mp (by omega))

/-! ## Words of a command without operands -/

/-- With the opcode of NOP, CFG_COMMIT or ERR_CLR, every word but the one whose other fields are all 0
is illegal (30_encoding.md R74). -/
theorem issue_illegal_of_noOperand_opcode {w v : Word} (ho : w.toNat / 2 ^ 24 % 256 ∈ [0x00, 0x01, 0x02])
    (hv : v.toNat = w.toNat / 2 ^ 24 % 256 * 2 ^ 24) (hw : w ≠ v) (s : State) :
    issue w s = .next (raiseError .illegalCmd s) := by
  have hne : w.toNat ≠ v.toNat := mt BitVec.eq_of_toNat_eq hw
  obtain ⟨why, h⟩ : ∃ why, decode w = .illegal why := by
    rw [decode_illegal_iff, decodes_iff]
    simp only [List.mem_cons, List.not_mem_nil, or_false] at ho ⊢
    omega
  exact issue_illegal h s

/-! ## CFG_COMMIT -/

/-- A CFG_COMMIT whose validation fails raises that failure and has no effect (40_config_table.md R100). -/
theorem exec_cfgCommit_of_failure {s : State} {code : ErrCode} (h : validate s.stg = some code) :
    exec .cfgCommit s = .next (raiseError code s) := by
  rw [exec_cfgCommit, h, endCommand_some]

/-- A CFG_COMMIT of a valid staged configuration latches it (40_config_table.md R100). -/
theorem exec_cfgCommit_of_valid {s : State} (h : s.stg.Valid) :
    exec .cfgCommit s = .next (complete (latchConfig s)) := by
  rw [exec_cfgCommit, validate_eq_none_iff.mpr h, endCommand_none]

/-- Settles O24: the commit follows `validate`, whose first failure is found in the order of R101. -/
theorem cfgCommitLatchesOrRaises : Obligations.CfgCommitLatchesOrRaises := by
  refine ⟨decode_eq_cfgCommit_iff.mpr rfl, fun s => ⟨exec_cfgCommit_of_valid,
    fun h => exec_cfgCommit_of_failure (validate_of_bits_out_of_range h), fun h1 h64 => ?_, ?_⟩⟩
  · have hval := validate_of_bits_in_range h1 h64
    refine ⟨fun hp => exec_cfgCommit_of_failure (hval.trans ?_),
      fun hp => ⟨fun hi => exec_cfgCommit_of_failure (hval.trans ?_),
        fun hi hx => exec_cfgCommit_of_failure (hval.trans ?_)⟩⟩
    · rw [if_pos hp]
    · rw [if_neg (BitVec.not_lt.mpr hp), if_pos hi]
    · rw [if_neg (BitVec.not_lt.mpr hp), if_neg (BitVec.not_lt.mpr hi), if_pos hx]
  · intro w hw ho
    exact issue_illegal_of_noOperand_opcode (by rw [ho]; decide) (by rw [ho]; rfl) hw s

end Sys2Proof.Machine
end

section
/-! The table: the division steps below the width, the bound of an entry, and the closed forms of
40_config_table.md R112. -/

namespace Sys2Proof.Machine

/-! ## The division steps below the width -/

/-- The division step of a register that is exactly `bits` wide: the value is masked after it
(40_config_table.md R107). -/
def maskedDivisionStep (bits : Nat) (poly r : Word) : Word :=
  maskw (if r.getLsbD (bits - 1) then (r <<< 1) ^^^ poly else r <<< 1) bits

/-- A left shift moves no bit down, so bits masked away before it do not matter below the width. -/
theorem maskw_shiftLeft_maskw (v : Word) (n k : Nat) : maskw (maskw v n <<< k) n = maskw (v <<< k) n :=
  maskw_eq_iff.mpr fun i hi => by
    simp [BitVec.getLsbD_shiftLeft, maskw_getLsbD, show i - k < n by omega]

/-- A value shifted left by n has no bit below n. -/
theorem maskw_shiftLeft_self (v : Word) (n : Nat) : maskw (v <<< n) n = 0 := by
  apply BitVec.eq_of_getLsbD_eq
  intro i _
  by_cases hi : i < n <;> simp [maskw_getLsbD, hi]

/-- Masking commutes with the division step: its test reads bit `bits - 1`, which the mask keeps, and
the shift moves bits up only (40_config_table.md R107). -/
theorem maskw_semiconj_divisionStep {bits : Nat} (h1 : 1 ≤ bits) (h64 : bits ≤ 64) (poly : Word) :
    Function.Semiconj (maskw · bits) (divisionStep (msbMask bits) poly) (maskedDivisionStep bits poly) := by
  intro v
  have htop : (maskw v bits).getLsbD (bits - 1) = v.getLsbD (bits - 1) := by
    simp [maskw_getLsbD, show bits - 1 < bits by omega]
  simp only [divisionStep, maskedDivisionStep, and_msbMask h1 h64, htop]
  split
  · rw [maskw_xor, maskw_xor, maskw_shiftLeft_maskw]
  · rw [maskw_shiftLeft_maskw]

theorem divisionSteps_eq_iterate (msb poly : Word) (n : Nat) :
    divisionSteps msb poly n = (divisionStep msb poly)^[n] := by
  induction n with
  | zero => rfl
  | succ n ih => funext v; rw [divisionSteps, ih, Function.iterate_succ_apply]

/-- Below the width, n division steps of a value are n masked steps of its mask (40_config_table.md
R107). -/
theorem maskw_divisionSteps {bits : Nat} (h1 : 1 ≤ bits) (h64 : bits ≤ 64) (poly : Word) (n : Nat)
    (v : Word) : maskw (divisionSteps (msbMask bits) poly n v) bits =
      (maskedDivisionStep bits poly)^[n] (maskw v bits) := by
  rw [divisionSteps_eq_iterate]
  exact (maskw_semiconj_divisionStep h1 h64 poly).iterate_right n v

/-- Settles O25: by `maskw_divisionSteps` the low bits of the result depend on the low bits of the value
only, and are those of the masked division. -/
theorem divisionStepsNeverMoveHighBitsDown : Obligations.DivisionStepsNeverMoveHighBitsDown := by
  intro bits n poly v v' h1 h64 hv
  have hfold : (List.range n).foldl (fun r _ => maskedDivisionStep bits poly r) (maskw v bits) =
      (maskedDivisionStep bits poly)^[n] (maskw v bits) := by
    rw [List.foldl_const, List.length_range]
  refine ⟨?_, (maskw_divisionSteps h1 h64 poly n v).trans hfold.symm⟩
  rw [maskw_divisionSteps h1 h64, maskw_divisionSteps h1 h64, hv]

/-- Settles O26: an entry is masked last, or 0 where it is unused (`tableEntry_le_fullmask`). -/
theorem tableEntriesFitTheWidth : Obligations.TableEntriesFitTheWidth := by
  intro bits poly refin i _ h64
  rw [Fin.getElem_fin, generateTable_getElem]
  exact tableEntry_le_fullmask h64 poly refin i

/-! ## Linearity of the table -/

theorem symbolOfIndex_xor (bits : Nat) (refin : Bool) (x y : Nat) :
    symbolOfIndex bits refin (x ^^^ y) = symbolOfIndex bits refin x ^^^ symbolOfIndex bits refin y := by
  have h8 : perSymbolBits bits ≤ 64 := by unfold perSymbolBits; split <;> omega
  unfold symbolOfIndex
  split
  · rw [BitVec.ofNat_xor, reflect_xor h8]
  · exact BitVec.ofNat_xor

/-- The table is linear over GF(2) in its used entries: every step of the generator is
(40_config_table.md R112(e)). -/
theorem tableEntry_xor {bits : Nat} (h1 : 1 ≤ bits) (h64 : bits ≤ 64) (poly : Word) (refin : Bool)
    {x y : Nat} (hx : x < tableSize bits) (hy : y < tableSize bits) :
    tableEntry bits poly refin (x ^^^ y) = tableEntry bits poly refin x ^^^ tableEntry bits poly refin y := by
  have hxy : x ^^^ y < tableSize bits := Nat.xor_lt_two_pow hx hy
  simp only [tableEntry_of_lt poly refin, hx, hy, hxy, symbolOfIndex_xor, BitVec.shiftLeft_xor_distrib,
    divisionSteps_xor h1 h64, ← maskw_xor]
  cases refin with
  | false => rfl
  | true => exact congrArg (maskw · bits) (reflect_xor h64)

theorem tableSize_pos (bits : Nat) : 0 < tableSize bits := Nat.two_pow_pos _

/-- T[0] = T[0 ^ 0] = T[0] ^ T[0] (40_config_table.md R112(a)). -/
theorem tableEntry_zero {bits : Nat} (h1 : 1 ≤ bits) (h64 : bits ≤ 64) (poly : Word) (refin : Bool) :
    tableEntry bits poly refin 0 = 0 := by
  have h := tableEntry_xor h1 h64 poly refin (tableSize_pos bits) (tableSize_pos bits)
  rwa [Nat.xor_self, BitVec.xor_self] at h

/-! ## The entry of the symbol 1 -/

/-- Masking to the width of a reflection commutes with it. -/
theorem maskw_reflect {v : Word} {n : Nat} (hn : n ≤ 64) : maskw (reflect v n) n = reflect (maskw v n) n :=
  (maskw_of_fits hn (reflect_le_fullmask hn)).trans (reflect_maskw hn).symm

/-- A shifted 1 has one bit set. -/
theorem one_shiftLeft_getLsbD {k : Nat} (hk : k < 64) (i : Nat) :
    (1#64 <<< k).getLsbD i = decide (k = i) := by
  rw [← BitVec.twoPow_eq, BitVec.getLsbD_twoPow, decide_eq_true hk, Bool.true_and]

/-- Dividing the lowest bit of a symbol aligned at the top of the register shifts it out at the top, and
leaves the polynomial (40_config_table.md R112(b) to (d)). -/
theorem maskw_divisionSteps_one {bits : Nat} (h1 : 1 ≤ bits) (h64 : bits ≤ 64) {poly : Word}
    (hp : poly ≤ fullmask bits) (n : Nat) (hn : n + 1 ≤ bits) :
    maskw (divisionSteps (msbMask bits) poly (n + 1) (1#64 <<< (bits - (n + 1)))) bits = poly := by
  induction n with
  | zero =>
    have hmsb : (1#64 <<< (bits - 1)).getLsbD (bits - 1) = true := by
      rw [one_shiftLeft_getLsbD (by omega), decide_eq_true rfl]
    have hout : 1#64 <<< (bits - 1) <<< 1 = 1#64 <<< bits := by
      rw [← BitVec.shiftLeft_add, Nat.sub_add_cancel h1]
    rw [divisionSteps, divisionSteps, divisionStep_eq h1 h64, Nat.zero_add, hmsb, hout, if_pos rfl,
      maskw_xor, maskw_shiftLeft_self, maskw_of_fits h64 hp]
    exact BitVec.zero_xor
  | succ n ih =>
    have hmsb : (1#64 <<< (bits - (n + 1 + 1))).getLsbD (bits - 1) = false := by
      rw [one_shiftLeft_getLsbD (by omega), decide_eq_false (by omega)]
    have hup : 1#64 <<< (bits - (n + 1 + 1)) <<< 1 = 1#64 <<< (bits - (n + 1)) := by
      rw [← BitVec.shiftLeft_add]; congr 1; omega
    have hstep : divisionStep (msbMask bits) poly (1#64 <<< (bits - (n + 1 + 1))) =
        1#64 <<< (bits - (n + 1)) := by
      rw [divisionStep_eq h1 h64, hmsb, hup]
      exact BitVec.xor_zero
    rw [divisionSteps, hstep]
    exact ih (by omega)

/-- The entry whose symbol is 1 is the polynomial, reflected when `refin` (40_config_table.md R112(b) to
(d)). -/
theorem tableEntry_of_symbol_one {bits : Nat} (h1 : 1 ≤ bits) (h64 : bits ≤ 64) {poly : Word}
    (hp : poly ≤ fullmask bits) {refin : Bool} {x : Nat} (hx : x < tableSize bits)
    (hsym : symbolOfIndex bits refin x = 1#64) :
    tableEntry bits poly refin x = if refin then reflect poly bits else poly := by
  have hdiv : maskw (divisionSteps (msbMask bits) poly (perSymbolBits bits)
      (1#64 <<< (bits - perSymbolBits bits))) bits = poly := by
    unfold perSymbolBits
    split
    · exact maskw_divisionSteps_one h1 h64 hp 7 (by omega)
    · exact maskw_divisionSteps_one h1 h64 hp 0 h1
  rw [tableEntry_of_lt poly refin hx, hsym]
  cases refin with
  | false => exact hdiv
  | true => exact (maskw_reflect h64).trans (congrArg (reflect · bits) hdiv)

/-- In bit mode the symbol is the index (40_config_table.md R105). -/
theorem symbolOfIndex_bit {bits : Nat} (h : bits < 8) (refin : Bool) (x : Nat) :
    symbolOfIndex bits refin x = BitVec.ofNat 64 x := by
  simp [symbolOfIndex, perSymbolBits, show ¬ 8 ≤ bits by omega]

/-- Without `refin` the symbol is the index (40_config_table.md R105). -/
theorem symbolOfIndex_norm (bits x : Nat) : symbolOfIndex bits false x = BitVec.ofNat 64 x := by
  simp [symbolOfIndex]

/-- In byte mode with `refin` the symbol is the index reflected within 8 bits (40_config_table.md R105). -/
theorem symbolOfIndex_byte_refl {bits : Nat} (h : 8 ≤ bits) (x : Nat) :
    symbolOfIndex bits true x = reflect (BitVec.ofNat 64 x) 8 := by
  simp [symbolOfIndex, perSymbolBits, h]

/-- Settles O27: T[0] and (e) by linearity; in (b), (c) and (d) the index is the one whose symbol is 1. -/
theorem tableClosedForms : Obligations.TableClosedForms := by
  intro bits poly refin h1 h64 hp
  simp only [generateTable_getElem, generateTable_lookup, BitVec.toNat_xor]
  refine ⟨tableEntry_zero h1 h64 poly refin, fun hb => ?_, ?_, ?_,
    fun x y => tableEntry_xor h1 h64 poly refin⟩
  · exact tableEntry_of_symbol_one h1 h64 hp (by rw [tableSize_bit hb]; decide) (symbolOfIndex_bit hb _ 1)
  · rintro hb rfl
    exact tableEntry_of_symbol_one h1 h64 hp (by rw [tableSize_byte hb]; decide) (symbolOfIndex_norm bits 1)
  · rintro hb rfl
    exact tableEntry_of_symbol_one h1 h64 hp (by rw [tableSize_byte hb]; decide)
      ((symbolOfIndex_byte_refl hb 0x80).trans (by decide))

end Sys2Proof.Machine
end

section
/-! The three context commands: what a success and a failure leave, and their words (41_fold_engine.md
R120 to R124, R137 to R139). -/

namespace Sys2Proof

/-- The word of a context command as a sum of its opcode and operands (30_encoding.md R70, R72). -/
theorem wordOfFields_eq_add {c : Nat} (hc : c ≤ 255) (opc b : Byte) :
    wordOfFields opc (BitVec.ofNat 8 c) b =
      BitVec.ofNat 64 (0x1000000 * opc.toNat) + BitVec.ofNat 64 (0x10000 * c + b.toNat) := by
  apply BitVec.eq_of_toNat_eq
  have ho := opc.isLt
  have hb := b.isLt
  rw [wordOfFields_toNat, ← BitVec.ofNat_add, BitVec.toNat_ofNat, BitVec.toNat_ofNat,
    Nat.mod_eq_of_lt (a := c) (by omega), Nat.mod_eq_of_lt (by omega)]
  omega

theorem decode_ctxStart_word {c : Nat} (hc : c ≤ 255) :
    decode (0x10000000 + BitVec.ofNat 64 (0x10000 * c)) = .command (.ctxStart c) :=
  (congrArg decode (wordOfFields_eq_add hc 0x10 0)).symm.trans
    (decodeOfEncodeIsTheCommand (.ctxStart c) ((wellFormed_ctxStart c).mpr hc))

theorem decode_ctxFold_word {c : Nat} (hc : c ≤ 255) (b : Byte) :
    decode (0x11000000 + BitVec.ofNat 64 (0x10000 * c + b.toNat)) = .command (.ctxFold c b) :=
  (congrArg decode (wordOfFields_eq_add hc 0x11 b)).symm.trans
    (decodeOfEncodeIsTheCommand (.ctxFold c b) ((wellFormed_ctxFold c b).mpr hc))

theorem decode_ctxFinal_word {c : Nat} (hc : c ≤ 255) :
    decode (0x12000000 + BitVec.ofNat 64 (0x10000 * c)) = .command (.ctxFinal c) :=
  (congrArg decode (wordOfFields_eq_add hc 0x12 0)).symm.trans
    (decodeOfEncodeIsTheCommand (.ctxFinal c) ((wellFormed_ctxFinal c).mpr hc))

end Sys2Proof

namespace Sys2Proof.Machine

/-! ## Illegal words -/

/-- A word whose HI or RSV is not 0, or whose IMM8 is not 0 with the opcode of CTX_START or CTX_FINAL, is
illegal (30_encoding.md R74, R75). -/
theorem issue_illegal_of_nonzero_field {w : Word} (h : w.toNat / 2 ^ 32 ≠ 0 ∨ w.toNat / 2 ^ 8 % 256 ≠ 0 ∨
    (w.toNat / 2 ^ 24 % 256 ∈ [0x10, 0x12] ∧ w.toNat % 256 ≠ 0)) (s : State) :
    issue w s = .next (raiseError .illegalCmd s) := by
  obtain ⟨why, hd⟩ : ∃ why, decode w = .illegal why := by
    rw [decode_illegal_iff, decodes_iff]
    simp only [List.mem_cons, List.not_mem_nil, or_false] at h ⊢
    omega
  exact issue_illegal hd s

/-! ## The checks of a context command -/

theorem startFailure_noConfig {c : Nat} {s : State} (hc : c < s.nCtx) (hv : s.cfgValid = false) :
    startFailure c s = some .noConfig := by
  rw [startFailure, if_neg (Nat.not_le.mpr hc), if_pos hv]

theorem activeFailure_noConfig {c : Nat} {s : State} (hc : c < s.nCtx) (hv : s.cfgValid = false) :
    activeFailure c s = some .noConfig := by
  rw [activeFailure, if_neg (Nat.not_le.mpr hc), if_pos hv]

theorem activeFailure_ctxState {c : Nat} {s : State} (hc : c < s.nCtx) (hv : s.cfgValid = true)
    (ha : (s.ctx c).state ≠ .active) : activeFailure c s = some .ctxState := by
  rw [activeFailure, if_neg (Nat.not_le.mpr hc), if_neg (by simp [hv]), if_pos ha]

/-- A context command whose checks pass writes its context. -/
theorem exec_of_failureOf_none {i : Instr} {c : Nat} (hi : ctxOperand i = some c) {s : State}
    (h : failureOf s i = none) : exec i s = .next (complete (s.setCtx c (writtenCtx s i))) := by
  rw [exec_ctxOperand hi, h, endCommand_none]

/-- A context command one of whose checks fails raises that failure. -/
theorem exec_of_failureOf_some {i : Instr} {c : Nat} (hi : ctxOperand i = some c) {s : State}
    {code : ErrCode} (h : failureOf s i = some code) : exec i s = .next (raiseError code s) := by
  rw [exec_ctxOperand hi, h, endCommand_some]

/-- CTX_START under a committed configuration (41_fold_engine.md R120). -/
theorem exec_ctxStart_success {c : Nat} {s : State} (hc : c < s.nCtx) (hv : s.cfgValid = true) :
    exec (.ctxStart c) s = .next (complete (s.setCtx c ⟨.active, seed s.cfg⟩)) :=
  exec_of_failureOf_none rfl (startFailure_eq_none.mpr ⟨hc, hv⟩)

/-- CTX_FOLD in an ACTIVE context (41_fold_engine.md R124). -/
theorem exec_ctxFold_success {c : Nat} {s : State} (hc : c < s.nCtx) (hv : s.cfgValid = true)
    (ha : (s.ctx c).state = .active) (b : Byte) : exec (.ctxFold c b) s =
      .next (complete (s.setCtx c ⟨.active, fold s.cfg s.table (s.ctx c).hash b⟩)) :=
  exec_of_failureOf_none rfl (activeFailure_eq_none.mpr ⟨hc, hv, ha⟩)

/-- CTX_FINAL in an ACTIVE context (41_fold_engine.md R137). -/
theorem exec_ctxFinal_success {c : Nat} {s : State} (hc : c < s.nCtx) (hv : s.cfgValid = true)
    (ha : (s.ctx c).state = .active) :
    exec (.ctxFinal c) s = .next (complete (s.setCtx c ⟨.done, finalize s.cfg (s.ctx c).hash⟩)) :=
  exec_of_failureOf_none rfl (activeFailure_eq_none.mpr ⟨hc, hv, ha⟩)

/-! ## The statements of the three commands -/

theorem CrcConfig.Valid.one_le_bits {k : CrcConfig} (hk : k.Valid) : 1 ≤ k.bits.toNat := hk.1

theorem CrcConfig.Valid.bits_le {k : CrcConfig} (hk : k.Valid) : k.bits.toNat ≤ 64 := hk.2.1

/-- The seed of a valid configuration fits the width (41_fold_engine.md R121). -/
theorem seed_le_fullmask_of_valid {k : CrcConfig} (hk : k.Valid) : seed k ≤ fullmask k.bits.toNat := by
  obtain ⟨-, h64, -, hinit, -⟩ := hk
  cases hr : k.refin with
  | true => exact seed_le_fullmask h64 hr
  | false => simpa [seed, hr] using hinit

/-- Settles O28: the success is `exec_ctxStart_success`, each failure the check that names it. -/
theorem ctxStartSeedsTheContext : Obligations.CtxStartSeedsTheContext := by
  intro s c
  refine ⟨exec_ctxStart_success, exec_ctxRange rfl,
    fun hc hv => exec_of_failureOf_some rfl (startFailure_noConfig hc hv), seed_le_fullmask_of_valid,
    decode_ctxStart_word, fun w ho h => issue_illegal_of_nonzero_field ?_ s⟩
  rw [ho]
  simpa using h

/-- Settles O29: the success is `exec_ctxFold_success`, each failure the check that names it. -/
theorem ctxFoldFoldsOneByte : Obligations.CtxFoldFoldsOneByte := by
  intro s c b
  exact ⟨fun hc hv ha => exec_ctxFold_success hc hv ha b, exec_ctxRange rfl,
    fun hc hv => exec_of_failureOf_some rfl (activeFailure_noConfig hc hv),
    fun hc hv ha => exec_of_failureOf_some rfl (activeFailure_ctxState hc hv ha),
    fun hc => decode_ctxFold_word hc b,
    fun w _ h => issue_illegal_of_nonzero_field (h.imp_right .inl) s⟩

/-- Settles O33: the success is `exec_ctxFinal_success`, each failure the check that names it. -/
theorem ctxFinalFinishesTheFold : Obligations.CtxFinalFinishesTheFold := by
  intro s c
  refine ⟨fun hc hv ha => ⟨_, exec_ctxFinal_success hc hv ha, rfl, fun _ h64 => finalize_le_fullmask h64 _⟩,
    exec_ctxRange rfl, fun hc hv => exec_of_failureOf_some rfl (activeFailure_noConfig hc hv),
    fun hc hv ha => exec_of_failureOf_some rfl (activeFailure_ctxState hc hv ha), decode_ctxFinal_word,
    fun w ho h => issue_illegal_of_nonzero_field ?_ s⟩
  rw [ho]
  simpa using h

end Sys2Proof.Machine
end

section
/-! The result bytes: `Serialize` as the base-256 digits of a number (41_fold_engine.md R140). -/

namespace Sys2Proof.Machine

/-- The digits of v in base 256 below the first k are dropped by a shift. -/
theorem shiftRight_byte_toNat (v : Word) (j : Nat) :
    (((v >>> (8 * j)) &&& 0xFF).setWidth 8).toNat = v.toNat / 256 ^ j % 256 := by
  have hmask : (0xFF : Word).toNat = 2 ^ 8 - 1 := rfl
  rw [BitVec.toNat_setWidth, BitVec.toNat_and, hmask, Nat.and_two_pow_sub_one_eq_mod, Nat.mod_mod,
    BitVec.toNat_ushiftRight, Nat.shiftRight_eq_div_pow, Nat.pow_mul]

/-- Byte k of the serialisation is digit `L - 1 - k` of the value in base 256, of L digits. -/
theorem serialize_getD_toNat {bits k : Nat} (hk : k < resultLen bits) (v : Word) :
    ((serialize v bits).getD k 0).toNat = v.toNat / 256 ^ (resultLen bits - 1 - k) % 256 := by
  rw [← shiftRight_byte_toNat]
  simp [serialize, hk]

/-- The first m of L digits in base 256, read from the top, are the number without its last L - m. -/
theorem foldl_digits (x : Nat) {L m : Nat} (hx : x < 256 ^ L) (hm : m ≤ L) :
    (List.range m).foldl (fun a k => a * 256 + x / 256 ^ (L - 1 - k) % 256) 0 = x / 256 ^ (L - m) := by
  induction m with
  | zero => exact (Nat.div_eq_of_lt hx).symm
  | succ m ih =>
    have hdrop : x / 256 ^ (L - m) = x / 256 ^ (L - (m + 1)) / 256 := by
      rw [Nat.div_div_eq_div_mul, ← pow_succ, show L - (m + 1) + 1 = L - m by omega]
    rw [List.range_succ, List.foldl_append, ih (by omega), List.foldl_cons, List.foldl_nil, hdrop,
      show L - 1 - m = L - (m + 1) by omega, Nat.div_add_mod']

/-- Read most significant byte first, the serialisation is the value. -/
theorem foldl_serialize {v : Word} {bits : Nat} (h : v.toNat < 2 ^ bits) :
    (serialize v bits).foldl (fun a b => a * 256 + b.toNat) 0 = v.toNat := by
  have hL : v.toNat < 256 ^ resultLen bits := by
    rw [show 256 = 2 ^ 8 from rfl, ← Nat.pow_mul]
    exact h.trans_le (Nat.pow_le_pow_right (by norm_num) (by unfold resultLen; omega))
  rw [serialize, List.foldl_map]
  simp only [shiftRight_byte_toNat, foldl_digits v.toNat hL le_rfl, Nat.sub_self, Nat.pow_zero,
    Nat.div_one]

/-- Settles O9: the bytes are base-256 digits, and the two views of a DONE context present them. -/
theorem serializeIsBigEndian : Obligations.SerializeIsBigEndian := by
  refine ⟨fun v bits _ h64 hv => ⟨serialize_length v bits, fun k hk => ?_,
    foldl_serialize ((le_fullmask_iff h64).mp hv)⟩, fun s c hd h64 => ?_⟩
  · rw [serialize_getD_toNat hk, Nat.pow_mul]
    rfl
  · rw [serialize_length]
    have := resultLen_le h64
    exact ⟨resultLenWord_of_done hd h64, fun k hk => resultBE_lane hd (by omega)⟩

end Sys2Proof.Machine
end

section
/-! Fold as table lookups (41_fold_engine.md R129 to R132). -/

namespace Sys2Proof.Machine

/-- A lookup of an index below 256 is what the host reads of that entry (20_memory.md R59). -/
theorem lookup_eq_readReg {s : State} {i : Word} (h : i.toNat < 256) :
    s.table.lookup i = s.readReg (.tableEntry ⟨i.toNat, h⟩) :=
  lookup_eq s.table i h

theorem fold_byte_refl {k : CrcConfig} (h8 : 8 ≤ k.bits.toNat) (hr : k.refin = true) (t : Table)
    (h : Word) (b : Byte) : fold k t h b = (h >>> 8) ^^^ t.lookup ((h &&& 0xFF) ^^^ b.toWord) := by
  rw [fold, if_pos h8, if_pos hr, foldByteRefl]

theorem fold_byte_norm {k : CrcConfig} (h8 : 8 ≤ k.bits.toNat) (hr : k.refin = false) (t : Table)
    (h : Word) (b : Byte) : fold k t h b =
      (h <<< 8) ^^^ t.lookup (((h >>> (k.bits.toNat - 8)) &&& 0xFF) ^^^ b.toWord) := by
  rw [fold, if_pos h8, if_neg (by simp [hr]), foldByteNorm, topShift, if_pos h8]

/-- The accumulator of bit mode after the first j bits of the byte; `fold_bit` ties it to `fold`. -/
def bitModeAccumulator (k : CrcConfig) (t : Table) (b : Byte) (h : Word) (j : Nat) : Word :=
  (List.range j).foldl (if k.refin then foldBitRefl t b else foldBitNorm k.bits.toNat t b) h

theorem fold_bit {k : CrcConfig} (h8 : k.bits.toNat < 8) (t : Table) (h : Word) (b : Byte) :
    fold k t h b = bitModeAccumulator k t b h 8 := by
  rw [fold, if_neg (Nat.not_le.mpr h8), bitModeAccumulator]
  split <;> rfl

theorem bitModeAccumulator_succ (k : CrcConfig) (t : Table) (b : Byte) (h : Word) (j : Nat) :
    bitModeAccumulator k t b h (j + 1) =
      (if k.refin then foldBitRefl t b else foldBitNorm k.bits.toNat t b)
        (bitModeAccumulator k t b h j) j := by
  rw [bitModeAccumulator, List.range_succ, List.foldl_append]
  rfl

theorem toWord_toNat_lt (b : Byte) : b.toWord.toNat < 2 ^ 8 := by
  rw [BitVec.toNat_setWidth_of_le (by norm_num)]
  exact b.isLt

/-- A masked value combined with a symbol is a symbol: every index of the fold rules is of this form
(41_fold_engine.md R127). -/
theorem maskw_xor_lt (v : Word) {m : Nat} {x : Word} (hx : x.toNat < 2 ^ m) :
    (maskw v m ^^^ x).toNat < 2 ^ m := by
  rw [BitVec.toNat_xor, maskw_toNat]
  exact Nat.xor_lt_two_pow (Nat.mod_lt _ (Nat.two_pow_pos m)) hx

/-- The index of byte mode is below 256 (41_fold_engine.md R127). -/
theorem and_xor_byte_lt (v : Word) (b : Byte) : ((v &&& 0xFF) ^^^ b.toWord).toNat < 256 :=
  maskw_xor_lt v (toWord_toNat_lt b)

/-- The index of bit mode is 0 or 1 (41_fold_engine.md R127). -/
theorem and_one_xor_lt (v w : Word) : ((v &&& 1) ^^^ (w &&& 1)).toNat < 2 := by
  have hw : (w &&& 1).toNat < 2 ^ 1 := by
    rw [BitVec.toNat_and]
    exact Nat.and_lt_two_pow _ (by decide)
  exact maskw_xor_lt v hw

/-- Settles O30: each form is one lookup at an index below 256, which the host can read; the reflected one
is a right shift of a value that fits and an entry that fits. -/
theorem byteModeFoldIsOneLookup : Obligations.ByteModeFoldIsOneLookup := by
  intro s c b hc hv ha h8 h64
  cases hr : s.cfg.refin with
  | true =>
    refine ⟨⟨_, and_xor_byte_lt (s.ctx c).hash b⟩, _, exec_ctxFold_success hc hv ha b,
      fun _ => ⟨rfl, ?_⟩, nofun⟩
    rw [fold_byte_refl h8 hr, lookup_eq_readReg (and_xor_byte_lt _ b)]
    exact ⟨rfl, fun hh he => xor_le_fullmask h64 (shiftRight_le_fullmask h64 hh) he⟩
  | false =>
    refine ⟨⟨_, and_xor_byte_lt ((s.ctx c).hash >>> (s.cfg.bits.toNat - 8)) b⟩, _,
      exec_ctxFold_success hc hv ha b, nofun, fun _ => ⟨rfl, ?_⟩⟩
    rw [fold_byte_norm h8 hr, lookup_eq_readReg (and_xor_byte_lt _ b)]

/-- Settles O31: the eight accumulators are `bitModeAccumulator`, and each lookup is at entry 0 or 1. -/
theorem bitModeFoldIsEightLookups : Obligations.BitModeFoldIsEightLookups := by
  intro s c b hc hv ha h8
  refine ⟨bitModeAccumulator s.cfg s.table b (s.ctx c).hash, rfl, ?_, fun i _ => ?_⟩
  · rw [← fold_bit h8]
    exact exec_ctxFold_success hc hv ha b
  rw [bitModeAccumulator_succ]
  generalize bitModeAccumulator s.cfg s.table b (s.ctx c).hash i = h
  cases hr : s.cfg.refin with
  | true =>
    have hx := and_one_xor_lt h (b.toWord >>> i)
    exact ⟨⟨_, hx.trans (by norm_num)⟩, hx,
      fun _ => ⟨rfl, congrArg (h >>> 1 ^^^ ·) (lookup_eq_readReg _)⟩, nofun⟩
  | false =>
    have hx := and_one_xor_lt (h >>> (s.cfg.bits.toNat - 1)) (b.toWord >>> (7 - i))
    refine ⟨⟨_, hx.trans (by norm_num)⟩, hx, nofun, fun _ => ⟨rfl, ?_⟩⟩
    rw [if_neg (by simp), foldBitNorm, topShift, if_neg (by omega), lookup_eq_readReg (by omega)]

end Sys2Proof.Machine
end

section
/-! Dividing the register by the polynomial, several bits at once: what one table lookup and one step of
the bit-serial CRC have in common (40_config_table.md R104; 41_fold_engine.md R145). -/

namespace Sys2Proof.Machine

/-! ## Words cut in two -/

@[simp] theorem maskw_maskw (v : Word) (n : Nat) : maskw (maskw v n) n = maskw v n :=
  maskw_eq_iff.mpr fun i hi => by simp [maskw_getLsbD, hi]

@[simp] theorem maskw_zero (n : Nat) : maskw 0#64 n = 0#64 :=
  BitVec.eq_of_getLsbD_eq fun i _ => by simp [maskw_getLsbD]

theorem flagBit_getLsbD (d : Bool) (i : Nat) : (flagBit d).getLsbD i = (decide (i = 0) && d) := by
  simpa using flagBit_shiftLeft_getLsbD d (k := 0) (by decide) i

/-- The low n bits are the lower n - m of them and the top m, shifted back up. -/
theorem maskw_eq_low_xor_top {n m : Nat} (hmn : m ≤ n) (v : Word) :
    maskw v n = maskw v (n - m) ^^^ maskw (v >>> (n - m)) m <<< (n - m) := by
  apply BitVec.eq_of_getLsbD_eq
  intro i hi
  simp only [BitVec.getLsbD_xor, BitVec.getLsbD_shiftLeft, BitVec.getLsbD_ushiftRight, maskw_getLsbD]
  obtain h | h := Nat.lt_or_ge i (n - m)
  · simp [h, show i < n by omega]
  · simp [hi, show ¬ i < n - m by omega, show n - m + (i - (n - m)) = i by omega,
      show i - (n - m) < m ↔ i < n by omega]

/-- The top bit of m + 1 low bits, apart from the rest. -/
theorem maskw_succ (v : Word) (m : Nat) : maskw v (m + 1) = flagBit (v.getLsbD m) <<< m ^^^ maskw v m := by
  rw [maskw_eq_low_xor_top (Nat.le_add_left 1 m) v, Nat.add_sub_cancel, BitVec.xor_comm]
  congr 2
  apply BitVec.eq_of_getLsbD_eq
  intro i _
  rw [maskw_getLsbD, flagBit_getLsbD, BitVec.getLsbD_ushiftRight]
  cases i <;> simp

/-! ## Division -/

/-- What m division steps leave of a value below the width: the CRC of its top m bits
(40_config_table.md R104, R107). -/
def CrcConfig.divide (k : CrcConfig) (m : Nat) (v : Word) : Word :=
  maskw (divisionSteps (msbMask k.bits.toNat) k.poly m v) k.bits.toNat

theorem divide_xor {k : CrcConfig} (hk : k.Valid) (m : Nat) (v w : Word) :
    k.divide m (v ^^^ w) = k.divide m v ^^^ k.divide m w := by
  rw [CrcConfig.divide, divisionSteps_xor hk.one_le_bits hk.bits_le, maskw_xor]
  rfl

@[simp] theorem maskw_divide (k : CrcConfig) (m : Nat) (v : Word) :
    maskw (k.divide m v) k.bits.toNat = k.divide m v :=
  maskw_maskw _ _

/-- Division reads the value below the width only. -/
theorem divide_maskw {k : CrcConfig} (hk : k.Valid) (m : Nat) (v : Word) :
    k.divide m (maskw v k.bits.toNat) = k.divide m v := by
  obtain ⟨h1, h64, -⟩ := hk
  rw [CrcConfig.divide, CrcConfig.divide, maskw_divisionSteps h1 h64, maskw_divisionSteps h1 h64,
    maskw_maskw]

/-- A division step of a value whose top bit is 0 is a shift. -/
theorem divisionStep_of_top_clear {bits : Nat} (h1 : 1 ≤ bits) (h64 : bits ≤ 64) (poly : Word) {v : Word}
    (hv : v.getLsbD (bits - 1) = false) : divisionStep (msbMask bits) poly v = v <<< 1 := by
  rw [divisionStep_eq h1 h64, hv]
  exact BitVec.xor_zero

/-- Dividing m bits of a value whose top m bits are 0 is a shift by m. -/
theorem divisionSteps_of_top_clear {bits : Nat} (h1 : 1 ≤ bits) (h64 : bits ≤ 64) (poly : Word) {m : Nat}
    (hm : m ≤ bits) {v : Word} (hv : ∀ i, bits - m ≤ i → v.getLsbD i = false) :
    divisionSteps (msbMask bits) poly m v = v <<< m := by
  induction m generalizing v with
  | zero => exact (BitVec.shiftLeft_zero v).symm
  | succ m ih =>
    rw [divisionSteps, divisionStep_of_top_clear h1 h64 poly (hv _ (by omega)), Nat.add_comm,
      BitVec.shiftLeft_add]
    refine ih (by omega) fun i hi => ?_
    rw [BitVec.getLsbD_shiftLeft, hv (i - 1) (by omega), Bool.and_false]

/-- Dividing m bits of a register whose top m bits are masked away shifts the register by m. -/
theorem divide_maskw_low {k : CrcConfig} (hk : k.Valid) {m : Nat} (hm : m ≤ k.bits.toNat) (v : Word) :
    k.divide m (maskw v (k.bits.toNat - m)) = maskw (v <<< m) k.bits.toNat := by
  obtain ⟨h1, h64, -⟩ := hk
  rw [CrcConfig.divide, divisionSteps_of_top_clear h1 h64 _ hm fun i hi => by
    rw [maskw_getLsbD, decide_eq_false (by omega), Bool.false_and]]
  refine maskw_eq_iff.mpr fun i hi => ?_
  rw [BitVec.getLsbD_shiftLeft, BitVec.getLsbD_shiftLeft, maskw_getLsbD]
  obtain h | h := Nat.lt_or_ge i m
  · simp [h]
  · rw [decide_eq_true (by omega : i - m < k.bits.toNat - m), Bool.true_and]

/-- One lookup of the non-reflected forms: the top m bits of the register, combined with a symbol and
divided, are what a division of the register combined with the symbol leaves (41_fold_engine.md R130,
R132). -/
theorem maskw_shiftLeft_xor_divide {k : CrcConfig} (hk : k.Valid) {m : Nat} (hm : m ≤ k.bits.toNat)
    (h x : Word) :
    maskw (h <<< m ^^^
      k.divide m ((maskw (h >>> (k.bits.toNat - m)) m ^^^ x) <<< (k.bits.toNat - m))) k.bits.toNat =
      k.divide m (h ^^^ x <<< (k.bits.toNat - m)) := by
  have hh : k.divide m h = maskw (h <<< m) k.bits.toNat ^^^
      k.divide m (maskw (h >>> (k.bits.toNat - m)) m <<< (k.bits.toNat - m)) := by
    rw [← divide_maskw hk, maskw_eq_low_xor_top hm h, divide_xor hk, divide_maskw_low hk hm]
  rw [maskw_xor, maskw_divide, BitVec.shiftLeft_xor_distrib, divide_xor hk, divide_xor hk, hh,
    BitVec.xor_assoc]

/-! ## The bit-serial division -/

/-- One bit of the bit-serial CRC is one division step of the register combined with the bit
(41_fold_engine.md R145). -/
theorem naiveBit_maskw {k : CrcConfig} (hk : k.Valid) (v : Word) (d : Bool) :
    naiveBit k (maskw v k.bits.toNat) d = k.divide 1 (v ^^^ flagBit d <<< (k.bits.toNat - 1)) := by
  obtain ⟨h1, h64, hp, -⟩ := hk
  have htop : (maskw v k.bits.toNat).getLsbD (k.bits.toNat - 1) = v.getLsbD (k.bits.toNat - 1) := by
    rw [maskw_getLsbD, decide_eq_true (by omega), Bool.true_and]
  have hd : (flagBit d <<< (k.bits.toNat - 1)).getLsbD (k.bits.toNat - 1) = d := by
    rw [flagBit_shiftLeft_getLsbD d (by omega), decide_eq_true rfl, Bool.true_and]
  have hout : flagBit d <<< (k.bits.toNat - 1) <<< 1 = flagBit d <<< k.bits.toNat := by
    rw [← BitVec.shiftLeft_add, Nat.sub_add_cancel h1]
  rw [naiveBit, CrcConfig.divide, divisionSteps, divisionSteps, divisionStep_eq h1 h64, BitVec.getLsbD_xor,
    hd, htop, BitVec.shiftLeft_xor_distrib, hout, maskw_xor, maskw_xor, maskw_shiftLeft_self,
    maskw_shiftLeft_maskw]
  cases (v.getLsbD (k.bits.toNat - 1) ^^ d) with
  | true => simp [maskw_of_fits h64 hp]
  | false => simp

/-- The low m bits of d, most significant first, one bit at a time; `naiveByte_eq` ties it to
`naiveByte`. -/
def naiveBits (k : CrcConfig) (d : Word) : Nat → Word → Word
  | 0, r => r
  | m + 1, r => naiveBits k d m (naiveBit k r (d.getLsbD m))

theorem naiveByte_eq (k : CrcConfig) (r : Word) (b : Byte) :
    naiveByte k r b = naiveBits k (if k.refin then reflect b.toWord 8 else b.toWord) 8 r := rfl

/-- The division of m + 1 bits is that of one bit and then of m bits. -/
theorem divide_succ {k : CrcConfig} (hk : k.Valid) (m : Nat) (v : Word) :
    k.divide (m + 1) v = k.divide m (k.divide 1 v) := by
  rw [CrcConfig.divide, divisionSteps, ← CrcConfig.divide, ← divide_maskw hk]
  rfl

/-- One division step of m bits aligned below the top of the register is a shift. -/
theorem divide_one_maskw_shiftLeft {k : CrcConfig} (hk : k.Valid) (d : Word) {m : Nat}
    (hm : m + 1 ≤ k.bits.toNat) :
    k.divide 1 (maskw d m <<< (k.bits.toNat - (m + 1))) = maskw d m <<< (k.bits.toNat - m) := by
  obtain ⟨h1, h64, -⟩ := hk
  have hbit : ∀ j i, m + j ≤ i → (maskw d m <<< j).getLsbD i = false := fun j i hi => by
    rw [BitVec.getLsbD_shiftLeft, maskw_getLsbD, decide_eq_false (by omega : ¬ i - j < m), Bool.false_and,
      Bool.and_false]
  rw [CrcConfig.divide, divisionSteps_of_top_clear h1 h64 _ h1 fun i hi => hbit _ i (by omega),
    ← BitVec.shiftLeft_add, show k.bits.toNat - (m + 1) + 1 = k.bits.toNat - m by omega]
  exact maskw_of_fits h64 ((le_fullmask_iff_bits h64).mpr fun i hi => hbit _ i (by omega))

/-- Up to the width, m bits of the bit-serial CRC are one division of the register combined with them. -/
theorem naiveBits_maskw {k : CrcConfig} (hk : k.Valid) (d : Word) {m : Nat} (hm : m ≤ k.bits.toNat)
    (v : Word) : naiveBits k d m (maskw v k.bits.toNat) =
      k.divide m (v ^^^ maskw d m <<< (k.bits.toNat - m)) := by
  induction m generalizing v with
  | zero =>
    have h0 : maskw d 0 = 0#64 := by simp [maskw]
    rw [h0, BitVec.zero_shiftLeft, BitVec.xor_zero]
    rfl
  | succ m ih =>
    calc naiveBits k d (m + 1) (maskw v k.bits.toNat)
        = naiveBits k d m (maskw (k.divide 1 (v ^^^ flagBit (d.getLsbD m) <<< (k.bits.toNat - 1)))
            k.bits.toNat) := by
          rw [naiveBits, naiveBit_maskw hk, maskw_divide]
      _ = k.divide m (k.divide 1 (v ^^^ flagBit (d.getLsbD m) <<< (k.bits.toNat - 1)) ^^^
            maskw d m <<< (k.bits.toNat - m)) := ih (by omega) _
      _ = k.divide (m + 1) (v ^^^ flagBit (d.getLsbD m) <<< (k.bits.toNat - 1) ^^^
            maskw d m <<< (k.bits.toNat - (m + 1))) := by
          rw [divide_succ hk m, divide_xor hk 1 (v ^^^ _), divide_one_maskw_shiftLeft hk d hm]
      _ = k.divide (m + 1) (v ^^^ maskw d (m + 1) <<< (k.bits.toNat - (m + 1))) := by
          rw [maskw_succ, BitVec.shiftLeft_xor_distrib, ← BitVec.shiftLeft_add,
            show m + (k.bits.toNat - (m + 1)) = k.bits.toNat - 1 by omega, BitVec.xor_assoc]

end Sys2Proof.Machine
end

section
/-! The table-driven fold against the bit-serial CRC (41_fold_engine.md R133, R142, R145): the register of
the bit-serial CRC is the accumulator below the width, reflected in the reflected modes. -/

namespace Sys2Proof.Machine

/-! ## Reflection and the low bits -/

/-- Reflecting one bit changes nothing. -/
theorem reflect_one {v : Word} (h : v.toNat < 2) : reflect v 1 = v := by
  have hv : v ≤ fullmask 1 := (le_fullmask_iff (by norm_num)).mpr h
  apply BitVec.eq_of_getLsbD_eq
  intro i _
  rw [reflect_getLsbD (by norm_num)]
  obtain rfl | hi := Nat.eq_zero_or_pos i
  · simp
  · simp [(le_fullmask_iff_bits (by norm_num)).mp hv i hi, show i ≠ 0 by omega]

/-- Reflected, a right shift of a value that fits is a left shift below the width. -/
theorem reflect_shiftRight {v : Word} {n : Nat} (hn : n ≤ 64) (hv : v ≤ fullmask n) (m : Nat) :
    reflect (v >>> m) n = maskw (reflect v n <<< m) n := by
  apply BitVec.eq_of_getLsbD_eq
  intro i hi
  rw [reflect_getLsbD hn, maskw_getLsbD, BitVec.getLsbD_shiftLeft, BitVec.getLsbD_ushiftRight,
    reflect_getLsbD hn]
  obtain h | h := Nat.lt_or_ge i m
  · simp [h, (le_fullmask_iff_bits hn).mp hv (m + (n - 1 - i)) (by omega)]
  · by_cases hin : i < n
    · simp [hi, hin, show ¬ i < m by omega, show i - m < n by omega,
        show m + (n - 1 - i) = n - 1 - (i - m) by omega]
    · simp [hin]

/-- The low m bits reflected are the top m bits of the reflection. -/
theorem reflect_maskw_low {v : Word} {n m : Nat} (hn : n ≤ 64) (hmn : m ≤ n) :
    reflect (maskw v m) m = maskw (reflect v n >>> (n - m)) m := by
  apply BitVec.eq_of_getLsbD_eq
  intro i hi
  rw [reflect_getLsbD (by omega), maskw_getLsbD, maskw_getLsbD, BitVec.getLsbD_ushiftRight,
    reflect_getLsbD hn]
  by_cases him : i < m
  · simp [him, show m - 1 - i < m by omega, show n - m + i < n by omega,
      show n - 1 - (n - m + i) = m - 1 - i by omega]
  · simp [him]

/-! ## One lookup -/

/-- A symbol is one byte or one bit, and no wider than the register (40_config_table.md R94). -/
theorem perSymbolBits_le {bits : Nat} (h1 : 1 ≤ bits) :
    perSymbolBits bits ≤ bits ∧ perSymbolBits bits ≤ 8 := by
  unfold perSymbolBits
  split <;> omega

/-- The lookup of a symbol is the entry of its number. -/
theorem makeTable_lookup {k : CrcConfig} (h1 : 1 ≤ k.bits.toNat) {i : Word}
    (hi : i.toNat < tableSize k.bits.toNat) :
    k.makeTable.lookup i = tableEntry k.bits.toNat k.poly k.refin i.toNat := by
  have h256 : tableSize k.bits.toNat ≤ 2 ^ 8 := Nat.pow_le_pow_right (by norm_num) (perSymbolBits_le h1).2
  rw [lookup_eq _ i (by omega), CrcConfig.makeTable, generateTable_getElem]

/-- Without `refin` an entry is the division of its index, aligned at the top (40_config_table.md R104). -/
theorem makeTable_lookup_norm {k : CrcConfig} (h1 : 1 ≤ k.bits.toNat) (hr : k.refin = false) {m : Nat}
    (hm : perSymbolBits k.bits.toNat = m) {i : Word} (hi : i.toNat < 2 ^ m) :
    k.makeTable.lookup i = k.divide m (i <<< (k.bits.toNat - m)) := by
  subst hm
  rw [makeTable_lookup h1 hi, hr, tableEntry_of_lt _ _ hi, symbolOfIndex_norm, BitVec.ofNat_toNat,
    BitVec.setWidth_eq]
  rfl

/-- The symbol of an index in the reflected modes is the index reflected (40_config_table.md R105). -/
theorem symbolOfIndex_refl {bits : Nat} {i : Word} (hi : i.toNat < tableSize bits) :
    symbolOfIndex bits true i.toNat = reflect i (perSymbolBits bits) := by
  obtain h8 | h8 := Nat.lt_or_ge bits 8
  · rw [symbolOfIndex_bit h8, perSymbolBits, if_neg (by omega),
      reflect_one (hi.trans_eq (tableSize_bit h8)), BitVec.ofNat_toNat, BitVec.setWidth_eq]
  · rw [symbolOfIndex_byte_refl h8, perSymbolBits, if_pos h8, BitVec.ofNat_toNat, BitVec.setWidth_eq]

/-- With `refin` it is the reflected division of the reflected index (40_config_table.md R104). -/
theorem makeTable_lookup_refl {k : CrcConfig} (h1 : 1 ≤ k.bits.toNat) (h64 : k.bits.toNat ≤ 64)
    (hr : k.refin = true) {m : Nat} (hm : perSymbolBits k.bits.toNat = m) {i : Word}
    (hi : i.toNat < 2 ^ m) : k.makeTable.lookup i =
      reflect (k.divide m (reflect i m <<< (k.bits.toNat - m))) k.bits.toNat := by
  subst hm
  rw [makeTable_lookup h1 hi, hr, tableEntry_of_lt _ _ hi, if_pos rfl, symbolOfIndex_refl hi,
    maskw_reflect h64]
  rfl

/-- One step of the non-reflected forms, below the width, is a division of the register combined with
the symbol (41_fold_engine.md R130, R132). -/
theorem maskw_lookupStep {k : CrcConfig} (hk : k.Valid) (hr : k.refin = false) {m : Nat}
    (hm : perSymbolBits k.bits.toNat = m) (h : Word) {x : Word} (hx : x.toNat < 2 ^ m) :
    maskw (h <<< m ^^^ k.makeTable.lookup (maskw (h >>> (k.bits.toNat - m)) m ^^^ x)) k.bits.toNat =
      k.divide m (h ^^^ x <<< (k.bits.toNat - m)) := by
  have hle : m ≤ k.bits.toNat := hm ▸ (perSymbolBits_le hk.one_le_bits).1
  rw [makeTable_lookup_norm hk.one_le_bits hr hm (maskw_xor_lt _ hx), maskw_shiftLeft_xor_divide hk hle]

/-- One step of the reflected forms, reflected, is a division of the reflected register combined with
the reflected symbol (41_fold_engine.md R129, R131). -/
theorem reflect_lookupStep {k : CrcConfig} (hk : k.Valid) (hr : k.refin = true) {m : Nat}
    (hm : perSymbolBits k.bits.toNat = m) {h : Word} (hh : h ≤ fullmask k.bits.toNat) {x : Word}
    (hx : x.toNat < 2 ^ m) :
    reflect (h >>> m ^^^ k.makeTable.lookup (maskw h m ^^^ x)) k.bits.toNat =
      k.divide m (reflect h k.bits.toNat ^^^ reflect x m <<< (k.bits.toNat - m)) := by
  have h1 := hk.one_le_bits
  have h64 := hk.bits_le
  obtain ⟨hle, hle8⟩ : m ≤ k.bits.toNat ∧ m ≤ 8 := hm ▸ perSymbolBits_le h1
  have hdiv (v : Word) : reflect (reflect (k.divide m v) k.bits.toNat) k.bits.toNat = k.divide m v :=
    reflect_reflect h64 (maskw_le_fullmask h64)
  rw [makeTable_lookup_refl h1 h64 hr hm (maskw_xor_lt h hx), reflect_xor h64, reflect_shiftRight h64 hh,
    hdiv, reflect_xor (by omega), reflect_maskw_low h64 hle, ← maskw_shiftLeft_xor_divide hk hle,
    maskw_xor, maskw_divide]

/-! ## One byte -/

/-- The register of the bit-serial CRC that an accumulator stands for. -/
def CrcConfig.register (k : CrcConfig) (h : Word) : Word :=
  if k.refin then reflect h k.bits.toNat else maskw h k.bits.toNat

theorem register_norm {k : CrcConfig} (hr : k.refin = false) (h : Word) :
    k.register h = maskw h k.bits.toNat :=
  if_neg (by simp [hr])

theorem register_refl {k : CrcConfig} (hr : k.refin = true) (h : Word) :
    k.register h = reflect h k.bits.toNat :=
  if_pos hr

@[simp] theorem maskw_register {k : CrcConfig} (h64 : k.bits.toNat ≤ 64) (h : Word) :
    maskw (k.register h) k.bits.toNat = k.register h := by
  cases hr : k.refin with
  | true => rw [register_refl hr, maskw_of_fits h64 (reflect_le_fullmask h64)]
  | false => rw [register_norm hr, maskw_maskw]

/-- A symbol that fits is its own mask. -/
theorem maskw_of_lt_two_pow {x : Word} {m : Nat} (hx : x.toNat < 2 ^ m) : maskw x m = x := by
  apply BitVec.eq_of_toNat_eq
  rw [maskw_toNat, Nat.mod_eq_of_lt hx]

/-- The byte the bit-serial CRC takes from bit 7 down: reflected first when `refin`
(41_fold_engine.md R145). -/
def CrcConfig.inputByte (k : CrcConfig) (b : Byte) : Word :=
  if k.refin then reflect b.toWord 8 else b.toWord

theorem inputByte_toNat_lt (k : CrcConfig) (b : Byte) : (k.inputByte b).toNat < 2 ^ 8 := by
  unfold CrcConfig.inputByte
  split
  · exact reflect_toNat_lt (by norm_num)
  · exact toWord_toNat_lt b

/-- In byte mode a fold is the division of eight bits of the register (41_fold_engine.md R129, R130). -/
theorem register_fold_byte {k : CrcConfig} (hk : k.Valid) (h8 : 8 ≤ k.bits.toNat) {h : Word}
    (hh : k.refin = true → h ≤ fullmask k.bits.toNat) (b : Byte) :
    k.register (fold k k.makeTable h b) =
      k.divide 8 (k.register h ^^^ k.inputByte b <<< (k.bits.toNat - 8)) := by
  have hm : perSymbolBits k.bits.toNat = 8 := if_pos h8
  unfold CrcConfig.inputByte
  cases hr : k.refin with
  | true =>
    rw [register_refl hr, register_refl hr, fold_byte_refl h8 hr]
    exact reflect_lookupStep hk hr hm (hh hr) (toWord_toNat_lt b)
  | false =>
    rw [register_norm hr, register_norm hr, fold_byte_norm h8 hr, divide_xor hk, divide_maskw hk,
      ← divide_xor hk]
    exact maskw_lookupStep hk hr hm h (toWord_toNat_lt b)

/-- One bit of a word, as bit mode reads it (41_fold_engine.md R131). -/
theorem shiftRight_and_one (v : Word) (j : Nat) : (v >>> j) &&& 1 = flagBit (v.getLsbD j) := by
  have hmask : (v >>> j) &&& 1 = maskw (v >>> j) 1 := rfl
  apply BitVec.eq_of_getLsbD_eq
  intro i _
  rw [hmask, maskw_getLsbD, flagBit_getLsbD, BitVec.getLsbD_ushiftRight]
  cases i <;> simp

theorem flagBit_toNat_lt (d : Bool) : (flagBit d).toNat < 2 := by
  cases d <;> decide

/-- In bit mode each of the eight steps of a fold is one bit of the bit-serial CRC (41_fold_engine.md R131,
R132). -/
theorem register_bitStep {k : CrcConfig} (hk : k.Valid) (h8 : k.bits.toNat < 8) {h : Word}
    (hh : k.refin = true → h ≤ fullmask k.bits.toNat) (b : Byte) {i : Nat} (hi : i < 8) :
    k.register ((if k.refin then foldBitRefl k.makeTable b else foldBitNorm k.bits.toNat k.makeTable b) h i) =
      naiveBit k (k.register h) ((k.inputByte b).getLsbD (7 - i)) := by
  have hm : perSymbolBits k.bits.toNat = 1 := if_neg (by omega)
  unfold CrcConfig.inputByte
  rw [← maskw_register hk.bits_le h, naiveBit_maskw hk]
  cases hr : k.refin with
  | true =>
    have hbit : (reflect b.toWord 8).getLsbD (7 - i) = b.toWord.getLsbD i := by
      rw [reflect_getLsbD (by norm_num), decide_eq_true (by omega : 7 - i < 8), Bool.true_and,
        show 8 - 1 - (7 - i) = i by omega]
    have hx := flagBit_toNat_lt (b.toWord.getLsbD i)
    rw [if_pos rfl, if_pos rfl, register_refl hr, register_refl hr, foldBitRefl, shiftRight_and_one, hbit]
    exact (reflect_lookupStep hk hr hm (hh hr) hx).trans (by rw [reflect_one hx])
  | false =>
    rw [if_neg (by simp), if_neg (by simp), register_norm hr, register_norm hr, foldBitNorm, topShift,
      if_neg (by omega), shiftRight_and_one b.toWord, divide_xor hk, divide_maskw hk, ← divide_xor hk]
    exact maskw_lookupStep hk hr hm h (flagBit_toNat_lt _)

/-- The bits of a byte in the order the bit-serial CRC takes them (41_fold_engine.md R145). -/
theorem naiveByte_eq_foldl (k : CrcConfig) (r : Word) (b : Byte) :
    naiveByte k r b =
      (List.range 8).foldl (fun r i => naiveBit k r ((k.inputByte b).getLsbD (7 - i))) r := rfl

/-- In the reflected modes the accumulator of bit mode fits after every bit (41_fold_engine.md R133). -/
theorem bitModeAccumulator_le_fullmask {k : CrcConfig} (h64 : k.bits.toNat ≤ 64) (hr : k.refin = true)
    {h : Word} (hh : h ≤ fullmask k.bits.toNat) (b : Byte) (j : Nat) :
    bitModeAccumulator k k.makeTable b h j ≤ fullmask k.bits.toNat := by
  rw [bitModeAccumulator, if_pos hr]
  exact foldl_foldBitRefl_le_fullmask h64 (makeTable_lookup_le_fullmask h64) b _ hh

/-- After j bits of a byte in bit mode the register is that of the bit-serial CRC after j bits. -/
theorem register_bitModeAccumulator {k : CrcConfig} (hk : k.Valid) (h8 : k.bits.toNat < 8) {h : Word}
    (hh : k.refin = true → h ≤ fullmask k.bits.toNat) (b : Byte) {j : Nat} (hj : j ≤ 8) :
    k.register (bitModeAccumulator k k.makeTable b h j) =
      (List.range j).foldl (fun r i => naiveBit k r ((k.inputByte b).getLsbD (7 - i))) (k.register h) := by
  induction j with
  | zero => rfl
  | succ j ih =>
    have hfits (hr : k.refin = true) := bitModeAccumulator_le_fullmask hk.bits_le hr (hh hr) b j
    rw [bitModeAccumulator_succ, register_bitStep hk h8 hfits b hj, ih (by omega), List.range_succ,
      List.foldl_append, List.foldl_cons, List.foldl_nil]

/-- A fold of a byte is a byte of the bit-serial CRC (41_fold_engine.md R145). -/
theorem register_fold {k : CrcConfig} (hk : k.Valid) {h : Word}
    (hh : k.refin = true → h ≤ fullmask k.bits.toNat) (b : Byte) :
    k.register (fold k k.makeTable h b) = naiveByte k (k.register h) b := by
  obtain h8 | h8 := Nat.lt_or_ge k.bits.toNat 8
  · rw [fold_bit h8, register_bitModeAccumulator hk h8 hh b le_rfl, naiveByte_eq_foldl]
  · have hnaive := naiveBits_maskw hk (k.inputByte b) h8 (k.register h)
    rw [maskw_register hk.bits_le, maskw_of_lt_two_pow (inputByte_toNat_lt k b)] at hnaive
    exact (register_fold_byte hk h8 hh b).trans hnaive.symm

/-! ## The whole computation -/

/-- What the bit-serial CRC makes of its register at the end (41_fold_engine.md R145). -/
def CrcConfig.finish (k : CrcConfig) (r : Word) : Word :=
  maskw ((if k.refout then reflect r k.bits.toNat else r) ^^^ k.xorout) k.bits.toNat

theorem naiveHash_eq (k : CrcConfig) (data : List Byte) :
    naiveHash k data = k.finish (data.foldl (naiveByte k) k.init) := rfl

/-- Finalize finishes the register (41_fold_engine.md R138, R139). -/
theorem finalize_eq_finish {k : CrcConfig} (h64 : k.bits.toNat ≤ 64) {h : Word}
    (hh : k.refin = true → h ≤ fullmask k.bits.toNat) : finalize k h = k.finish (k.register h) := by
  unfold finalize CrcConfig.finish
  cases hr : k.refin with
  | true => cases hro : k.refout <;> simp [register_refl hr, reflect_reflect h64 (hh hr)]
  | false =>
    cases hro : k.refout <;> simp [register_norm hr, reflect_maskw h64, maskw_xor]

/-- The seed stands for the initial value (41_fold_engine.md R121). -/
theorem register_seed {k : CrcConfig} (hk : k.Valid) : k.register (seed k) = k.init := by
  obtain ⟨-, h64, -, hinit, -⟩ := hk
  cases hr : k.refin with
  | true => rw [register_refl hr, seed, if_pos hr, reflect_reflect h64 hinit]
  | false => rw [register_norm hr, seed, if_neg (by simp [hr]), maskw_of_fits h64 hinit]

/-- Folding a byte sequence keeps the bound of the reflected modes (41_fold_engine.md R133). -/
theorem foldBytes_le_fullmask {k : CrcConfig} (h64 : k.bits.toNat ≤ 64) (hr : k.refin = true) {h : Word}
    (hh : h ≤ fullmask k.bits.toNat) (data : List Byte) :
    foldBytes k k.makeTable h data ≤ fullmask k.bits.toNat := by
  induction data generalizing h with
  | nil => exact hh
  | cons b data ih => exact ih (fold_le_fullmask h64 hr hh b)

/-- Folding a byte sequence takes the register through the bit-serial CRC (41_fold_engine.md R145). -/
theorem register_foldBytes {k : CrcConfig} (hk : k.Valid) {h : Word}
    (hh : k.refin = true → h ≤ fullmask k.bits.toNat) (data : List Byte) :
    k.register (foldBytes k k.makeTable h data) = data.foldl (naiveByte k) (k.register h) := by
  induction data generalizing h with
  | nil => rfl
  | cons b data ih =>
    rw [List.foldl_cons, ← register_fold hk hh]
    exact ih fun hr => fold_le_fullmask hk.bits_le hr (hh hr) b

/-- The two computations give one number. -/
theorem computeHash_eq_naiveHash {k : CrcConfig} (hk : k.Valid) (data : List Byte) :
    computeHash k data = naiveHash k data := by
  have hseed := seed_le_fullmask_of_valid hk
  rw [computeHash, finalize_eq_finish hk.bits_le fun hr => foldBytes_le_fullmask hk.bits_le hr hseed data,
    register_foldBytes hk (fun _ => hseed), register_seed hk, naiveHash_eq]

/-- Settles O38: the numbers are equal, and so are their bytes. -/
theorem tableDrivenEqualsBitSerial : Obligations.TableDrivenEqualsBitSerial := by
  intro k data hk
  rw [compute, computeHash_eq_naiveHash hk, naiveCrc]

/-- Settles O37: the bit-serial CRC of no bytes finishes the initial value. -/
theorem emptyInputResult : Obligations.EmptyInputResult :=
  fun _ hk => ⟨rfl, computeHash_eq_naiveHash hk []⟩

/-! ## The range of the accumulator -/

/-- CRC-8 (95_test_vectors.md section 1.1): width 8, not reflected. -/
def crc8Config : CrcConfig := ⟨8, 0x07, 0, 0, 0⟩

/-- A fold of CRC-8 moves bit 0 of the accumulator to bit 8, where no entry has a bit to clear it
(41_fold_engine.md R133). -/
theorem fold_crc8Config_not_le_fullmask (b : Byte) :
    ¬ fold crc8Config crc8Config.makeTable 1 b ≤ fullmask crc8Config.bits.toNat := by
  have h64 : crc8Config.bits.toNat ≤ 64 := by decide
  have hout : ¬ (1 : Word) <<< 8 ≤ fullmask crc8Config.bits.toNat := by decide
  rw [fold_byte_norm (by decide) (by decide)]
  intro hfold
  have hclear := xor_le_fullmask h64 hfold (makeTable_lookup_le_fullmask h64
    ((((1 : Word) >>> (crc8Config.bits.toNat - 8)) &&& 0xFF) ^^^ b.toWord))
  rw [BitVec.xor_assoc, BitVec.xor_self, BitVec.xor_zero] at hclear
  exact hout hclear

/-- Settles O32: with `refin` by the bounds of seed and fold; without it the low bits of the accumulator
are the register, which a fold takes to the next register and `finalize` to the result. -/
theorem accumulatorRange : Obligations.AccumulatorRange := by
  refine ⟨fun k hk hr => ⟨seed_le_fullmask_of_valid hk, fun h b hh => fold_le_fullmask hk.bits_le hr hh b⟩,
    fun k hk hr h h' heq => ?_, crc8Config, 1, 0, by decide, by decide,
    by decide, fold_crc8Config_not_le_fullmask 0⟩
  have hno (v : Word) : k.refin = true → v ≤ fullmask k.bits.toNat := fun h => nomatch hr.symm.trans h
  rw [← register_norm hr, ← register_norm hr] at heq
  refine ⟨?_, fun b => ?_⟩
  · rw [finalize_eq_finish hk.bits_le (hno h), finalize_eq_finish hk.bits_le (hno h'), heq]
  · rw [← register_norm hr, ← register_norm hr, register_fold hk (hno h), register_fold hk (hno h'), heq]

end Sys2Proof.Machine
end

section
/-! A computation as a sequence of commands: START, one FOLD per byte, FINAL (41_fold_engine.md R141,
R143). -/

namespace Sys2Proof.Machine

/-- A command that succeeds is followed by the rest. -/
theorem runCommands_cons {i : Instr} {s u : State} (h : exec i s = .next u) (rest : List Instr) :
    runCommands (i :: rest) s = runCommands rest u := by
  simp only [runCommands, h]

/-- What a success leaves after another success in the same context. -/
theorem complete_setCtx_twice (s : State) (c : Nat) (x y : Ctx) :
    complete ((complete (s.setCtx c x)).setCtx c y) = complete (s.setCtx c y) := by
  simp only [State.setCtx, complete, List.set_set]

/-- What the next command of the context reads after a success: it holds what was written, under the
same configuration. -/
theorem complete_setCtx_reads {c : Nat} {s : State} (hc : c < s.nCtx) (hv : s.cfgValid = true) (x : Ctx) :
    c < (complete (s.setCtx c x)).nCtx ∧ (complete (s.setCtx c x)).cfgValid = true ∧
      (complete (s.setCtx c x)).ctx c = x :=
  ⟨by simpa using hc, hv, setCtx_ctx_self hc x⟩

/-- A CTX_FOLD in a context that a command has just made ACTIVE. -/
theorem exec_ctxFold_after {c : Nat} {s : State} (hc : c < s.nCtx) (hv : s.cfgValid = true) (h : Word)
    (b : Byte) : exec (.ctxFold c b) (complete (s.setCtx c ⟨.active, h⟩)) =
      .next (complete (s.setCtx c ⟨.active, fold s.cfg s.table h b⟩)) := by
  obtain ⟨hc', hv', hx⟩ := complete_setCtx_reads hc hv ⟨.active, h⟩
  rw [exec_ctxFold_success hc' hv' (congrArg Ctx.state hx), complete_setCtx_twice, hx]
  rfl

/-- A CTX_FINAL there. -/
theorem exec_ctxFinal_after {c : Nat} {s : State} (hc : c < s.nCtx) (hv : s.cfgValid = true) (h : Word) :
    exec (.ctxFinal c) (complete (s.setCtx c ⟨.active, h⟩)) =
      .next (complete (s.setCtx c ⟨.done, finalize s.cfg h⟩)) := by
  obtain ⟨hc', hv', hx⟩ := complete_setCtx_reads hc hv ⟨.active, h⟩
  rw [exec_ctxFinal_success hc' hv' (congrArg Ctx.state hx), complete_setCtx_twice, hx]
  rfl

/-- One CTX_FOLD per byte folds the byte sequence (41_fold_engine.md R126). -/
theorem runCommands_folds {c : Nat} {s : State} (hc : c < s.nCtx) (hv : s.cfgValid = true)
    (data : List Byte) (h : Word) (rest : List Instr) :
    runCommands (data.map (.ctxFold c) ++ rest) (complete (s.setCtx c ⟨.active, h⟩)) =
      runCommands rest (complete (s.setCtx c ⟨.active, foldBytes s.cfg s.table h data⟩)) := by
  induction data generalizing h with
  | nil => rfl
  | cons b data ih =>
    rw [List.map_cons, List.cons_append, runCommands_cons (exec_ctxFold_after hc hv h b), ih]
    rfl

/-- The same from a CTX_START (41_fold_engine.md R120). -/
theorem runCommands_start_folds {c : Nat} {s : State} (hc : c < s.nCtx) (hv : s.cfgValid = true)
    (data : List Byte) (rest : List Instr) :
    runCommands (.ctxStart c :: (data.map (.ctxFold c) ++ rest)) s =
      runCommands rest
        (complete (s.setCtx c ⟨.active, foldBytes s.cfg s.table (seed s.cfg) data⟩)) := by
  rw [runCommands_cons (exec_ctxStart_success hc hv), runCommands_folds hc hv]

/-- The commands of one `compute` (41_fold_engine.md R141). -/
theorem runCommands_computeCommands {c : Nat} {s : State} (hc : c < s.nCtx) (hv : s.cfgValid = true)
    (data : List Byte) : runCommands (computeCommands c data) s =
      .next (complete (s.setCtx c
        ⟨.done, finalize s.cfg (foldBytes s.cfg s.table (seed s.cfg) data)⟩)) := by
  rw [computeCommands, runCommands_start_folds hc hv, runCommands_cons (exec_ctxFinal_after hc hv _)]
  rfl

/-- Settles O36: the sequence leaves what `runCommands_computeCommands` says, and RESULT_BE shows its
bytes. -/
theorem commandSequenceComputes : Obligations.CommandSequenceComputes := by
  intro s c data hc hv hk htab
  have hrun := runCommands_computeCommands hc hv data
  rw [htab] at hrun
  refine ⟨_, hrun, rfl, serialize_length _ _, fun k hlt => ?_⟩
  obtain ⟨-, -, hx⟩ := complete_setCtx_reads hc hv ⟨.done, computeHash s.cfg data⟩
  have hlen := resultLen_le hk.bits_le
  rw [compute, serialize_length] at hlt
  refine (resultBE_lane (congrArg Ctx.state hx) (by omega)).trans ?_
  rw [hx]
  rfl

/-- The four registers of a context show the context and the committed width, nothing else
(10_state.md R34 to R39). -/
theorem readReg_ctx_congr {s s' : State} {c c' : Nat} (hx : s.ctx c = s'.ctx c') (hk : s.cfg = s'.cfg) :
    s.readReg (.ctxHash c) = s'.readReg (.ctxHash c') ∧
      s.readReg (.ctxResultBE c) = s'.readReg (.ctxResultBE c') ∧
      s.readReg (.ctxResultLen c) = s'.readReg (.ctxResultLen c') := by
  simp only [State.readReg, State.resultBE, State.resultLenWord, hx, hk, and_self]

/-- Settles O35: both runs are known from their configuration, table and bytes
(`runCommands_start_folds`, `runCommands_computeCommands`), and so is what the context then shows. -/
theorem equalInputsGiveEqualResults : Obligations.EqualInputsGiveEqualResults := by
  intro s s' c c' data hc hc' hv hv' hk ht
  have hreads (x : Ctx) := readReg_ctx_congr (s := complete (s.setCtx c x))
    (s' := complete (s'.setCtx c' x)) ((setCtx_ctx_self hc x).trans (setCtx_ctx_self hc' x).symm) hk
  have hfolds := runCommands_start_folds hc hv data []
  have hfolds' := runCommands_start_folds hc' hv' data []
  have hrun' := runCommands_computeCommands hc' hv' data
  rw [List.append_nil] at hfolds hfolds'
  rw [← hk, ← ht] at hfolds' hrun'
  exact ⟨⟨_, _, hfolds, hfolds', (hreads _).1⟩,
    ⟨_, _, runCommands_computeCommands hc hv data, hrun', hreads _⟩⟩

end Sys2Proof.Machine
end

section
/-! The bytes an ACTIVE context folds over a run (41_fold_engine.md R126, R144). -/

namespace Sys2Proof.Machine

/-- Every step ends in a next state (70_reset_and_hazards.md R211). -/
theorem step_next (s : State) : ∃ t, step s = .next t := by
  obtain ⟨-, -, -, h⟩ | ⟨-, -, _, _, -, h⟩ | ⟨-, -, _, _, _, -, h, -⟩ | ⟨-, _, _, _, _, -, -, -, h⟩ :=
    step_cases s
  · exact ⟨_, h⟩
  · exact ⟨_, h⟩
  · exact ⟨_, h⟩
  · rw [h]
    exact issue_next _ _

/-- A command that is no successful CFG_COMMIT leaves every context it does not name as it is. -/
theorem exec_ctx_unnamed {i : Instr} {c : Nat} {s t : State} (h : exec i s = .next t)
    (hcommit : ¬ (i = .cfgCommit ∧ s.stg.Valid)) (hi : ctxOperand i ≠ some c) : t.ctx c = s.ctx c := by
  obtain ⟨_, -, rfl⟩ | ⟨-, rfl⟩ | ⟨-, rfl⟩ | ⟨rfl, hk, -⟩ | ⟨d, rfl, -, -, rfl⟩ |
    ⟨d, _, rfl, -, -, -, rfl⟩ | ⟨d, rfl, -, -, -, rfl⟩ := exec_cases h
  · rfl
  · rfl
  · rfl
  · exact absurd ⟨rfl, validate_eq_none_iff.mp hk⟩ hcommit
  all_goals exact setCtx_ctx_other (fun hcd => hi (congrArg some hcd.symm)) s _

/-- A command that does not name a context folds no byte into it. -/
theorem foldedByte_unnamed {i : Instr} {c : Nat} (hi : ctxOperand i ≠ some c) : foldedByte c i = none := by
  cases i with
  | ctxFold d b => exact if_neg fun hdc => hi (congrArg some hdc)
  | _ => rfl

/-- What happens to the context c of s in t: with these bytes to fold, an ACTIVE context folds them under
the configuration of s, and any other stays as it is. -/
structure FoldsInto (c : Nat) (bytes : List Byte) (s t : State) : Prop where
  active : c < s.nCtx → s.cfgValid = true → (s.ctx c).state = .active →
    t.ctx c = ⟨.active, foldBytes s.cfg s.table (s.ctx c).hash bytes⟩
  inactive : (s.ctx c).state ≠ .active → t.ctx c = s.ctx c

/-- A context left as it is has folded no bytes. -/
theorem FoldsInto.of_unchanged {c : Nat} {s t : State} (h : t.ctx c = s.ctx c) : FoldsInto c [] s t where
  active _ _ ha := by
    rw [h, ← ha]
    rfl
  inactive _ := h

/-- A command that is no successful CFG_COMMIT, and no CTX_START or CTX_FINAL of c, folds its byte into
context c, if it is one (41_fold_engine.md R126). -/
theorem exec_foldsInto {i : Instr} {c : Nat} {s t : State} (h : exec i s = .next t)
    (hcommit : ¬ (i = .cfgCommit ∧ s.stg.Valid)) (hstart : i ≠ .ctxStart c) (hfinal : i ≠ .ctxFinal c) :
    FoldsInto c (foldedByte c i).toList s t := by
  by_cases hi : ctxOperand i = some c
  · obtain ⟨b, rfl⟩ : ∃ b, i = .ctxFold c b := by
      cases i with
      | nop | cfgCommit | errClr => exact nomatch hi
      | ctxStart d => exact absurd (congrArg Instr.ctxStart (Option.some.inj hi)) hstart
      | ctxFold d b => exact ⟨b, by rw [Option.some.inj hi]⟩
      | ctxFinal d => exact absurd (congrArg Instr.ctxFinal (Option.some.inj hi)) hfinal
    rw [show foldedByte c (.ctxFold c b) = some b from if_pos rfl]
    refine ⟨fun hc hv ha => ?_, fun hna => ?_⟩
    · rw [exec_ctxFold_success hc hv ha] at h
      injection h with h
      rw [← h]
      exact setCtx_ctx_self hc _
    · obtain ⟨_, -, rfl⟩ | ⟨hf, -, -⟩ := exec_ctxOperand_cases hi h
      · rfl
      · obtain ⟨-, -, ha⟩ := activeFailure_eq_none.mp hf
        exact absurd ha hna
  · rw [foldedByte_unnamed hi]
    exact .of_unchanged (exec_ctx_unnamed h hcommit hi)

theorem foldBytes_append (k : CrcConfig) (t : Table) (h : Word) (xs ys : List Byte) :
    foldBytes k t h (xs ++ ys) = foldBytes k t (foldBytes k t h xs) ys :=
  List.foldl_append

/-- Folding some bytes and then, under the same configuration, some more is folding them all. -/
theorem FoldsInto.trans {c : Nat} {xs ys : List Byte} {s u t : State} (h : FoldsInto c xs s u)
    (hn : u.nCtx = s.nCtx) (hv : u.cfgValid = s.cfgValid) (hk : u.cfg = s.cfg) (ht : u.table = s.table)
    (h' : FoldsInto c ys u t) : FoldsInto c (xs ++ ys) s t where
  active hc hcv ha := by
    have hu := h.active hc hcv ha
    rw [h'.active (hn ▸ hc) (hv ▸ hcv) (congrArg Ctx.state hu), hu, hk, ht, foldBytes_append]
  inactive hna := by
    have hu := h.inactive hna
    rw [h'.inactive (hu ▸ hna), hu]

/-! ## One step -/

/-- An entry of the host's list that issues no command folds no byte. -/
theorem byteFor_of_issuing_none {s : State} {a : Access} {rest : List HostEvent}
    (hp : s.pending = .access a :: rest) (hi : s.issuing = none) (c : Nat) :
    s.byteFor c (.access a) = none := by
  cases a with
  | read addr n => rfl
  | write addr n w =>
    have hna : s.admitted addr n ≠ some .cmd := by simpa [State.issuing, hp] using hi
    exact if_neg hna

/-- A CMD write folds the byte of its command, if it has one. -/
theorem byteFor_cmdWrite {s : State} {addr n : Nat} (hadm : s.admitted addr n = some .cmd) {w : Word}
    {i : Instr} (hd : decode w = .command i) (c : Nat) :
    s.byteFor c (.access (.write addr n w)) = foldedByte c i := by
  simp [State.byteFor, hadm, hd]

theorem byteFor_illegal (s : State) (addr n : Nat) {w : Word} {why : IllegalReason}
    (hd : decode w = .illegal why) (c : Nat) : s.byteFor c (.access (.write addr n w)) = none := by
  simp [State.byteFor, hd]

/-- The bytes of the oldest entry of a list. -/
theorem filterMap_take_one {α β : Type} (f : α → Option β) (e : α) (rest : List α) :
    ((e :: rest).take 1).filterMap f = (f e).toList := by
  rw [List.take_succ_cons, List.take_zero, List.filterMap_cons, List.filterMap_nil]
  cases f e <;> rfl

/-- A step that is no reset keeps the build, and serves one entry of the host's list. -/
theorem step_host_frame {s u : State} (hreset : s.resetting = false) (h : step s = .next u) :
    u.base = s.base ∧ u.nCtx = s.nCtx ∧ u.pending = s.pending.tail := by
  obtain ⟨hp, -, -, hs⟩ | ⟨-, hr, -⟩ | ⟨-, -, a, rest, k, hp, hs, -⟩ | ⟨-, w, _, _, rest, -, hp, -, hs⟩ :=
    step_cases s
  · injection hs.symm.trans h with hu
    rw [← hu, hp]
    exact ⟨rfl, rfl, rfl⟩
  · exact nomatch hreset.symm.trans hr
  · injection hs.symm.trans h with hu
    rw [← hu, hp]
    exact ⟨rfl, rfl, rfl⟩
  · obtain ⟨hb, hn, hpu, -⟩ := issue_host_frame (hs.symm.trans h)
    exact ⟨hb, hn, by rw [hpu, hp, List.tail_cons]⟩

/-- A step that keeps the folds of context c folds the byte of the entry it serves. -/
theorem step_foldsInto {s u : State} {c : Nat} (hkeep : s.keepsFold c) (h : step s = .next u) :
    FoldsInto c ((s.pending.take 1).filterMap (s.byteFor c)) s u := by
  obtain ⟨hreset, hcommit, hword⟩ := hkeep
  obtain ⟨hp, -, -, hs⟩ | ⟨-, hr, -⟩ | ⟨hi, -, a, rest, k, hp, hs, -⟩ |
    ⟨-, w, addr, n, rest, hi, hp, hadm, hs⟩ := step_cases s
  · injection hs.symm.trans h with hu
    rw [hp]
    exact .of_unchanged (hu ▸ rfl)
  · exact nomatch hreset.symm.trans hr
  · injection hs.symm.trans h with hu
    rw [hp, filterMap_take_one, byteFor_of_issuing_none hp hi]
    exact .of_unchanged (hu ▸ rfl)
  · rw [hp, filterMap_take_one]
    obtain ⟨⟨why, hd⟩, hu⟩ | ⟨i, hd, he⟩ := issue_cases (hs.symm.trans h)
    · rw [byteFor_illegal s addr n hd]
      exact .of_unchanged (hu ▸ rfl)
    · obtain ⟨hstart, hfinal⟩ := hword w hi
      have hfold := exec_foldsInto he
        (fun ⟨hic, hv⟩ => hcommit ⟨decode_eq_cfgCommit_iff.mp (hic ▸ hd) ▸ hi, hv⟩)
        (fun hic => hstart (hic ▸ hd)) (fun hic => hfinal (hic ▸ hd))
      rw [byteFor_cmdWrite hadm hd]
      exact ⟨hfold.active, hfold.inactive⟩

/-! ## A run -/

/-- A run of steps each of which keeps the folds of context c folds the bytes of the entries it serves
(41_fold_engine.md R126). -/
theorem run_foldsInto {c : Nat} (steps : Nat) {s : State}
    (hkeep : ∀ j < steps, ∀ u : State, Host.Core.run core j s = .next u → u.keepsFold c) :
    ∃ t : State, Host.Core.run core steps s = .next t ∧
      FoldsInto c ((s.pending.take steps).filterMap (s.byteFor c)) s t := by
  induction steps generalizing s with
  | zero => exact ⟨s, rfl, .of_unchanged rfl⟩
  | succ n ih =>
    obtain ⟨u, hu⟩ := step_next s
    have hs : s.keepsFold c := hkeep 0 (Nat.succ_pos n) s rfl
    have ⟨hreset, hcommit, _⟩ := hs
    obtain ⟨hb, hn, hp⟩ := step_host_frame hreset hu
    obtain ⟨hc, -⟩ | ⟨-, hr, -⟩ | ⟨-, -, hv, hk, ht⟩ := step_config hu
    · exact absurd hc hcommit
    · exact nomatch hreset.symm.trans hr
    obtain ⟨t, hrun, hfolds⟩ := ih fun j hj v hv => hkeep (j + 1) (Nat.succ_lt_succ hj) v
      ((run_succ hu j).trans hv)
    refine ⟨t, (run_succ hu n).trans hrun, ?_⟩
    rw [byteFor_congr hb hn, hp] at hfolds
    have hentries : s.pending.take (n + 1) = s.pending.take 1 ++ s.pending.tail.take n := by
      cases s.pending <;> simp
    rw [hentries, List.filterMap_append]
    exact (step_foldsInto hs hu).trans hn hv hk ht hfolds

/-- Settles O34: a run folds what its steps fold, one entry of the host's list each (`run_foldsInto`). -/
theorem contextFoldsItsOwnBytesInOrder : Obligations.ContextFoldsItsOwnBytesInOrder := by
  intro s c steps hkeep
  obtain ⟨t, hrun, hfolds⟩ := run_foldsInto steps hkeep
  exact ⟨t, hrun, hfolds.active, hfolds.inactive⟩

end Sys2Proof.Machine
end

section
/-! The control commands NOP and ERR_CLR, and what each leaves of STATUS (42_control.md R150, R151). -/

namespace Sys2Proof.Machine

/-! ## STATUS -/

/-- Success clears LAST_ERR, bits 8 and up, and leaves the flags below it (10_state.md R22, R25). -/
theorem complete_statusWord (s : State) : (complete s).statusWord = maskw s.statusWord 8 := by
  apply BitVec.eq_of_getLsbD_eq
  intro i _
  have hcode : ErrCode.ok.code.getLsbD (i - 8) = false := BitVec.getLsbD_zero
  have hmode : (complete s).byteMode = s.byteMode := rfl
  rw [maskw_getLsbD, statusWord_getLsbD, statusWord_getLsbD, complete_cfgValid, complete_errSticky,
    complete_lastErr, hmode, hcode]
  obtain h | h := Nat.lt_or_ge i 8
  · simp [h, Nat.not_le.mpr h]
  · simp [Nat.not_lt.mpr h, show i ≠ 0 by omega, show i ≠ 1 by omega, show i ≠ 2 by omega]

/-- ERR_STICKY is bit 1 of STATUS (10_state.md R22, R24): clearing it clears that bit alone. -/
theorem statusWord_errSticky_false (s : State) :
    { s with errSticky := false }.statusWord = s.statusWord &&& ~~~(flagBit true <<< 1) := by
  apply BitVec.eq_of_getLsbD_eq
  intro i hi
  have hmode : { s with errSticky := false }.byteMode = s.byteMode := rfl
  rw [BitVec.getLsbD_and, BitVec.getLsbD_not, flagBit_shiftLeft_getLsbD _ (by decide), statusWord_getLsbD,
    statusWord_getLsbD, hmode]
  obtain rfl | h := eq_or_ne i 1
  · simp
  · simp [h, hi]

/-! ## The two commands -/

/-- Settles O21: `exec_nop`, with STATUS by `complete_statusWord`. -/
theorem nopReportsSuccessOnly : Obligations.NopReportsSuccessOnly := by
  refine ⟨decodeOfEncodeIsTheCommand .nop rfl, fun s => ⟨exec_nop s, fun h => ?_, fun w hw ho => ?_⟩⟩
  · calc (complete s).statusWord = maskw s.statusWord 8 := complete_statusWord s
      _ = 0x0000000000000002 := by rw [h]; decide
  · exact issue_illegal_of_noOperand_opcode (by rw [ho]; decide) (by rw [ho]; rfl) hw s

/-- Settles O22: `exec_errClr`, with STATUS by `complete_statusWord` of the cleared flag. -/
theorem errClrClearsTheStickyFlag : Obligations.ErrClrClearsTheStickyFlag := by
  refine ⟨decode_eq_errClr_iff.mpr rfl, fun s => ⟨exec_errClr s, fun h => ?_, fun w hw ho => ?_⟩⟩
  · calc (complete { s with errSticky := false }).statusWord
        = maskw (s.statusWord &&& ~~~(flagBit true <<< 1)) 8 := by
          rw [complete_statusWord, statusWord_errSticky_false]
      _ = 0x0000000000000001 := by rw [h]; decide
  · exact issue_illegal_of_noOperand_opcode (by rw [ho]; decide) (by rw [ho]; rfl) hw s

end Sys2Proof.Machine
end

section
/-! What a failing word changes (60_exceptions.md R163), that the two error fields feed into no command
(R164, R165), and what ERR_STICKY tells of a batch of words (70_reset_and_hazards.md R204). -/

namespace Sys2Proof.Machine

/-! ## A failing word -/

/-- LAST_ERR never holds a value but the nine of 60_exceptions.md R160. -/
theorem ErrCode.code_mem (e : ErrCode) :
    e.code ∈ [0x00#8, 0x01#8, 0x02#8, 0x03#8, 0x04#8, 0x10#8, 0x11#8, 0x12#8, 0x13#8] := by
  cases e <;> decide

/-- A word whose reported code is an error ends in the error entry, and nothing else happens. -/
theorem issue_eq_raiseError {w : Word} {s t : State} (h : issue w s = .next t)
    (hcode : reportedCode w s ≠ 0x00) : t = raiseError t.lastErr s := by
  obtain ⟨-, rfl⟩ | ⟨i, hd, he⟩ := issue_cases h
  · rfl
  · obtain ⟨effect, heffect⟩ := exec_eq_endCommand i s
    obtain ⟨code, -, rfl⟩ | ⟨hf, -⟩ := endCommand_cases (heffect ▸ he)
    · rfl
    · have hzero : reportedCode w s = 0x00 := by rw [reportedCode_command hd, hf]; rfl
      exact absurd hzero hcode

/-- Settles O39: LAST_ERR by `issue_lastErr_code`, an error by `issue_eq_raiseError`, and ERR_STICKY
after a success by `issue_errSticky`. -/
theorem firstFailureIsReportedAndChangesNothingElse :
    Obligations.FirstFailureIsReportedAndChangesNothingElse := by
  intro w s
  obtain ⟨t, h⟩ := issue_next w s
  refine ⟨t, h, issue_lastErr_code h, issue_eq_raiseError h, fun hzero hw => ?_, t.lastErr.code_mem⟩
  simp [issue_errSticky h hw, hzero]

/-! ## The error fields as inputs -/

/-- A command whose effect carries the error fields along ends the same whatever they held, but for
ERR_STICKY. -/
theorem endCommand_withErrors {failure : Option ErrCode} {effect : State → State} {s t : State}
    {e : ErrCode} {b : Bool}
    (heffect : ∃ e' b', effect { s with lastErr := e, errSticky := b } =
      { effect s with lastErr := e', errSticky := b' })
    (h : endCommand failure effect s = .next t) :
    ∃ b', endCommand failure effect { s with lastErr := e, errSticky := b } =
      .next { t with errSticky := b' } := by
  obtain ⟨code, rfl, rfl⟩ | ⟨rfl, rfl⟩ := endCommand_cases h
  · exact ⟨true, rfl⟩
  · obtain ⟨e', b', heq⟩ := heffect
    exact ⟨b', by rw [endCommand_none, heq]; rfl⟩

/-- No check of a command reads the error fields. -/
theorem failureOf_withErrors (i : Instr) (s : State) (e : ErrCode) (b : Bool) :
    failureOf { s with lastErr := e, errSticky := b } i = failureOf s i := by
  cases i <;> rfl

/-- Nor does its effect; ERR_CLR alone writes ERR_STICKY (42_control.md R151). -/
theorem exec_effect_withErrors (i : Instr) : ∃ effect,
    (∀ s, exec i s = endCommand (failureOf s i) effect s) ∧
    ∀ s e b, ∃ e' b', effect { s with lastErr := e, errSticky := b } =
      { effect s with lastErr := e', errSticky := b' } := by
  cases i with
  | nop => exact ⟨id, exec_nop, fun _ e b => ⟨e, b, rfl⟩⟩
  | errClr => exact ⟨fun s => { s with errSticky := false }, exec_errClr, fun _ e _ => ⟨e, false, rfl⟩⟩
  | cfgCommit => exact ⟨latchConfig, exec_cfgCommit, fun _ e b => ⟨e, b, rfl⟩⟩
  | ctxStart c => exact ⟨_, exec_ctxStart c, fun _ e b => ⟨e, b, rfl⟩⟩
  | ctxFold c x => exact ⟨_, exec_ctxFold c x, fun _ e b => ⟨e, b, rfl⟩⟩
  | ctxFinal c => exact ⟨_, exec_ctxFinal c, fun _ e b => ⟨e, b, rfl⟩⟩

/-- A command ends the same whatever the error fields held, but for ERR_STICKY. -/
theorem exec_withErrors {i : Instr} {s t : State} (h : exec i s = .next t) (e : ErrCode) (b : Bool) :
    ∃ b', exec i { s with lastErr := e, errSticky := b } = .next { t with errSticky := b' } := by
  obtain ⟨effect, hexec, heffect⟩ := exec_effect_withErrors i
  rw [hexec] at h ⊢
  rw [failureOf_withErrors]
  exact endCommand_withErrors (heffect s e b) h

/-- So it is for every word, legal or not. -/
theorem issue_withErrors {w : Word} {s t : State} (h : issue w s = .next t) (e : ErrCode) (b : Bool) :
    ∃ b', issue w { s with lastErr := e, errSticky := b } = .next { t with errSticky := b' } := by
  obtain ⟨⟨why, hd⟩, rfl⟩ | ⟨i, hd, he⟩ := issue_cases h
  · exact ⟨true, issue_illegal hd _⟩
  · rw [issue_command hd]
    exact exec_withErrors he e b

/-! ## A batch of words -/

theorem issueWords_cons {w : Word} {s t : State} (h : issue w s = .next t) (rest : List Word) :
    issueWords (w :: rest) s = issueWords rest t := by
  simp [issueWords, h]

/-- Issuing words always ends in a next state. -/
theorem issueWords_next (words : List Word) (s : State) : ∃ t, issueWords words s = .next t := by
  induction words generalizing s with
  | nil => exact ⟨s, rfl⟩
  | cons w rest ih =>
    obtain ⟨u, hu⟩ := issue_next w s
    rw [issueWords_cons hu]
    exact ih u

/-- One of the words, issued in order from `s`, ends in an error (70_reset_and_hazards.md R204). -/
def BatchFails (words : List Word) (s : State) : Prop :=
  ∃ (before after : List Word) (w : Word) (v : State),
    words = before ++ w :: after ∧ issueWords before s = .next v ∧ reportedCode w v ≠ 0x00

theorem not_batchFails_nil (s : State) : ¬ BatchFails [] s := by
  rintro ⟨before, after, w, v, h, -⟩
  simp at h

/-- A batch fails at its first word or in the rest. -/
theorem batchFails_cons_iff {w : Word} {rest : List Word} {s t : State} (h : issue w s = .next t) :
    BatchFails (w :: rest) s ↔ reportedCode w s ≠ 0x00 ∨ BatchFails rest t := by
  constructor
  · rintro ⟨before, after, x, v, hsplit, hbefore, hcode⟩
    cases before with
    | nil =>
      obtain ⟨rfl, -⟩ := List.cons.inj hsplit
      injection hbefore with hv
      exact .inl (hv ▸ hcode)
    | cons y before =>
      obtain ⟨rfl, hrest⟩ := List.cons.inj hsplit
      exact .inr ⟨before, after, x, v, hrest, issueWords_cons h before ▸ hbefore, hcode⟩
  · rintro (hcode | ⟨before, after, x, v, rfl, hbefore, hcode⟩)
    · exact ⟨[], rest, w, s, rfl, rfl, hcode⟩
    · exact ⟨w :: before, after, x, v, rfl, (issueWords_cons h before).trans hbefore, hcode⟩

/-- Without ERR_CLR, ERR_STICKY is 1 after a batch when it was 1 before or a word failed. -/
theorem issueWords_errSticky_iff {words : List Word} {s t : State} (h : issueWords words s = .next t)
    (hw : ∀ w ∈ words, w ≠ 0x0000000002000000) :
    t.errSticky = true ↔ s.errSticky = true ∨ BatchFails words s := by
  induction words generalizing s with
  | nil =>
    injection h with h
    simp [h, not_batchFails_nil]
  | cons w rest ih =>
    obtain ⟨hfirst, hrest⟩ := List.forall_mem_cons.mp hw
    obtain ⟨u, hu⟩ := issue_next w s
    rw [issueWords_cons hu] at h
    rw [ih h hrest, batchFails_cons_iff hu, issue_errSticky hu hfirst, Bool.or_eq_true,
      decide_eq_true_iff, or_comm (a := reportedCode w s ≠ 0x00), or_assoc]

/-- Settles O42: noninterference by `issue_withErrors`, the batch rule by `issueWords_errSticky_iff` from
the state that ERR_CLR leaves. -/
theorem errorsNeverInfluenceLaterCommands : Obligations.ErrorsNeverInfluenceLaterCommands := by
  refine ⟨fun w s t t' e b h h' => ?_, fun s words hw => ?_⟩
  · obtain ⟨b', hb⟩ := issue_withErrors h e b
    injection h'.symm.trans hb with ht
    rw [ht]
    exact ⟨rfl, rfl⟩
  · obtain ⟨u, hu⟩ := issueWords_next words (complete { s with errSticky := false })
    have hsticky := issueWords_errSticky_iff hu hw
    rw [complete_errSticky, Bool.false_eq_true, false_or] at hsticky
    exact ⟨_, u, exec_errClr s, hu, hsticky⟩

end Sys2Proof.Machine
end

section
/-! A write to a staging register: what it stores and what it leaves (10_state.md R28, R29;
70_reset_and_hazards.md R201). -/

namespace Sys2Proof.Machine

/-- A write to one staging register is not seen in any other register. -/
theorem readReg_writeReg_staging_other {r r' : Reg}
    (hr : r ∈ [Reg.stgBits, .stgPoly, .stgInit, .stgXorout, .stgFlags]) (hne : r' ≠ r) {v : Word}
    {s t : State} (h : writeReg r v s = .next t) : t.readReg r' = s.readReg r' := by
  simp only [List.mem_cons, List.not_mem_nil, or_false] at hr
  rcases hr with rfl | rfl | rfl | rfl | rfl <;> (injection h with h; subst h)
  · cases r' with
    | stgBits => exact absurd rfl hne
    | _ => rfl
  · cases r' with
    | stgPoly => exact absurd rfl hne
    | _ => rfl
  · cases r' with
    | stgInit => exact absurd rfl hne
    | _ => rfl
  · cases r' with
    | stgXorout => exact absurd rfl hne
    | _ => rfl
  · cases r' with
    | stgFlags => exact absurd rfl hne
    | _ => rfl

/-- STG_FLAGS bit by bit: the two implemented bits of the value last written (10_state.md R29). -/
theorem readReg_stgFlags_getLsbD {v : Word} {s t : State} (h : writeReg .stgFlags v s = .next t) (i : Nat) :
    (t.readReg .stgFlags).getLsbD i = (decide (i < 2) && v.getLsbD i) := by
  injection h with h
  subst h
  rw [State.readReg, BitVec.getLsbD_setWidth, BitVec.getLsbD_setWidth]
  by_cases hi : i < 2
  · simp [hi, show i < 64 by omega]
  · simp [hi]

/-- Settles O17: the write changes at most the staging registers (`writeReg_quiet`), of them only its own,
which then reads the value, or its two implemented bits. -/
theorem stagingWritesTouchOnlyTheirRegister : Obligations.StagingWritesTouchOnlyTheirRegister := by
  intro s t v r hr h
  have hcmd : r ≠ .cmd := by
    rintro rfl
    simp at hr
  obtain ⟨k, hk⟩ := writeReg_quiet hcmd v s
  obtain rfl : { s with stg := k } = t := by injection hk.symm.trans h
  refine ⟨fun r' hne => readReg_writeReg_staging_other hr hne h, ⟨rfl, rfl, rfl⟩, ⟨rfl, rfl, rfl⟩,
    fun hflags => ?_, ?_⟩
  · obtain ⟨u, hu, hread, -⟩ := writeReg_staging (r := r) (by simpa [hflags] using hr) v s
    obtain rfl : u = { s with stg := k } := by injection hu.symm.trans h
    exact hread
  · rintro rfl
    have hbit := readReg_stgFlags_getLsbD h
    refine ⟨?_, ?_, fun i hi => ?_⟩ <;> rw [hbit]
    · simp
    · simp
    · simp [show ¬ i < 2 by omega]

end Sys2Proof.Machine
end

section
/-! What a CFG_COMMIT does to the folds in progress (70_reset_and_hazards.md R200). -/

namespace Sys2Proof.Machine

/-- A CFG_COMMIT of an invalid staged configuration ends in an error entry. -/
theorem exec_cfgCommit_of_not_valid {s : State} (h : ¬ s.stg.Valid) :
    ∃ code, exec .cfgCommit s = .next (raiseError code s) := by
  obtain ⟨code, hk⟩ := Option.ne_none_iff_exists'.mp (mt validate_eq_none_iff.mp h)
  exact ⟨code, exec_cfgCommit_of_failure hk⟩

/-- Settles O48: a commit leaves every context IDLE under a committed configuration, so a fold or a finish
meets CTX_STATE; a failed one is an error entry. -/
theorem commitEndsEveryFold : Obligations.CommitEndsEveryFold := by
  intro s t h
  refine ⟨fun hv c hc => ?_, fun hv => ?_⟩
  · obtain rfl : complete (latchConfig s) = t := by injection (exec_cfgCommit_of_valid hv).symm.trans h
    have hidle : (complete (latchConfig s)).ctx c = ⟨.idle, 0⟩ := latchConfig_ctx s c
    have hfail : activeFailure c (complete (latchConfig s)) = some .ctxState :=
      activeFailure_ctxState (by simpa using hc) rfl (by simp [hidle])
    exact ⟨hidle, fun b => exec_of_failureOf_some rfl hfail, exec_of_failureOf_some rfl hfail⟩
  · obtain ⟨code, he⟩ := exec_cfgCommit_of_not_valid hv
    obtain rfl : raiseError code s = t := by injection he.symm.trans h
    rfl

end Sys2Proof.Machine
end

section
/-! How long a DONE context keeps its result (70_reset_and_hazards.md R205). -/

namespace Sys2Proof.Machine

/-- A command that is no successful CFG_COMMIT and no CTX_START of a DONE context leaves it as it is: a fold
or a finish of it fails. -/
theorem exec_ctx_of_done {i : Instr} {c : Nat} {s t : State} (h : exec i s = .next t)
    (hdone : (s.ctx c).state = .done) (hcommit : ¬ (i = .cfgCommit ∧ s.stg.Valid))
    (hstart : i ≠ .ctxStart c) : t.ctx c = s.ctx c := by
  by_cases hi : ctxOperand i = some c
  · obtain ⟨_, -, rfl⟩ | ⟨hf, -, -⟩ := exec_ctxOperand_cases hi h
    · rfl
    · have hactive : activeFailure c s = none := by
        cases i with
        | nop | cfgCommit | errClr => exact nomatch hi
        | ctxStart d => exact absurd (congrArg Instr.ctxStart (Option.some.inj hi)) hstart
        | ctxFold d b | ctxFinal d => exact Option.some.inj hi ▸ hf
      obtain ⟨-, -, ha⟩ := activeFailure_eq_none.mp hactive
      exact nomatch hdone.symm.trans ha
  · exact exec_ctx_unnamed h hcommit hi

/-- A step that is no reset, no successful CFG_COMMIT and no CTX_START of a DONE context leaves it. -/
theorem step_ctx_of_done {c : Nat} {s t : State} (h : step s = .next t) (hdone : (s.ctx c).state = .done)
    (hstart : ∀ w, s.issuing = some w → decode w ≠ .command (.ctxStart c)) (hcommit : ¬ s.committing)
    (hreset : s.resetting = false) : t.ctx c = s.ctx c := by
  obtain ⟨-, -, _, _, _, rfl⟩ | ⟨-, hr, -⟩ | ⟨w, p, rs, hi, -, h⟩ := step_next_cases h
  · rfl
  · exact nomatch hreset.symm.trans hr
  · obtain ⟨-, rfl⟩ | ⟨i, hd, he⟩ := issue_cases h
    · rfl
    · have hkept := exec_ctx_of_done he hdone
        (fun ⟨hic, hv⟩ => hcommit ⟨decode_eq_cfgCommit_iff.mp (hic ▸ hd) ▸ hi, hv⟩)
        (fun hic => hstart w hi (hic ▸ hd))
      exact hkept

/-- After a reset or a successful CFG_COMMIT every context is IDLE. -/
theorem step_ctx_of_discard {s t : State} (h : step s = .next t)
    (hd : s.resetting = true ∨ s.committing) (c : Nat) : t.ctx c = Ctx.idle := by
  obtain ⟨hi, hr, -⟩ | ⟨-, -, _, _, rfl⟩ | ⟨w, p, rs, hi, hr, h⟩ := step_next_cases h
  · obtain hreset | hcommit := hd
    · exact nomatch hr.symm.trans hreset
    · exact absurd hcommit (not_committing_of_issuing_none hi)
  · exact replicate_ctx rfl c
  · obtain hreset | ⟨hw, hv⟩ := hd
    · exact nomatch hr.symm.trans hreset
    · obtain rfl : w = 0x0000000001000000 := Option.some.inj (hi.symm.trans hw)
      rw [issue_cfgCommit_of_valid (s := { s with pending := p, responses := rs }) hv] at h
      injection h with h
      exact h ▸ latchConfig_ctx _ c

/-- After a CTX_START under a committed configuration the context is ACTIVE. -/
theorem step_ctxStart_state {c : Nat} {w : Word} {s t : State} (h : step s = .next t) (hc : c < s.nCtx)
    (hv : s.cfgValid = true) (hw : s.issuing = some w) (hd : decode w = .command (.ctxStart c)) :
    (t.ctx c).state = .active := by
  obtain ⟨hi, -⟩ | ⟨hi, -⟩ | ⟨v, p, rs, hi, -, h⟩ := step_next_cases h
  · exact nomatch hi.symm.trans hw
  · exact nomatch hi.symm.trans hw
  · obtain rfl : v = w := Option.some.inj (hi.symm.trans hw)
    have hc' : c < ({ s with pending := p, responses := rs } : State).nCtx := hc
    rw [issue_command hd, exec_ctxStart_success hc' hv] at h
    injection h with h
    rw [← h, complete_ctx, setCtx_ctx_self hc']

/-- The result views of a context that is not DONE read 0 (10_state.md R38, R39). -/
theorem resultViews_of_not_done {s : State} {c : Nat} (h : (s.ctx c).state ≠ .done) :
    s.readReg (.ctxResultBE c) = 0 ∧ s.readReg (.ctxResultLen c) = 0 :=
  ⟨if_neg h, if_neg h⟩

/-- Settles O49: the views show the context and the width, both of which such a step keeps
(`step_ctx_of_done`, `step_config`); a reset, a commit or a start leaves a context that is not DONE. -/
theorem resultStaysUntilDiscarded : Obligations.ResultStaysUntilDiscarded := by
  intro s t c h hc hdone
  refine ⟨fun hstart hcommit hreset => ?_, fun hdiscard => ?_⟩
  · obtain ⟨hcm, -⟩ | ⟨-, hr, -⟩ | ⟨-, -, -, hk, -⟩ := step_config h
    · exact absurd hcm hcommit
    · exact nomatch hreset.symm.trans hr
    · exact readReg_ctx_congr (step_ctx_of_done h hdone hstart hcommit hreset) hk
  · have hnot : (t.ctx c).state ≠ .done := by
      obtain hreset | hcommit | ⟨hv, w, hw, hd⟩ := hdiscard
      · simp [step_ctx_of_discard h (.inl hreset) c, Ctx.idle]
      · simp [step_ctx_of_discard h (.inr hcommit) c, Ctx.idle]
      · simp [step_ctxStart_state h hc hv hw hd]
    exact ⟨hnot, resultViews_of_not_done hnot⟩

end Sys2Proof.Machine
end

section
/-! Progress: every step serves one entry of the host's list (70_reset_and_hazards.md R191, R211). -/

namespace Sys2Proof.Machine

/-- A step takes the oldest entry from the host's list, a reset like any other. -/
theorem step_pending {s t : State} (h : step s = .next t) : t.pending = s.pending.tail := by
  obtain hr | hr := Bool.eq_false_or_eq_true s.resetting
  · obtain ⟨-, -, hr', -⟩ | ⟨-, -, rest, _, htail, hs⟩ | ⟨-, hr', -⟩ | ⟨hr', -⟩ := step_cases s
    · exact nomatch hr'.symm.trans hr
    · injection hs.symm.trans h with ht
      rw [← ht, htail]
    · exact nomatch hr'.symm.trans hr
    · exact nomatch hr'.symm.trans hr
  · obtain ⟨-, -, hp⟩ := step_host_frame hr h
    exact hp

/-- Settles O50: `step_next` and `step_pending`; with no entry the step waits (`step_nil`). -/
theorem everyStepCompletes : Obligations.EveryStepCompletes := by
  intro s
  obtain ⟨t, h⟩ := step_next s
  refine ⟨t, h, step_pending h, fun hp => ?_⟩
  injection h.symm.trans (step_nil hp)

end Sys2Proof.Machine
end

section
/-! Reset: what it leaves, also while a CMD write is stalled, and what holds until a CFG_COMMIT succeeds
(70_reset_and_hazards.md R190 to R193). -/

namespace Sys2Proof.Machine

/-- Settles O52: by what `serve` does with the two kinds of reset; the registers of the reset state read 0
(`resetOf_readReg`), and ID is settled by N_CTX. -/
theorem resetAbandonsTheStalledCommand : Obligations.ResetAbandonsTheStalledCommand := by
  intro s rest
  refine ⟨fun hp => step_cons hp, fun w hp => ⟨_, step_cons hp, rfl, fun r hr => ?_, ?_⟩⟩
  · exact (readReg_respond _ .abandoned r).trans
      ((readReg_hostPort _ rest s.responses r).trans (resetOf_readReg s.nCtx s.base hr))
  · exact idWord_congr (resetOf_nCtx s.nCtx s.base)

/-- After a step that resets, nothing is committed and nothing staged (10_state.md R40). -/
theorem step_resetting {s t : State} (h : step s = .next t) (hreset : s.resetting = true) :
    t.cfgValid = false ∧ t.stg = CrcConfig.zero := by
  obtain ⟨-, hr, -⟩ | ⟨-, -, _, _, rfl⟩ | ⟨_, _, _, -, hr, -⟩ := step_next_cases h
  · exact nomatch hr.symm.trans hreset
  · exact ⟨rfl, rfl⟩
  · exact nomatch hr.symm.trans hreset

/-- A step that neither resets nor writes STG_BITS leaves it alone. -/
theorem step_stgBits {s t : State} (h : step s = .next t) (hreset : s.resetting = false)
    (hw : s.writing ≠ some .stgBits) : t.stg.bits = s.stg.bits := by
  cases hp : s.pending with
  | nil =>
    injection (step_nil hp).symm.trans h with ht
    rw [ht]
  | cons e rest =>
    cases e with
    | reset | resetDuringCmd w => simp [State.resetting, hp] at hreset
    | access a =>
      cases a with
      | read addr n =>
        injection (step_access hp).symm.trans h with ht
        rw [← ht]
      | write addr n v =>
        cases ha : s.admitted addr n with
        | none =>
          injection (step_busError hp (.inr ⟨v, rfl⟩) ha).symm.trans h with ht
          rw [← ht]
        | some r =>
          have hr : r ≠ .stgBits := by
            rintro rfl
            exact hw (by simp [State.writing, hp, ha])
          have hkept := writeReg_stgBits hr ((step_write hp ha).symm.trans h)
          exact hkept

/-- A staged width of 0 fails every CFG_COMMIT with CFG_BITS_RANGE. -/
theorem exec_cfgCommit_of_bits_zero {s : State} (h : s.stg.bits = 0) :
    exec .cfgCommit s = .next (raiseError .cfgBitsRange s) :=
  exec_cfgCommit_of_failure (validate_of_bits_out_of_range (.inl (by rw [h]; decide)))

/-- Without a committed configuration a context command of a context below N_CTX fails with NO_CONFIG. -/
theorem failureOf_noConfig {i : Instr} {c : Nat} {s : State} (hi : ctxOperand i = some c) (hc : c < s.nCtx)
    (hv : s.cfgValid = false) : failureOf s i = some .noConfig := by
  cases i with
  | nop | cfgCommit | errClr => exact nomatch hi
  | ctxStart d =>
    obtain rfl : d = c := Option.some.inj hi
    exact startFailure_noConfig hc hv
  | ctxFold d b | ctxFinal d =>
    obtain rfl : d = c := Option.some.inj hi
    exact activeFailure_noConfig hc hv

/-- Settles O53: what keeps STG_BITS 0 is `step_stgBits`, what keeps CFG_VALID 0 is `step_config`, and a
command then meets the failure of `exec_cfgCommit_of_bits_zero` or `failureOf_noConfig`. -/
theorem noConfigUntilACommitSucceeds : Obligations.NoConfigUntilACommitSucceeds := by
  refine ⟨fun _ _ => ⟨rfl, rfl⟩, fun s t h hreset => ?_, fun s t h0 h hw => ?_, fun s h0 => ⟨?_, ?_⟩,
    fun s t hv h hcommit => ?_, fun s i c hv hi hc => exec_of_failureOf_some hi (failureOf_noConfig hi hc hv)⟩
  · obtain ⟨hv, hstg⟩ := step_resetting h hreset
    exact ⟨hv, by rw [hstg]; rfl⟩
  · obtain hreset | hreset := Bool.eq_false_or_eq_true s.resetting
    · obtain ⟨-, hstg⟩ := step_resetting h hreset
      rw [hstg]
      rfl
    · rw [step_stgBits h hreset hw, h0]
  · exact exec_cfgCommit_of_bits_zero h0
  · exact (issue_command (decode_eq_cfgCommit_iff.mpr rfl) s).trans (exec_cfgCommit_of_bits_zero h0)
  · obtain ⟨hc, -⟩ | ⟨-, -, hv'⟩ | ⟨-, -, hv', -⟩ := step_config h
    · exact absurd hc hcommit
    · exact hv'
    · rw [hv', hv]

end Sys2Proof.Machine
end

section
/-! A host program through the bus: which accesses are answered what, and which state they leave, whatever
else stands in the host's lists (20_memory.md R62). -/

namespace Sys2Proof.Machine

/-! ## The CRCU does not read the host's lists -/

/-- The state with other lists of the host: no register differs (`readReg_hostPort`). -/
def State.withHost (s : State) (p : List HostEvent) (rs : List Response) : State :=
  { s with pending := p, responses := rs }

/-- A command whose effect carries the host's lists along ends the same whatever they hold. -/
theorem endCommand_withHost {failure : Option ErrCode} {effect : State → State} {s t : State}
    {p : List HostEvent} {rs : List Response}
    (heffect : effect (s.withHost p rs) = (effect s).withHost p rs)
    (h : endCommand failure effect s = .next t) :
    endCommand failure effect (s.withHost p rs) = .next (t.withHost p rs) := by
  obtain ⟨code, rfl, rfl⟩ | ⟨rfl, rfl⟩ := endCommand_cases h
  · rfl
  · rw [endCommand_none, heffect]
    rfl

/-- No command reads or writes the host's lists. -/
theorem exec_withHost {i : Instr} {s t : State} (h : exec i s = .next t) (p : List HostEvent)
    (rs : List Response) : exec i (s.withHost p rs) = .next (t.withHost p rs) := by
  cases i with
  | nop => exact endCommand_withHost (failure := none) (effect := id) rfl h
  | errClr =>
    exact endCommand_withHost (failure := none) (effect := fun s => { s with errSticky := false }) rfl h
  | cfgCommit => exact endCommand_withHost rfl ((exec_cfgCommit s).symm.trans h)
  | ctxStart c => exact endCommand_withHost rfl ((exec_ctxStart c s).symm.trans h)
  | ctxFold c b => exact endCommand_withHost rfl ((exec_ctxFold c b s).symm.trans h)
  | ctxFinal c => exact endCommand_withHost rfl ((exec_ctxFinal c s).symm.trans h)

/-- Nor does a write to any register. -/
theorem writeReg_withHost {r : Reg} {v : Word} {s t : State} (h : writeReg r v s = .next t)
    (p : List HostEvent) (rs : List Response) :
    writeReg r v (s.withHost p rs) = .next (t.withHost p rs) := by
  cases r with
  | cmd =>
    obtain ⟨⟨why, hd⟩, rfl⟩ | ⟨i, hd, he⟩ := issue_cases h
    · exact issue_illegal hd _
    · exact (issue_command hd _).trans (exec_withHost he p rs)
  | _ =>
    injection h with h
    rw [← h]
    rfl

/-! ## Serving accesses -/

/-- Served from s, these accesses are answered so and leave t, whatever stands behind them in the host's
list and whatever was answered before. -/
def Serves (accesses : List Access) (answers : List Response) (s t : State) : Prop :=
  ∀ (p : List HostEvent) (rs : List Response),
    Host.Core.run core accesses.length (s.withHost (accesses.map .access ++ p) rs) =
      .next (t.withHost p (rs ++ answers))

/-- Accesses served one after another. -/
theorem Serves.append {as bs : List Access} {xs ys : List Response} {s t u : State}
    (h : Serves as xs s t) (h' : Serves bs ys t u) : Serves (as ++ bs) (xs ++ ys) s u := by
  intro p rs
  rw [List.map_append, List.append_assoc, List.length_append, run_add _ (h _ rs), h' p (rs ++ xs),
    List.append_assoc]

/-- An access served before others. -/
theorem Serves.cons {a : Access} {bs : List Access} {x : Response} {ys : List Response} {s t u : State}
    (h : Serves [a] [x] s t) (h' : Serves bs ys t u) : Serves (a :: bs) (x :: ys) s u :=
  h.append h'

/-- One access that a step serves. -/
theorem Serves.of_step {a : Access} {x : Response} {s t : State}
    (h : ∀ p rs, step (s.withHost (.access a :: p) rs) = .next (t.withHost p (rs ++ [x]))) :
    Serves [a] [x] s t :=
  fun p rs => run_succ (h p rs) 0

/-- The offset of a register the machine has is admitted (20_memory.md R51). -/
theorem admitted_offset {s : State} {r : Reg} (hn : s.nCtx ≤ 8) (hr : r.present s.nCtx = true) :
    s.admitted (s.base + r.offset) 8 = some r :=
  admitted_eq_some_iff.mpr ⟨rfl, Nat.le_add_right _ _, hr, present_mono hn hr, by omega⟩

/-- A read is answered the register's value and changes nothing. -/
theorem Serves.read {s : State} {r : Reg} (hn : s.nCtx ≤ 8) (hr : r.present s.nCtx = true) :
    Serves [.read (s.base + r.offset) 8] [.data (s.readReg r)] s s := by
  refine .of_step fun p rs => ?_
  rw [step_read (s := s.withHost _ rs) rfl (admitted_offset hn hr), State.withHost, readReg_hostPort]
  rfl

/-- A write is answered as done and has its register's effect. -/
theorem Serves.write {s t : State} {r : Reg} {v : Word} (hn : s.nCtx ≤ 8) (hr : r.present s.nCtx = true)
    (h : writeReg r v s = .next t) : Serves [.write (s.base + r.offset) 8 v] [.done] s t := by
  refine .of_step fun p rs => ?_
  rw [step_write (s := s.withHost _ rs) rfl (admitted_offset hn hr)]
  exact writeReg_withHost h p (rs ++ [Response.done])

/-- Writing a command's word to CMD executes it (30_encoding.md R76). -/
theorem Serves.command {s t : State} {i : Instr} (hn : s.nCtx ≤ 8) (hi : i.wellFormed = true)
    (h : exec i s = .next t) : Serves [cmdAccess s.base i] [.done] s t :=
  Serves.write (r := .cmd) hn rfl ((issue_command (decodeOfEncodeIsTheCommand i hi) s).trans h)

/-- A sequence of commands is its run. -/
theorem Serves.commands {is : List Instr} {s t : State} (hn : s.nCtx ≤ 8)
    (hwf : ∀ i ∈ is, i.wellFormed = true) (h : runCommands is s = .next t) :
    Serves (is.map (cmdAccess s.base)) (List.replicate is.length .done) s t := by
  induction is generalizing s with
  | nil =>
    injection h with h
    intro p rs
    rw [← h, List.length_nil, List.replicate_zero, List.append_nil]
    rfl
  | cons i is ih =>
    obtain ⟨hi, his⟩ := List.forall_mem_cons.mp hwf
    obtain ⟨u, hu⟩ := exec_next i s
    obtain ⟨hb, hnu, -, -⟩ := exec_host_frame hu
    have hrest := ih (hnu ▸ hn) his ((runCommands_cons hu is).symm.trans h)
    rw [hb] at hrest
    exact (Serves.command hn hi hu).cons hrest

/-! ## The parts of the program (R79, R194) -/

/-- The flags register that CFG.LOAD writes for a configuration holds its flags (10_state.md R29). -/
theorem setWidth_flags (k : CrcConfig) :
    (BitVec.ofNat 64 (k.refin.toNat + 2 * k.refout.toNat)).setWidth 2 = k.flags := by
  have hall : ∀ f : BitVec 2,
      (BitVec.ofNat 64 ((f.getLsbD 0).toNat + 2 * (f.getLsbD 1).toNat)).setWidth 2 = f := by decide
  exact hall k.flags

/-- The machine that has committed k in s: its staging registers hold k too. -/
def State.loaded (s : State) (k : CrcConfig) : State := complete (latchConfig { s with stg := k })

@[simp] theorem loaded_base (s : State) (k : CrcConfig) : (s.loaded k).base = s.base := rfl
@[simp] theorem loaded_cfgValid (s : State) (k : CrcConfig) : (s.loaded k).cfgValid = true := rfl
@[simp] theorem loaded_cfg (s : State) (k : CrcConfig) : (s.loaded k).cfg = k := rfl
@[simp] theorem loaded_table (s : State) (k : CrcConfig) : (s.loaded k).table = k.makeTable := rfl
@[simp] theorem loaded_nCtx (s : State) (k : CrcConfig) : (s.loaded k).nCtx = s.nCtx :=
  latchConfig_nCtx { s with stg := k }

/-- The accesses of CFG.LOAD for a configuration (30_encoding.md R79); `map_access_cfgLoad` has the
statement expand to them. -/
def cfgLoadAccesses (base : Nat) (k : CrcConfig) : List Access :=
  [.write (base + 0x040) 8 k.bits, .write (base + 0x048) 8 k.poly, .write (base + 0x050) 8 k.init,
   .write (base + 0x058) 8 k.xorout,
   .write (base + 0x060) 8 (BitVec.ofNat 64 (k.refin.toNat + 2 * k.refout.toNat)),
   cmdAccess base .cfgCommit]

/-- CFG.LOAD of a valid configuration commits it (30_encoding.md R79; 40_config_table.md R100). -/
theorem serves_cfgLoad {s : State} {k : CrcConfig} (hn : s.nCtx ≤ 8) (hk : k.Valid) :
    Serves (cfgLoadAccesses s.base k) (List.replicate 6 .done) s (s.loaded k) := by
  have hflags (u : State) : writeReg .stgFlags (BitVec.ofNat 64 (k.refin.toNat + 2 * k.refout.toNat)) u =
      .next { u with stg := { u.stg with flags := k.flags } } := by
    rw [writeReg, setWidth_flags]
  have hcommit : exec .cfgCommit { s with stg := k } = .next (s.loaded k) := exec_cfgCommit_of_valid hk
  exact .cons (.write (r := .stgBits) hn rfl rfl) <| .cons (.write (r := .stgPoly) hn rfl rfl) <|
    .cons (.write (r := .stgInit) hn rfl rfl) <| .cons (.write (r := .stgXorout) hn rfl rfl) <|
    .cons (.write (r := .stgFlags) hn rfl (hflags _)) (.command hn rfl hcommit)

/-- The commands of one `compute` can be encoded when the context index can. -/
theorem computeCommands_wellFormed {c : Nat} (hc : c ≤ 255) (data : List Byte) :
    ∀ i ∈ computeCommands c data, i.wellFormed = true := by
  intro i hi
  simp only [computeCommands, List.mem_cons, List.mem_append, List.mem_map, List.not_mem_nil,
    or_false] at hi
  obtain rfl | ⟨b, -, rfl⟩ | rfl := hi
  · exact (wellFormed_ctxStart c).mpr hc
  · exact (wellFormed_ctxFold c b).mpr hc
  · exact (wellFormed_ctxFinal c).mpr hc

/-- CRC leaves the message's CRC in its context (30_encoding.md R79; 41_fold_engine.md R141, R145). -/
theorem serves_crc {s : State} {k : CrcConfig} {c : Nat} (hk : k.Valid) (hc : c < s.nCtx) (hn : s.nCtx ≤ 8)
    (data : List Byte) :
    Serves ((computeCommands c data).map (cmdAccess s.base)) (List.replicate (data.length + 2) .done)
      (s.loaded k) (complete ((s.loaded k).setCtx c ⟨.done, naiveHash k data⟩)) := by
  have hc' : c < (s.loaded k).nCtx := by simpa using hc
  have hrun := runCommands_computeCommands hc' (loaded_cfgValid s k) data
  have hlen : (computeCommands c data).length = data.length + 2 := by simp [computeCommands]
  rw [loaded_cfg, loaded_table] at hrun
  rw [← computeHash_eq_naiveHash hk, ← hlen]
  exact .commands (by simpa using hn) (computeCommands_wellFormed (by omega) data) hrun

/-- Then HASH and RESULT_LEN show the CRC and its length in bytes (10_state.md R35, R39). -/
theorem serves_results {s : State} {c : Nat} (hc : c < s.nCtx) (hn : s.nCtx ≤ 8) (h : Word) :
    Serves [.read (s.base + Reg.offset (.ctxHash c)) 8, .read (s.base + Reg.offset (.ctxResultLen c)) 8]
      [.data h, .data (BitVec.ofNat 64 ((s.cfg.bits.toNat + 7) / 8))]
      (complete (s.setCtx c ⟨.done, h⟩)) (complete (s.setCtx c ⟨.done, h⟩)) := by
  have hx : (complete (s.setCtx c ⟨.done, h⟩)).ctx c = ⟨.done, h⟩ := setCtx_ctx_self hc _
  have hnx : (complete (s.setCtx c ⟨.done, h⟩)).nCtx = s.nCtx := setCtx_nCtx s c _
  have hhash : (complete (s.setCtx c ⟨.done, h⟩)).readReg (.ctxHash c) = h := congrArg Ctx.hash hx
  have hlen : (complete (s.setCtx c ⟨.done, h⟩)).readReg (.ctxResultLen c) =
      BitVec.ofNat 64 ((s.cfg.bits.toNat + 7) / 8) := if_pos (congrArg Ctx.state hx)
  have hread := Serves.read (s := complete (s.setCtx c ⟨.done, h⟩)) (r := .ctxHash c) (by omega)
    (decide_eq_true (by omega))
  have hread' := Serves.read (s := complete (s.setCtx c ⟨.done, h⟩)) (r := .ctxResultLen c) (by omega)
    (decide_eq_true (by omega))
  rw [hhash] at hread
  rw [hlen] at hread'
  exact hread.cons hread'

/-- The accesses of the program (30_encoding.md R78, R79). -/
theorem assemble_program (base : Nat) (k : CrcConfig) {c : Nat} (hc : c ≤ 255) (data : List Byte) :
    assemble base
      [.cfgLoad k.bits.toNat k.poly.toNat k.init.toNat k.refin.toNat k.refout.toNat k.xorout.toNat, .chk,
       .crc c (data.map (·.toNat)), .basic (.rd (.ctxHash c)), .basic (.rd (.ctxResultLen c))] =
      some ((cfgLoadAccesses base k ++ ([Access.read (base + Reg.status.offset) 8] ++
        ((computeCommands c data).map (cmdAccess base) ++
        [Access.read (base + Reg.offset (.ctxHash c)) 8,
         Access.read (base + Reg.offset (.ctxResultLen c)) 8]))).map .access) := by
  apply assemble_of_accesses
  rw [List.flatMap_cons, List.flatMap_cons, List.flatMap_cons, List.map_append, List.map_append,
    List.map_append, map_access_cfgLoad, map_access_crc base hc]
  simp only [List.map_append]
  rfl

/-- Settles O57: the program's accesses (`assemble_program`) are served part by part (`serves_cfgLoad`,
`Serves.read`, `serves_crc`, `serves_results`), and STATUS is read right after the commit. -/
theorem hostProgramComputesTheCrc : Obligations.HostProgramComputesTheCrc := by
  intro s k c data events hk hc hn hevents hp
  have hn' : (s.loaded k).nCtx ≤ 8 := by simpa using hn
  have hserves := (serves_cfgLoad hn hk).append <|
    (Serves.read (s := s.loaded k) (r := .status) hn' rfl).append <|
    (serves_crc hk hc hn data).append <|
    serves_results (s := s.loaded k) (by simpa using hc) hn' (naiveHash k data)
  have hs : s.withHost events s.responses = s := by
    rw [← hp]
    rfl
  rw [assemble_program s.base k (by omega) data] at hevents
  obtain rfl := Option.some.inj hevents
  have hrun := hserves [] s.responses
  simp only [List.append_nil, loaded_base, loaded_cfg] at hrun
  rw [hs] at hrun
  obtain ⟨hvalid, -, -, -, hcode, -⟩ := statusFieldsReadAsSpecified (s.loaded k)
  refine ⟨_, (s.loaded k).readReg .status, (List.length_map _).symm ▸ hrun, ?_, hvalid, hcode⟩
  simp [State.withHost]

end Sys2Proof.Machine
end
